-- ==== Sys2Proof/Word.lean ====
section
/-! DEFINITION. Bytes, register words and byte strings (00_scope.md R15 to R18). -/

namespace Sys2Proof

/-- An unsigned 8-bit value (R15). -/
abbrev Byte := BitVec 8

/-- A 32-bit register word or command word (R13 REG_W, R32). -/
abbrev Word := BitVec 32

/-- A byte string of length n, byte 0 first (R17). -/
abbrev Bytes (n : Nat) := Vector Byte n

/-- A 128-byte Groestl-512 state or message block (R12 STATE_BYTES, R18). -/
abbrev Block := Bytes 128

end Sys2Proof
end

