-- ==== Sys2Proof/Machine/State.lean ====
section
/-! DEFINITION. The state of one core instance (10_state.md R30 to R63, 70_reset_and_hazards.md
R341), the agents around it (20_memory.md R80, R99), and the reasons a step can stop. -/

namespace Sys2Proof.Machine

/-- STATUS.ERR (60_exceptions.md R291). Codes 5 to 15 are never produced, so no value of the type
stands for one (U8, log 25). -/
inductive ErrCode where
  | none
  | range
  | illegal
  | badRnd
  | bus
  deriving DecidableEq, Repr

/-- `core.mode` (R57): IDLE, or EXEC while a command runs. -/
inductive Mode where
  | idle
  | exec
  deriving DecidableEq, Repr

/-- One memory read request: the start address and the number of bytes (20_memory.md R87). -/
structure MemReq where
  addr : Nat
  len : Nat
  deriving DecidableEq, Repr

/-- What `MemRead` returns, on the memory port: the bytes, the first that of the start address, or
`mem_rsp_err` = 1 (R81, R88, R92). -/
inductive MemRsp where
  | ok (bytes : List Byte)
  | buserr
  deriving DecidableEq, Repr

/-- A `MemRead` event of the core: the request and its answer (R92). -/
structure MemEvent where
  req : MemReq
  answer : MemRsp
  deriving DecidableEq, Repr

/-- What the memory system chooses on its turn: to answer from memory, or with an error (R92, R98). -/
inductive MemChoice where
  | data
  | error
  deriving DecidableEq, Repr

/-- A request on the register port (R81). -/
structure RegReq where
  write : Bool
  addr : BitVec 12
  be : BitVec 4
  wdata : Word
  deriving DecidableEq, Repr

/-- A response on the register port: `reg_rsp_rdata` and `reg_rsp_err` (R81, R83). -/
structure RegRsp where
  rdata : Word
  err : Bool
  deriving DecidableEq, Repr

/-- A range of memory space: base address and size in bytes. -/
structure Region where
  base : Nat
  size : Nat
  deriving DecidableEq, Repr

/-- A step of a host program (30_encoding.md R123). An offset is an exact integer (00_scope.md R15),
and a label is the position of a step. -/
inductive HostOp where
  | wr (off : Nat) (v : Word)
  | rd (off : Nat)
  | bclr (b : Fin 32) (label : Nat)
  | bset (b : Fin 32) (label : Nat)
  | halt
  deriving DecidableEq, Repr

/-- The host as R123 writes it: a program, the position of its next step, the scratch register `t`,
and the words its reads returned, oldest first (RDWIN of R124 names them; log 19). -/
structure HostAgent where
  prog : List HostOp
  pos : Nat
  t : Word
  reads : List Word
  deriving DecidableEq, Repr

/-- Whose turn it is, with what that agent chooses (20_memory.md R99, log 1). -/
inductive Turn where
  /-- the core takes its next step; a request it issues asks for `cut` bytes if it may (R93) -/
  | core (cut : Nat)
  /-- the memory system answers the outstanding request (R92) -/
  | memory (c : MemChoice)
  /-- a transfer on the register port (R84) -/
  | host (q : RegReq)
  /-- the host program takes its next step (30_encoding.md R123) -/
  | program
  /-- some agent's store of one byte becomes visible to the memory port (R101, R103) -/
  | store (a : BitVec 64) (b : Byte)
  /-- the platform drives `rst_n` to a level (70_reset_and_hazards.md R340) -/
  | rst (level : Bool)
  deriving DecidableEq, Repr

/-- Memory space: the addresses that hold a byte, strictly rising (R82, R86). An address not listed
holds no byte (log 4). -/
abbrev Memory := List Host.Cell

/-- Why the machine stops with a fault. -/
inductive Fault where
  /-- Raised by HASH1 and HASH2 before a request that would reach past address 2^64 - 1, where no
  address exists (R87). Safe: the range check keeps every reachable state from it (log 15). -/
  | outsideAddressSpace
  /-- Raised by WR and RD of a host program at an offset past 0xFFF, where register space has no byte
  (R82). Safe: the model stops where the spec gives the access no meaning (log 29). -/
  | outsideRegisterSpace
  deriving DecidableEq, Repr

/-- Why the model gives no next state. -/
inductive Refusal where
  /-- Raised by an arm of `exec` whose instruction has no meaning yet. Safe. -/
  | notModelled (mnemonic : String)
  /-- Raised by HASH1 and HASH2 whose valid range covers memory with read side effects: R91 says a
  model refuses such a launch (U4). Safe. -/
  | sideEffectMemory
  /-- Raised by a memory response that answers no outstanding request: R342 forbids the memory
  system to deliver it, and a model excludes such traces (U10). Safe. -/
  | strayResponse
  deriving DecidableEq, Repr

/-- Everything the spec gives one core instance, and the agents around it, as plain data. -/
structure State where
  /-- CTRL.IE (R35) -/
  ie : Bool
  /-- STATUS.BUSY (R37); `core.mode` is a view of it (R57) -/
  busy : Bool
  /-- STATUS.DONE (R38) -/
  done : Bool
  /-- STATUS.VALID (R39) -/
  valid : Bool
  /-- STATUS.WBUSY (R40) -/
  wbusy : Bool
  /-- STATUS.ERR (R41) -/
  err : ErrCode
  /-- CMD, the last accepted command word (R42); `core.cmd` is the same register (R57) -/
  cmd : Word
  srcAddrLo : Word
  srcAddrHi : Word
  bufLenLo : Word
  bufLenHi : Word
  offsetLo : Word
  offsetHi : Word
  lengthLo : Word
  lengthHi : Word
  /-- DIGEST (R48) -/
  digest : Bytes 32
  /-- HOUT (R49) -/
  hout : Bytes 64
  /-- HREG, the chaining value (R50) -/
  hreg : Block
  /-- MREG, the message block (R51) -/
  mreg : Block
  /-- PST, the P lane (R52) -/
  pst : Block
  /-- QST, the Q lane (R53) -/
  qst : Block
  /-- `core.rd_next`, the next message address to read (R57) -/
  rdNext : Nat
  /-- `core.rd_left`, the bytes of the range still to be read (R57) -/
  rdLeft : Nat
  /-- `core.pending`, at most one outstanding request (R57, R93) -/
  pending : Option MemReq
  /-- the message bytes received so far by the running command (log 18) -/
  rdData : List Byte
  /-- the running command has received an error response, and completes with BUS (60_exceptions.md
  R295, log 26) -/
  failed : Bool
  /-- the addresses stored to since acceptance, strictly rising (R103, log 6) -/
  stored : List Nat
  /-- `rst_n` = 0 (70_reset_and_hazards.md R340) -/
  inReset : Bool
  /-- the memory port's response to the outstanding request (R81, R92) -/
  memRsp : Option MemRsp
  /-- the `MemRead` events of the core, oldest first (R92, log 28) -/
  memEvents : List MemEvent
  /-- the last response on the register port (R81, R84, log 24) -/
  regRsp : Option RegRsp
  /-- memory space (R82) -/
  mem : Memory
  /-- the platform's memory with read side effects (R91, log 13) -/
  sideEffects : List Region
  /-- the memory system answers also when no turn tells it to (R354, log 14) -/
  memAnswers : Bool
  /-- the size the implementation chooses for its next request (R93, log 9) -/
  cut : Nat
  /-- how many free values have been drawn (log 8) -/
  draws : Nat
  /-- the host program (30_encoding.md R123, log 19) -/
  host : HostAgent
  /-- the turns that come next, oldest first (R99, log 1) -/
  schedule : List Turn
  deriving DecidableEq, Repr

/-- The machine right after reset (70_reset_and_hazards.md R341), with no memory contents, no host
program and no turn scheduled (logs 1, 4, 19). -/
def State.reset : State where
  ie := false
  busy := false
  done := false
  valid := false
  wbusy := false
  err := .none
  cmd := 0
  srcAddrLo := 0
  srcAddrHi := 0
  bufLenLo := 0
  bufLenHi := 0
  offsetLo := 0
  offsetHi := 0
  lengthLo := 0
  lengthHi := 0
  digest := Vector.replicate 32 0
  hout := Vector.replicate 64 0
  hreg := Vector.replicate 128 0
  mreg := Vector.replicate 128 0
  pst := Vector.replicate 128 0
  qst := Vector.replicate 128 0
  rdNext := 0
  rdLeft := 0
  pending := none
  rdData := []
  failed := false
  stored := []
  inReset := false
  memRsp := none
  memEvents := []
  regRsp := none
  mem := []
  sideEffects := []
  memAnswers := true
  cut := 1
  draws := 0
  host := { prog := [], pos := 0, t := 0, reads := [] }
  schedule := []

end Sys2Proof.Machine
end

