-- ==== Sys2Proof/Machine/Operands.lean ====
section
/-! DEFINITION. How operands are read and put together: byte strings (00_scope.md R16, R17), the
words of a window (10_state.md R54) and the 64-bit range values (R43 to R47). -/

namespace Sys2Proof.Machine

/-- The byte string whose byte k is `f k`. -/
def tabulate (n : Nat) (f : Nat → Byte) : Bytes n :=
  ⟨⟨(List.range n).map f⟩, by simp⟩

/-- Byte k of a byte string. No rule reads a byte past the end. -/
def byteAt {n : Nat} (v : Bytes n) (k : Nat) : Byte := v.toList.getD k 0

/-- `zeros(n)` (R17). -/
def zeros (n : Nat) : Bytes n := Vector.replicate n 0

/-- xor of byte strings of equal length, byte by byte (R16). -/
def xorBytes {n : Nat} (a b : Bytes n) : Bytes n :=
  tabulate n fun k => byteAt a k ^^^ byteAt b k

/-- `v[start .. start + len - 1]` (R17). -/
def slice {n : Nat} (v : Bytes n) (start len : Nat) : Bytes len :=
  tabulate len fun k => byteAt v (start + k)

/-- `be64(n)`: eight bytes, most significant first (R17). -/
def be64 (n : Nat) : Bytes 8 :=
  tabulate 8 fun t => BitVec.ofNat 8 (n >>> (8 * (7 - t)))

/-- Byte lane t of a register word: bits 8t+7 down to 8t (20_memory.md R85). -/
def byteLane (x : Word) (t : Nat) : Byte := x.extractLsb' (8 * t) 8

/-- The register word made of four bytes, the first in bits 7:0 (R54). -/
def wordOfBytes (b0 b1 b2 b3 : Byte) : Word := b3 ++ b2 ++ b1 ++ b0

/-- Word w of a window: bytes 4w to 4w+3 (R54). -/
def wordAt {n : Nat} (v : Bytes n) (w : Nat) : Word :=
  wordOfBytes (byteAt v (4 * w)) (byteAt v (4 * w + 1)) (byteAt v (4 * w + 2))
    (byteAt v (4 * w + 3))

/-- A window after its word w is replaced (R54, R62). -/
def setWord {n : Nat} (v : Bytes n) (w : Nat) (x : Word) : Bytes n :=
  tabulate n fun k => if k / 4 = w then byteLane x (k % 4) else byteAt v k

/-- SRC_ADDR: the HI word above the LO word (R43, R47). -/
def State.srcAddr (s : State) : BitVec 64 := s.srcAddrHi ++ s.srcAddrLo

/-- BUF_LEN (R44, R47). -/
def State.bufLen (s : State) : BitVec 64 := s.bufLenHi ++ s.bufLenLo

/-- OFFSET (R45, R47). -/
def State.offset (s : State) : BitVec 64 := s.offsetHi ++ s.offsetLo

/-- LENGTH (R46, R47). -/
def State.msgLen (s : State) : BitVec 64 := s.lengthHi ++ s.lengthLo

/-- B = SRC_ADDR + OFFSET, an exact sum (R15, 20_memory.md R93). -/
def rangeBase (s : State) : Nat := s.srcAddr.toNat + s.offset.toNat

/-- `RangeOK()` (42_pipeline.md R241): OFFSET and LENGTH are not negative, the range lies in the
buffer and does not wrap the address space; all sums are exact. -/
def rangeOk (s : State) : Bool :=
  !s.offset.getLsbD 63 && !s.msgLen.getLsbD 63
    && decide (s.offset.toNat + s.msgLen.toNat ≤ s.bufLen.toNat)
    && decide (s.srcAddr.toNat + s.offset.toNat + s.msgLen.toNat ≤ 2 ^ 64)

/-- A region and the range [base, base + len) have a byte in common. -/
def Region.meets (g : Region) (base len : Nat) : Bool :=
  decide (max g.base base < min (g.base + g.size) (base + len))

/-- The range covers memory with read side effects (20_memory.md R91). -/
def rangeHasSideEffects (s : State) : Bool :=
  s.sideEffects.any fun g => g.meets (rangeBase s) s.msgLen.toNat

end Sys2Proof.Machine
end

