-- ==== Sys2Proof/Machine/Groestl.lean ====
section
/-! DEFINITION. The Groestl-512 permutations P and Q (40_permutation_core.md R140 to R147): the
S-box, the four round steps, the rounds and the 14-round permutations. Row i, column j of a state is
byte 8j + i (00_scope.md R18). -/

namespace Sys2Proof.Machine

/-- Row 0x of SBOX (R140). -/
def sboxRow0 : List Byte :=
  [0x63, 0x7c, 0x77, 0x7b, 0xf2, 0x6b, 0x6f, 0xc5,
   0x30, 0x01, 0x67, 0x2b, 0xfe, 0xd7, 0xab, 0x76]

/-- Row 1x of SBOX (R140). -/
def sboxRow1 : List Byte :=
  [0xca, 0x82, 0xc9, 0x7d, 0xfa, 0x59, 0x47, 0xf0,
   0xad, 0xd4, 0xa2, 0xaf, 0x9c, 0xa4, 0x72, 0xc0]

/-- Row 2x of SBOX (R140). -/
def sboxRow2 : List Byte :=
  [0xb7, 0xfd, 0x93, 0x26, 0x36, 0x3f, 0xf7, 0xcc,
   0x34, 0xa5, 0xe5, 0xf1, 0x71, 0xd8, 0x31, 0x15]

/-- Row 3x of SBOX (R140). -/
def sboxRow3 : List Byte :=
  [0x04, 0xc7, 0x23, 0xc3, 0x18, 0x96, 0x05, 0x9a,
   0x07, 0x12, 0x80, 0xe2, 0xeb, 0x27, 0xb2, 0x75]

/-- Row 4x of SBOX (R140). -/
def sboxRow4 : List Byte :=
  [0x09, 0x83, 0x2c, 0x1a, 0x1b, 0x6e, 0x5a, 0xa0,
   0x52, 0x3b, 0xd6, 0xb3, 0x29, 0xe3, 0x2f, 0x84]

/-- Row 5x of SBOX (R140). -/
def sboxRow5 : List Byte :=
  [0x53, 0xd1, 0x00, 0xed, 0x20, 0xfc, 0xb1, 0x5b,
   0x6a, 0xcb, 0xbe, 0x39, 0x4a, 0x4c, 0x58, 0xcf]

/-- Row 6x of SBOX (R140). -/
def sboxRow6 : List Byte :=
  [0xd0, 0xef, 0xaa, 0xfb, 0x43, 0x4d, 0x33, 0x85,
   0x45, 0xf9, 0x02, 0x7f, 0x50, 0x3c, 0x9f, 0xa8]

/-- Row 7x of SBOX (R140). -/
def sboxRow7 : List Byte :=
  [0x51, 0xa3, 0x40, 0x8f, 0x92, 0x9d, 0x38, 0xf5,
   0xbc, 0xb6, 0xda, 0x21, 0x10, 0xff, 0xf3, 0xd2]

/-- Row 8x of SBOX (R140). -/
def sboxRow8 : List Byte :=
  [0xcd, 0x0c, 0x13, 0xec, 0x5f, 0x97, 0x44, 0x17,
   0xc4, 0xa7, 0x7e, 0x3d, 0x64, 0x5d, 0x19, 0x73]

/-- Row 9x of SBOX (R140). -/
def sboxRow9 : List Byte :=
  [0x60, 0x81, 0x4f, 0xdc, 0x22, 0x2a, 0x90, 0x88,
   0x46, 0xee, 0xb8, 0x14, 0xde, 0x5e, 0x0b, 0xdb]

/-- Row Ax of SBOX (R140). -/
def sboxRowA : List Byte :=
  [0xe0, 0x32, 0x3a, 0x0a, 0x49, 0x06, 0x24, 0x5c,
   0xc2, 0xd3, 0xac, 0x62, 0x91, 0x95, 0xe4, 0x79]

/-- Row Bx of SBOX (R140). -/
def sboxRowB : List Byte :=
  [0xe7, 0xc8, 0x37, 0x6d, 0x8d, 0xd5, 0x4e, 0xa9,
   0x6c, 0x56, 0xf4, 0xea, 0x65, 0x7a, 0xae, 0x08]

/-- Row Cx of SBOX (R140). -/
def sboxRowC : List Byte :=
  [0xba, 0x78, 0x25, 0x2e, 0x1c, 0xa6, 0xb4, 0xc6,
   0xe8, 0xdd, 0x74, 0x1f, 0x4b, 0xbd, 0x8b, 0x8a]

/-- Row Dx of SBOX (R140). -/
def sboxRowD : List Byte :=
  [0x70, 0x3e, 0xb5, 0x66, 0x48, 0x03, 0xf6, 0x0e,
   0x61, 0x35, 0x57, 0xb9, 0x86, 0xc1, 0x1d, 0x9e]

/-- Row Ex of SBOX (R140). -/
def sboxRowE : List Byte :=
  [0xe1, 0xf8, 0x98, 0x11, 0x69, 0xd9, 0x8e, 0x94,
   0x9b, 0x1e, 0x87, 0xe9, 0xce, 0x55, 0x28, 0xdf]

/-- Row Fx of SBOX (R140). -/
def sboxRowF : List Byte :=
  [0x8c, 0xa1, 0x89, 0x0d, 0xbf, 0xe6, 0x42, 0x68,
   0x41, 0x99, 0x2d, 0x0f, 0xb0, 0x54, 0xbb, 0x16]

/-- SBOX[x]: row `x >> 4`, column `x & 0xF` (R140). -/
def sbox (x : Byte) : Byte :=
  ([sboxRow0, sboxRow1, sboxRow2, sboxRow3, sboxRow4, sboxRow5, sboxRow6, sboxRow7, sboxRow8,
    sboxRow9, sboxRowA, sboxRowB, sboxRowC, sboxRowD, sboxRowE, sboxRowF].getD
      (x.toNat / 16) []).getD (x.toNat % 16) 0

/-- Multiplication by x in GF(2^8) modulo 0x11B: shift left, and reduce when bit 8 comes up
(00_scope.md R19). -/
def xtime (a : Byte) : Byte := if a.getLsbD 7 then (a <<< 1) ^^^ 0x1B else a <<< 1

/-- The loop of `gmul` over the bits of `b`, lowest first (00_scope.md R19). -/
def gmulLoop : (steps : Nat) → (a b r : Byte) → Byte
  | 0, _, _, r => r
  | n + 1, a, b, r => gmulLoop n (xtime a) (b >>> 1) (if b.getLsbD 0 then r ^^^ a else r)

/-- The product in GF(2^8) modulo 0x11B (00_scope.md R19). -/
def gmul (a b : Byte) : Byte := gmulLoop 8 a b 0

/-- SubBytes (R141). -/
def subBytes (S : Block) : Block := tabulate 128 fun k => sbox (byteAt S k)

/-- `(j << 4) xor r` as a byte, for column j and round r (R142, R143). -/
def roundConst (r : BitVec 4) (j : Nat) : Byte := (BitVec.ofNat 8 j <<< 4) ^^^ r.setWidth 8

/-- AddRoundConstant of P: row 0 only (R142). -/
def arcP (S : Block) (r : BitVec 4) : Block :=
  tabulate 128 fun k =>
    if k % 8 = 0 then byteAt S k ^^^ roundConst r (k / 8) else byteAt S k

/-- AddRoundConstant of Q: 0xFF into rows 0 to 6, a column's constant into row 7 (R143). -/
def arcQ (S : Block) (r : BitVec 4) : Block :=
  tabulate 128 fun k =>
    if k % 8 = 7 then byteAt S k ^^^ (0xFF ^^^ roundConst r (k / 8)) else byteAt S k ^^^ 0xFF

/-- The rotations of the rows in P, row 0 first (R144). -/
def sigmaP : List Nat := [0, 1, 2, 3, 4, 5, 6, 11]

/-- The rotations of the rows in Q, row 0 first (R144). -/
def sigmaQ : List Nat := [1, 3, 5, 11, 0, 2, 4, 6]

/-- ShiftBytes: row i rotates left by `sigma[i]` columns (R144). -/
def shiftBytes (S : Block) (sigma : List Nat) : Block :=
  tabulate 128 fun k => byteAt S (8 * ((k / 8 + sigma.getD (k % 8) 0) % 16) + k % 8)

/-- The first row of the circulant matrix (R145). -/
def mixCoef : List Byte := [0x02, 0x02, 0x03, 0x04, 0x05, 0x03, 0x05, 0x07]

/-- Row i, column j of MixBytes(S): the sum over t in 0..7 of c[(t - i) mod 8] times S[8j + t]
(R145). -/
def mixByte (S : Block) (i j : Nat) : Byte :=
  (List.range 8).foldl
    (fun acc t => acc ^^^ gmul (mixCoef.getD ((t + 8 - i) % 8) 0) (byteAt S (8 * j + t))) 0

/-- MixBytes (R145). -/
def mixBytes (S : Block) : Block := tabulate 128 fun k => mixByte S (k % 8) (k / 8)

/-- R_P (R146). -/
def roundP (S : Block) (r : BitVec 4) : Block :=
  mixBytes (shiftBytes (subBytes (arcP S r)) sigmaP)

/-- R_Q (R146). -/
def roundQ (S : Block) (r : BitVec 4) : Block :=
  mixBytes (shiftBytes (subBytes (arcQ S r)) sigmaQ)

/-- The round indices of a permutation, in order (R147). -/
def rounds : List (BitVec 4) := (List.range 14).map (BitVec.ofNat 4)

/-- The permutation P: rounds 0 to 13 (R147). -/
def permP (S : Block) : Block := rounds.foldl roundP S

/-- The permutation Q: rounds 0 to 13 (R147). -/
def permQ (S : Block) : Block := rounds.foldl roundQ S

end Sys2Proof.Machine
end

