-- ==== Sys2Proof/Config.lean ====
section
/-! DEFINITION. The platform's parameters (00_scope.md R14) and the free values
(93_implementation_defined.md part 2). A constant here has no body: nothing can evaluate it, so a
statement that holds, holds for every value of it. -/

namespace Sys2Proof.Config

/-- `MEM_MAX_REQ` less one. Its type carries the bound of R14: 1 <= MEM_MAX_REQ <= 128 (log 10). -/
opaque memMaxReqLessOne : Fin 128

/-- `MEM_MAX_REQ`: the largest number of bytes in one memory read request (R14). -/
def memMaxReq : Nat := memMaxReqLessOne.val + 1

/-- `REG_BASE`: where the register space sits in the host's map (R14). The core sees only offsets
(log 21). -/
opaque regBase : Nat

/-- `N_INST` less one: how many further core instances the platform has (R14, log 21). -/
opaque otherInstances : Nat

/-- `LAT`: the cycles a step takes; no rule depends on it (R14, R352, log 22). -/
opaque lat : Nat

/-- What the host reads from a window word while BUSY = 1: any value, a fresh one for each draw
(10_state.md R59, U1; log 5). -/
opaque busyWindowRead : (draw : Nat) → Word

/-- The byte a request reads at an address stored to in the hazard window: any value
(20_memory.md R103, U2; log 6). -/
opaque racyByte : (draw addr : Nat) → Byte

/-- What HREG, MREG, PST and QST (windows 0 to 3) hold after a BUS completion: any value
(60_exceptions.md R299, U3; log 7). -/
opaque abandonedWindow : (draw : Nat) → (window : Fin 4) → Block

/-- What the memory system answers for an address that holds no memory: a data byte, or `none` for
an error response. The platform's memory map decides (20_memory.md R86, U12; log 4). -/
opaque unmappedByte : (addr : Nat) → Option Byte

end Sys2Proof.Config
end

