-- ==== Sys2Proof/Syntax.lean ====
section
/-! DEFINITION. The 24 commands of 30_encoding.md R115, one constructor per row of the opcode
table, and their written form (R122). -/

namespace Sys2Proof

/-- A command. The four round-indexed commands carry RND, the 4-bit field of R113. -/
inductive Instr where
  | nop
  | hash2
  | hash1
  | arcP (r : BitVec 4)
  | arcQ (r : BitVec 4)
  | subP
  | subQ
  | shbP
  | shbQ
  | mixP
  | mixQ
  | rndP (r : BitVec 4)
  | rndQ (r : BitVec 4)
  | permP
  | permQ
  | init
  | loadpq
  | fold
  | comp
  | outld
  | outx
  | omega
  | chain
  | trunc
  deriving DecidableEq, Repr

/-- The mnemonic of a command, upper case, with the lane suffix (R115, R122). -/
def Instr.mnemonic : Instr → String
  | .nop => "NOP"
  | .hash2 => "HASH2"
  | .hash1 => "HASH1"
  | .arcP _ => "ARC.P"
  | .arcQ _ => "ARC.Q"
  | .subP => "SUB.P"
  | .subQ => "SUB.Q"
  | .shbP => "SHB.P"
  | .shbQ => "SHB.Q"
  | .mixP => "MIX.P"
  | .mixQ => "MIX.Q"
  | .rndP _ => "RND.P"
  | .rndQ _ => "RND.Q"
  | .permP => "PERM.P"
  | .permQ => "PERM.Q"
  | .init => "INIT"
  | .loadpq => "LOADPQ"
  | .fold => "FOLD"
  | .comp => "COMP"
  | .outld => "OUTLD"
  | .outx => "OUTX"
  | .omega => "OMEGA"
  | .chain => "CHAIN"
  | .trunc => "TRUNC"

/-- The round operand of a command, where it takes one (R113). -/
def Instr.round? : Instr → Option (BitVec 4)
  | .arcP r | .arcQ r | .rndP r | .rndQ r => some r
  | .nop | .hash2 | .hash1 | .subP | .subQ | .shbP | .shbQ | .mixP | .mixQ | .permP | .permQ
  | .init | .loadpq | .fold | .comp | .outld | .outx | .omega | .chain | .trunc => none

/-- The command as the spec writes it: the mnemonic, then a decimal round index (R122). -/
def Instr.text (i : Instr) : String :=
  match i.round? with
  | none => i.mnemonic
  | some r => i.mnemonic ++ " " ++ toString r.toNat

end Sys2Proof
end

