-- ==== Sys2Proof/WellFormed.lean ====
section
/-! DEFINITION. Which commands an encoding exists for: a round index is one of the 14 rounds
(30_encoding.md R113, R116). -/

namespace Sys2Proof

/-- The legal range of RND is 0..13 (R113). -/
def roundLegal (r : BitVec 4) : Bool := r.toNat ≤ 13

/-- A command has a legal word (R116). -/
def Instr.wf : Instr → Bool
  | .arcP r => roundLegal r
  | .arcQ r => roundLegal r
  | .rndP r => roundLegal r
  | .rndQ r => roundLegal r
  | .nop | .hash2 | .hash1 | .subP | .subQ | .shbP | .shbQ | .mixP | .mixQ | .permP | .permQ
  | .init | .loadpq | .fold | .comp | .outld | .outx | .omega | .chain | .trunc => true

/-- The check as a proposition. -/
abbrev Instr.WellFormed (i : Instr) : Prop := i.wf = true

end Sys2Proof
end

