-- ==== Sys2Proof/Decode.lean ====
section
/-! DEFINITION. The command word format CMD32, the total decoder of 30_encoding.md R117, the
encoder of R116 and the written form of a word (R122). -/

namespace Sys2Proof

/-- What a command word decodes to (R117): rejection is by name. -/
inductive Decoded where
  | legal (i : Instr)
  | illegal
  | badRound
  deriving DecidableEq, Repr

/-- OP, bits 7:0 (R110, R112). -/
def opField (w : Word) : BitVec 8 := w.extractLsb' 0 8

/-- RND, bits 11:8, zero-extended and not scaled (R110, R113). -/
def rndField (w : Word) : BitVec 4 := w.extractLsb' 8 4

/-- RSV, bits 31:12 (R110). -/
def rsvField (w : Word) : BitVec 20 := w.extractLsb' 12 20

/-- The opcode map (R115). `r` is the operand of the four round-indexed commands. -/
def opcodeMap (op : BitVec 8) (r : BitVec 4) : Option Instr :=
  match op.toNat with
  | 0x00 => some .nop
  | 0x01 => some .hash2
  | 0x02 => some .hash1
  | 0x10 => some (.arcP r)
  | 0x11 => some (.arcQ r)
  | 0x12 => some .subP
  | 0x13 => some .subQ
  | 0x14 => some .shbP
  | 0x15 => some .shbQ
  | 0x16 => some .mixP
  | 0x17 => some .mixQ
  | 0x18 => some (.rndP r)
  | 0x19 => some (.rndQ r)
  | 0x1A => some .permP
  | 0x1B => some .permQ
  | 0x20 => some .init
  | 0x21 => some .loadpq
  | 0x22 => some .fold
  | 0x23 => some .comp
  | 0x24 => some .outld
  | 0x25 => some .outx
  | 0x26 => some .omega
  | 0x27 => some .chain
  | 0x28 => some .trunc
  | _ => none

/-- The decode function, its checks in the order of R117. -/
def decode (w : Word) : Decoded :=
  if rsvField w ≠ 0 then .illegal
  else
    match opcodeMap (opField w) (rndField w) with
    | none => .illegal
    | some i =>
      if i.round?.isSome then
        if roundLegal (rndField w) then .legal i else .badRound
      else if rndField w ≠ 0 then .illegal
      else .legal i

/-- The instruction the decoder reads from a table row's word. A command is one 32-bit write of the
whole word to CMD, bit t of the data being bit t of the word (R111); bits from `nbits` up are 0. -/
def decodeTableWord (nbits w : Nat) : Option Instr :=
  match decode (BitVec.ofNat 32 (w % 2 ^ nbits)) with
  | .legal i => some i
  | .illegal | .badRound => none

/-- The opcode of a command (R115). -/
def opcodeOf : Instr → BitVec 8
  | .nop => 0x00
  | .hash2 => 0x01
  | .hash1 => 0x02
  | .arcP _ => 0x10
  | .arcQ _ => 0x11
  | .subP => 0x12
  | .subQ => 0x13
  | .shbP => 0x14
  | .shbQ => 0x15
  | .mixP => 0x16
  | .mixQ => 0x17
  | .rndP _ => 0x18
  | .rndQ _ => 0x19
  | .permP => 0x1A
  | .permQ => 0x1B
  | .init => 0x20
  | .loadpq => 0x21
  | .fold => 0x22
  | .comp => 0x23
  | .outld => 0x24
  | .outx => 0x25
  | .omega => 0x26
  | .chain => 0x27
  | .trunc => 0x28

/-- The word of a command: RSV zero, RND the round index or zero, OP (R110, R116). -/
def encode (i : Instr) : Word :=
  (0 : BitVec 20) ++ i.round?.getD 0 ++ opcodeOf i

/-- One upper-case hexadecimal digit. -/
def hexDigit (n : Nat) : Char :=
  "0123456789ABCDEF".toList.getD n '?'

/-- Eight hexadecimal digits, most significant first. -/
def hex8 (w : Word) : String :=
  String.ofList ((List.range 8).map fun k => hexDigit (w.toNat / 16 ^ (7 - k) % 16))

/-- A command word as the spec writes it; a word that is not legal is a `.word` (R122). -/
def disassemble (w : Word) : String :=
  match decode w with
  | .legal i => i.text
  | .illegal | .badRound => ".word 0x" ++ hex8 w

end Sys2Proof
end

