-- ==== Sys2Proof/Machine/Flags.lean ====
section
/-! DEFINITION. The bits of CTRL and STATUS (10_state.md R35 to R41): how they read, how a write
changes them, what acceptance and completion set, and the interrupt line. -/

namespace Sys2Proof.Machine

/-- The 4-bit code of STATUS.ERR (60_exceptions.md R291). -/
def ErrCode.code : ErrCode → BitVec 4
  | .none => 0
  | .range => 1
  | .illegal => 2
  | .badRnd => 3
  | .bus => 4

/-- A register word with one bit at place `i`. -/
def bitAt (b : Bool) (i : Nat) : Word := (BitVec.ofBool b).setWidth 32 <<< i

/-- CTRL as it reads: IE in bit 0, the reserved bits 0 (R35, R56). -/
def ctrlWord (s : State) : Word := bitAt s.ie 0

/-- STATUS as it reads: BUSY, DONE, VALID, WBUSY in bits 0 to 3, ERR in bits 11:8, the reserved
bits 0 (R36, R56). -/
def statusWord (s : State) : Word :=
  bitAt s.busy 0 ||| bitAt s.done 1 ||| bitAt s.valid 2 ||| bitAt s.wbusy 3
    ||| (s.err.code.setWidth 32 <<< 8)

/-- A write to CTRL stores bit 0 (R35). -/
def writeCtrl (v : Word) (s : State) : State := { s with ie := v.getLsbD 0 }

/-- A write to STATUS clears DONE by bit 1 and WBUSY by bit 3, and changes nothing else (R36). -/
def writeStatus (v : Word) (s : State) : State :=
  { s with done := s.done && !v.getLsbD 1, wbusy := s.wbusy && !v.getLsbD 3 }

/-- WBUSY records a dropped write (R40). -/
def setWbusy (s : State) : State := { s with wbusy := true }

/-- Acceptance sets BUSY and clears DONE, VALID and ERR; WBUSY stays (R37 to R41, 20_memory.md
R100). -/
def acceptFlags (s : State) : State :=
  { s with busy := true, done := false, valid := false, err := .none }

/-- The common completion: BUSY = 0, DONE = 1, ERR and VALID as given; WBUSY and CTRL stay
(60_exceptions.md R296). -/
def completeFlags (e : ErrCode) (v : Bool) (s : State) : State :=
  { s with busy := false, done := true, valid := v, err := e }

/-- `core.mode`: EXEC iff BUSY = 1 (R57). -/
def mode (s : State) : Mode := if s.busy then .exec else .idle

/-- The interrupt line: CTRL.IE AND STATUS.DONE, and 0 while `rst_n` = 0 (R63, 60_exceptions.md
R310, 70_reset_and_hazards.md R340). -/
def irq (s : State) : Bool := !s.inReset && s.ie && s.done

end Sys2Proof.Machine
end

