-- ==== Sys2Proof/Machine/Ops.lean ====
section
/-! DEFINITION. The named operations: memory, the register map and its accesses, acceptance,
completion, and ending a command with an error. -/

namespace Sys2Proof.Machine

/-! ### Memory space -/

/-- The byte an address holds; `none` where memory holds nothing (20_memory.md R86, log 4). -/
def Memory.read : Memory → Nat → Option Byte
  | [], _ => none
  | (k, b) :: m, a => if a = k then some b else Memory.read m a

/-- Memory after one byte is stored; the addresses stay strictly rising. -/
def Memory.write : Memory → Nat → Byte → Memory
  | [], a, b => [(a, b)]
  | (k, c) :: m, a, b =>
    if a < k then (a, b) :: (k, c) :: m
    else if a = k then (a, b) :: m
    else (k, c) :: Memory.write m a b

/-- The canonical form: addresses strictly rising and inside the 64-bit space (R82). No entry can
equal what an unlisted address reads as, because that is no byte. -/
abbrev Memory.wf (m : Memory) : Prop :=
  m.Pairwise (fun p q => p.1 < q.1) ∧ ∀ c ∈ m, c.1 < 2 ^ 64

/-- A sorted list of addresses with one more address in it. -/
def insertAddr (a : Nat) : List Nat → List Nat
  | [] => [a]
  | k :: l => if a < k then a :: k :: l else if a = k then k :: l else k :: insertAddr a l

/-- A store of some agent becomes visible to the memory port; while a command runs, its address is
in the hazard window from then on (R103, 70_reset_and_hazards.md R349). DESIGN CHOICE: an address that
held no memory holds the stored byte from then on; which addresses hold memory is the platform's
business (R86, R97; log 4). -/
def storeByte (a : BitVec 64) (b : Byte) (s : State) : State :=
  { s with
    mem := Memory.write s.mem a.toNat b
    stored := if s.busy then insertAddr a.toNat s.stored else s.stored }

/-! ### Acceptance and completion -/

/-- HASH1 and HASH2 are the commands that reach memory (20_memory.md R82). -/
def readsMemory : Instr → Bool
  | .hash1 | .hash2 => true
  | .nop | .arcP _ | .arcQ _ | .subP | .subQ | .shbP | .shbQ | .mixP | .mixQ | .rndP _ | .rndQ _
  | .permP | .permQ | .init | .loadpq | .fold | .comp | .outld | .outx | .omega | .chain
  | .trunc => false

/-- The word is a hash command whose range is valid, so that it will read memory (R93, R95). -/
def willRead (w : Word) (s : State) : Bool :=
  match decode w with
  | .legal i => readsMemory i && rangeOk s
  | .illegal | .badRound => false

/-- The acceptance of a command word: CMD, the STATUS bits, and the hidden sequencing state, which
covers the whole range of a hash command with a valid range and nothing otherwise (20_memory.md
R100, 10_state.md R42, R57). -/
def accept (w : Word) (s : State) : State :=
  { acceptFlags s with
    cmd := w
    rdNext := if willRead w s then rangeBase s else 0
    rdLeft := if willRead w s then s.msgLen.toNat else 0
    pending := none
    memRsp := none
    rdData := []
    failed := false
    stored := [] }

/-- The completion step's part common to every command: the STATUS bits, and `core.mode` = IDLE
with no hidden state left (60_exceptions.md R296, 10_state.md R57). -/
def complete (e : ErrCode) (v : Bool) (s : State) : State :=
  { completeFlags e v s with
    rdNext := 0
    rdLeft := 0
    pending := none
    memRsp := none
    rdData := []
    failed := false
    stored := [] }

/-- A failed hash leaves no stale digest: HOUT and DIGEST become zero (60_exceptions.md R299). -/
def zeroResults (s : State) : State := { s with hout := zeros 64, digest := zeros 32 }

/-- HREG, MREG, PST and QST each become any value (60_exceptions.md R299, U3; log 7). -/
def abandonWindows (s : State) : State :=
  { s with
    hreg := Config.abandonedWindow s.draws 0
    mreg := Config.abandonedWindow s.draws 1
    pst := Config.abandonedWindow s.draws 2
    qst := Config.abandonedWindow s.draws 3
    draws := s.draws + 1 }

/-- `raise Error(code)`: the writes R299 gives the code, then the completion with that code (R300).
There is no vector, saved pc or return (R313, R314). -/
def raiseError (e : ErrCode) (s : State) : State :=
  match e with
  | .none | .illegal | .badRnd => complete e false s
  | .range => complete e false (zeroResults s)
  | .bus => complete e false (abandonWindows (zeroResults s))

/-- The completion without error of a command that sets no VALID (R296). -/
def finish (s : State) : Host.Outcome State Fault Refusal := .next (complete .none false s)

/-! ### The register space -/

/-- What a word of the register space is (10_state.md R32). -/
inductive Reg where
  | id
  | version
  | ctrl
  | status
  | cmd
  | srcAddrLo
  | srcAddrHi
  | bufLenLo
  | bufLenHi
  | offsetLo
  | offsetHi
  | lengthLo
  | lengthHi
  | digest (w : Nat)
  | hout (w : Nat)
  | hreg (w : Nat)
  | mreg (w : Nat)
  | pst (w : Nat)
  | qst (w : Nat)
  | reserved
  deriving DecidableEq, Repr

/-- The register map (R32); every offset not in it is reserved (R55). -/
def regAt (off : Nat) : Reg :=
  if off = 0x000 then .id
  else if off = 0x004 then .version
  else if off = 0x008 then .ctrl
  else if off = 0x00C then .status
  else if off = 0x010 then .cmd
  else if off = 0x018 then .srcAddrLo
  else if off = 0x01C then .srcAddrHi
  else if off = 0x020 then .bufLenLo
  else if off = 0x024 then .bufLenHi
  else if off = 0x028 then .offsetLo
  else if off = 0x02C then .offsetHi
  else if off = 0x030 then .lengthLo
  else if off = 0x034 then .lengthHi
  else if 0x040 ≤ off ∧ off < 0x060 then .digest ((off - 0x040) / 4)
  else if 0x080 ≤ off ∧ off < 0x0C0 then .hout ((off - 0x080) / 4)
  else if 0x100 ≤ off ∧ off < 0x180 then .hreg ((off - 0x100) / 4)
  else if 0x180 ≤ off ∧ off < 0x200 then .mreg ((off - 0x180) / 4)
  else if 0x200 ≤ off ∧ off < 0x280 then .pst ((off - 0x200) / 4)
  else if 0x280 ≤ off ∧ off < 0x300 then .qst ((off - 0x280) / 4)
  else .reserved

/-- ID, hardwired (R33). -/
def idWord : Word := 0x47523531

/-- VERSION, hardwired (R34). -/
def versionWord : Word := 0x00010000

/-- One more free value has been drawn (log 8). -/
def countDraw (s : State) : State := { s with draws := s.draws + 1 }

/-- A read of a window word: the word while idle, any value while BUSY = 1 (R59, log 5). -/
def readWindow (v : Word) (s : State) : Word × State :=
  if s.busy then (Config.busyWindowRead s.draws, countDraw s) else (v, s)

/-- A register read: the value and the state after it (R32 to R60). -/
def readReg (r : Reg) (s : State) : Word × State :=
  match r with
  | .id => (idWord, s)
  | .version => (versionWord, s)
  | .ctrl => (ctrlWord s, s)
  | .status => (statusWord s, s)
  | .cmd => (s.cmd, s)
  | .srcAddrLo => (s.srcAddrLo, s)
  | .srcAddrHi => (s.srcAddrHi, s)
  | .bufLenLo => (s.bufLenLo, s)
  | .bufLenHi => (s.bufLenHi, s)
  | .offsetLo => (s.offsetLo, s)
  | .offsetHi => (s.offsetHi, s)
  | .lengthLo => (s.lengthLo, s)
  | .lengthHi => (s.lengthHi, s)
  | .digest w => readWindow (wordAt s.digest w) s
  | .hout w => readWindow (wordAt s.hout w) s
  | .hreg w => readWindow (wordAt s.hreg w) s
  | .mreg w => readWindow (wordAt s.mreg w) s
  | .pst w => readWindow (wordAt s.pst w) s
  | .qst w => readWindow (wordAt s.qst w) s
  | .reserved => (0, s)

/-- A write that BUSY = 1 drops: the state keeps all but WBUSY (R40, R61); `t` is the state after it
while idle. -/
def writeIfIdle (t s : State) : State := if s.busy then setWbusy s else t

/-- A register write (R32 to R42, R55, R56, R61, R62). A write to CMD accepts a command. -/
def writeReg (r : Reg) (v : Word) (s : State) : State :=
  match r with
  | .id | .version | .digest _ | .hout _ | .reserved => s
  | .ctrl => writeCtrl v s
  | .status => writeStatus v s
  | .cmd => writeIfIdle (accept v s) s
  | .srcAddrLo => writeIfIdle { s with srcAddrLo := v } s
  | .srcAddrHi => writeIfIdle { s with srcAddrHi := v } s
  | .bufLenLo => writeIfIdle { s with bufLenLo := v } s
  | .bufLenHi => writeIfIdle { s with bufLenHi := v } s
  | .offsetLo => writeIfIdle { s with offsetLo := v } s
  | .offsetHi => writeIfIdle { s with offsetHi := v } s
  | .lengthLo => writeIfIdle { s with lengthLo := v } s
  | .lengthHi => writeIfIdle { s with lengthHi := v } s
  | .hreg w => writeIfIdle { s with hreg := setWord s.hreg w v } s
  | .mreg w => writeIfIdle { s with mreg := setWord s.mreg w v } s
  | .pst w => writeIfIdle { s with pst := setWord s.pst w v } s
  | .qst w => writeIfIdle { s with qst := setWord s.qst w v } s

/-- The port refuses a misaligned offset, and a write without all byte enables; reads ignore the
byte enables (20_memory.md R83). -/
def portRefuses (q : RegReq) : Bool :=
  decide (q.addr.toNat % 4 ≠ 0) || (q.write && decide (q.be ≠ 0b1111))

/-- One register access: the response and the state after it (20_memory.md R83, R84). -/
def access (q : RegReq) (s : State) : RegRsp × State :=
  if portRefuses q then ({ rdata := 0, err := true }, s)
  else if q.write then
    ({ rdata := 0, err := false }, writeReg (regAt q.addr.toNat) q.wdata s)
  else
    let a := readReg (regAt q.addr.toNat) s
    ({ rdata := a.1, err := false }, a.2)

/-- The access with its response put on the port (20_memory.md R84). -/
def accessPort (q : RegReq) (s : State) : State :=
  { (access q s).2 with regRsp := some (access q s).1 }

/-! ### Reset -/

/-- Every register at its reset value and the running command abandoned, with `rst_n` at a level;
what lies outside the core stays (70_reset_and_hazards.md R340 to R342, log 11). -/
def resetCore (level : Bool) (s : State) : State :=
  { State.reset with
    inReset := !level
    regRsp := s.regRsp
    mem := s.mem
    sideEffects := s.sideEffects
    memAnswers := s.memAnswers
    cut := s.cut
    memEvents := s.memEvents
    draws := s.draws
    host := s.host
    schedule := s.schedule }

/-- The platform drives `rst_n`. A low level resets the core; the rise from low leaves every register
at its reset value; a high level on a released core is no event (R340). -/
def driveReset (level : Bool) (s : State) : State :=
  if level && !s.inReset then s else resetCore level s

end Sys2Proof.Machine
end

