-- ==== Sys2Proof/Machine/Permutation.lean ====
section
/-! DEFINITION. The permutation-core commands (40_permutation_core.md R150 to R161): each reads and
writes one lane register, PST for `.P` and QST for `.Q`, and completes. -/

namespace Sys2Proof.Machine

/-- The P lane's register is written (R150). -/
def setPst (v : Block) (s : State) : State := { s with pst := v }

/-- The Q lane's register is written (R151). -/
def setQst (v : Block) (s : State) : State := { s with qst := v }

/-- A command with a round operand runs for r in 0..13 and ends in BADRND otherwise (R150, R151,
R158, R159). -/
def withRound (r : BitVec 4) (s t : State) : Host.Outcome State Fault Refusal :=
  if roundLegal r then finish t else .next (raiseError .badRnd s)

/-- ARC.P r (R150). -/
def execArcP (r : BitVec 4) (s : State) : Host.Outcome State Fault Refusal :=
  withRound r s (setPst (arcP s.pst r) s)

/-- ARC.Q r (R151). -/
def execArcQ (r : BitVec 4) (s : State) : Host.Outcome State Fault Refusal :=
  withRound r s (setQst (arcQ s.qst r) s)

/-- SUB.P (R152). -/
def execSubP (s : State) : Host.Outcome State Fault Refusal :=
  finish (setPst (subBytes s.pst) s)

/-- SUB.Q (R153). -/
def execSubQ (s : State) : Host.Outcome State Fault Refusal :=
  finish (setQst (subBytes s.qst) s)

/-- SHB.P (R154). -/
def execShbP (s : State) : Host.Outcome State Fault Refusal :=
  finish (setPst (shiftBytes s.pst sigmaP) s)

/-- SHB.Q (R155). -/
def execShbQ (s : State) : Host.Outcome State Fault Refusal :=
  finish (setQst (shiftBytes s.qst sigmaQ) s)

/-- MIX.P (R156). -/
def execMixP (s : State) : Host.Outcome State Fault Refusal :=
  finish (setPst (mixBytes s.pst) s)

/-- MIX.Q (R157). -/
def execMixQ (s : State) : Host.Outcome State Fault Refusal :=
  finish (setQst (mixBytes s.qst) s)

/-- RND.P r (R158). -/
def execRndP (r : BitVec 4) (s : State) : Host.Outcome State Fault Refusal :=
  withRound r s (setPst (roundP s.pst r) s)

/-- RND.Q r (R159). -/
def execRndQ (r : BitVec 4) (s : State) : Host.Outcome State Fault Refusal :=
  withRound r s (setQst (roundQ s.qst r) s)

/-- PERM.P (R160). -/
def execPermP (s : State) : Host.Outcome State Fault Refusal :=
  finish (setPst (permP s.pst) s)

/-- PERM.Q (R161). -/
def execPermQ (s : State) : Host.Outcome State Fault Refusal :=
  finish (setQst (permQ s.qst) s)

end Sys2Proof.Machine
end

