-- ==== Sys2Proof/Machine/Hash.lean ====
section
/-! DEFINITION. The hash functions (41_compression_and_chaining.md R190 to R199): initial value,
compression, output transformation, padding, the single-pass and the double-pass hash. -/

namespace Sys2Proof.Machine

/-- IV512 = zeros(120) || be64(512) (R190). -/
def iv512 : Block := tabulate 128 fun k => if k < 120 then 0 else byteAt (be64 512) (k - 120)

/-- F(h, m) = P(h xor m) xor Q(m) xor h (R191). -/
def compress (h m : Block) : Block := xorBytes (xorBytes (permP (xorBytes h m)) (permQ m)) h

/-- Omega(h) = (P(h) xor h)[64..127] (R192). -/
def outputTransform (h : Block) : Bytes 64 := slice (xorBytes (permP h) h) 64 64

/-- nblocks(L) = (L + 9 + 127) div 128 (R193). -/
def nblocks (len : Nat) : Nat := (len + 9 + 127) / 128

/-- w(L), the zero bytes of fill (R193). -/
def fillBytes (len : Nat) : Nat := 128 * nblocks len - len - 9

/-- pad(msg) = msg || 0x80 || zeros(w(L)) || be64(nblocks(L)) (R193). -/
def pad (msg : List Byte) : List Byte :=
  msg ++ 0x80 :: (List.replicate (fillBytes msg.length) 0 ++ (be64 (nblocks msg.length)).toList)

/-- Byte t of padded block k (R195), by its four cases. -/
def padByte (msg : List Byte) (k t : Nat) : Byte :=
  let p := 128 * k + t
  let n := nblocks msg.length
  if p < msg.length then msg.getD p 0
  else if p = msg.length then 0x80
  else if p < 128 * n - 8 then 0
  else byteAt (be64 n) (p - (128 * n - 8))

/-- LoadBlock(k): padded block k of the message (42_pipeline.md R243). -/
def loadBlock (msg : List Byte) (k : Nat) : Block := tabulate 128 fun t => padByte msg k t

/-- Bytes 128k to 128k + 127 of a byte string (R196). -/
def blockOf (s : List Byte) (k : Nat) : Block := tabulate 128 fun t => s.getD (128 * k + t) 0

/-- Groestl512(msg): IV512, F over every block of pad(msg) in order, Omega (R196). -/
def groestl512 (msg : List Byte) : Bytes 64 :=
  outputTransform
    ((List.range (nblocks msg.length)).foldl (fun h k => compress h (blockOf (pad msg) k)) iv512)

/-- ChainBlock(h0) = h0 || 0x80 || zeros(55) || be64(1) (R197). -/
def chainBlock (h0 : Bytes 64) : Block :=
  tabulate 128 fun k =>
    if k < 64 then byteAt h0 k
    else if k = 64 then 0x80
    else if k < 120 then 0
    else byteAt (be64 1) (k - 120)

/-- Trunc256(h1) = h1[0..31] (R198). -/
def trunc256 (h1 : Bytes 64) : Bytes 32 := slice h1 0 32

/-- DoubleHash(msg) = Trunc256(Groestl512(Groestl512(msg))) (R199). -/
def doubleHash (msg : List Byte) : Bytes 32 := trunc256 (groestl512 (groestl512 msg).toList)

end Sys2Proof.Machine
end

