-- ==== Sys2Proof/Machine/Chaining.lean ====
section
/-! DEFINITION. The chaining-layer commands (41_compression_and_chaining.md R210 to R222). The
effects stand by themselves because HASH1 and HASH2 are written with them (42_pipeline.md R244). -/

namespace Sys2Proof.Machine

/-- HREG <- IV512 (R210). -/
def initEffect (s : State) : State := { s with hreg := iv512 }

/-- PST <- HREG xor MREG, then QST <- MREG (R211). -/
def loadpqEffect (s : State) : State := { s with pst := xorBytes s.hreg s.mreg, qst := s.mreg }

/-- HREG <- HREG xor PST xor QST (R212). -/
def foldEffect (s : State) : State :=
  { s with hreg := xorBytes (xorBytes s.hreg s.pst) s.qst }

/-- PST <- P(h xor MREG), QST <- Q(MREG), HREG <- PST xor QST xor h, for h the old HREG (R213). -/
def compEffect (s : State) : State :=
  let p := permP (xorBytes s.hreg s.mreg)
  let q := permQ s.mreg
  { s with pst := p, qst := q, hreg := xorBytes (xorBytes p q) s.hreg }

/-- PST <- HREG (R214). -/
def outldEffect (s : State) : State := { s with pst := s.hreg }

/-- HOUT[k] <- PST[64 + k] xor HREG[64 + k] (R215). -/
def outxEffect (s : State) : State :=
  { s with hout := tabulate 64 fun k => byteAt s.pst (64 + k) ^^^ byteAt s.hreg (64 + k) }

/-- PST <- P(HREG), then HOUT as OUTX forms it (R216). -/
def omegaEffect (s : State) : State := outxEffect { s with pst := permP s.hreg }

/-- MREG <- ChainBlock(HOUT) (R220). -/
def chainEffect (s : State) : State := { s with mreg := chainBlock s.hout }

/-- DIGEST[k] <- HOUT[k] for k in 0..31 (R222). -/
def truncEffect (s : State) : State := { s with digest := trunc256 s.hout }

/-- INIT (R210). -/
def execInit (s : State) : Host.Outcome State Fault Refusal := finish (initEffect s)

/-- LOADPQ (R211). -/
def execLoadpq (s : State) : Host.Outcome State Fault Refusal := finish (loadpqEffect s)

/-- FOLD (R212). -/
def execFold (s : State) : Host.Outcome State Fault Refusal := finish (foldEffect s)

/-- COMP (R213). -/
def execComp (s : State) : Host.Outcome State Fault Refusal := finish (compEffect s)

/-- OUTLD (R214). -/
def execOutld (s : State) : Host.Outcome State Fault Refusal := finish (outldEffect s)

/-- OUTX (R215). -/
def execOutx (s : State) : Host.Outcome State Fault Refusal := finish (outxEffect s)

/-- OMEGA (R216). -/
def execOmega (s : State) : Host.Outcome State Fault Refusal := finish (omegaEffect s)

/-- CHAIN (R220). -/
def execChain (s : State) : Host.Outcome State Fault Refusal := finish (chainEffect s)

/-- TRUNC (R222). -/
def execTrunc (s : State) : Host.Outcome State Fault Refusal := finish (truncEffect s)

end Sys2Proof.Machine
end

