-- ==== Sys2Proof/Machine/MemoryPort.lean ====
section
/-! DEFINITION. The memory port of HASH1 and HASH2 (20_memory.md R86 to R95, R103): issuing a
request, what a byte reads as, receiving a response. -/

namespace Sys2Proof.Machine

/-- The length of the next request: the implementation's choice `cut`, held between 1 and the
largest allowed: MEM_MAX_REQ and what is left (R93, logs 9, 10). -/
def requestLen (cut left : Nat) : Nat :=
  if cut ≤ 1 then 1 else min cut (min Config.memMaxReq left)

/-- The next request of the running command (R93). -/
def nextRequest (s : State) : MemReq := { addr := s.rdNext, len := requestLen s.cut s.rdLeft }

/-- A request is outstanding and has no response yet (R57, R93). -/
def setRequest (q : MemReq) (s : State) : State := { s with pending := some q, memRsp := none }

/-- A response is on the memory port (R81). -/
def setMemRsp (rsp : MemRsp) (s : State) : State := { s with memRsp := some rsp }

/-- Step (a): issue the next request (R99). A request past the end of the address space does not
exist (R87, log 15). -/
def issueRequest (s : State) : Host.Outcome State Fault Refusal :=
  if s.rdNext + requestLen s.cut s.rdLeft ≤ 2 ^ 64 then
    .next (setRequest (nextRequest s) s)
  else .fault .outsideAddressSpace

/-- The byte a response carries for an address: any byte if some agent stored to it in the hazard
window, else what memory holds, else what the platform's map answers, which may be an error (R103,
U12; logs 4, 6). -/
def readByte (s : State) (a : Nat) : Option Byte :=
  if a ∈ s.stored then some (Config.racyByte s.draws a)
  else
    match Memory.read s.mem a with
    | some b => some b
    | none => Config.unmappedByte a

/-- The bytes at `a`, …, `a + n - 1`, in that order; `none` if one of them answers an error (R92). -/
def readBytes (s : State) : (a n : Nat) → Option (List Byte)
  | _, 0 => some []
  | a, n + 1 =>
    match readByte s a with
    | none => none
    | some b => (readBytes s (a + 1) n).map (b :: ·)

/-- What `MemRead` returns for a request (R92): an error if the memory system chooses one, or if the
platform answers one for a byte of the request (U12), else the bytes. -/
def memAnswer (c : MemChoice) (q : MemReq) (s : State) : MemRsp :=
  match c with
  | .error => .buserr
  | .data =>
    match readBytes s q.addr q.len with
    | none => .buserr
    | some bs => .ok bs

/-- The request is answered: nothing is outstanding, and the event is recorded with its request and
its answer (R92, log 28). -/
def recordRead (q : MemReq) (rsp : MemRsp) (s : State) : State :=
  { s with pending := none, memRsp := none, memEvents := s.memEvents ++ [{ req := q, answer := rsp }] }

/-- A response with data moves the message forward by the request's bytes (R88, R93). -/
def receiveBytes (q : MemReq) (bs : List Byte) (s : State) : State :=
  { recordRead q (.ok bs) s with
    rdNext := s.rdNext + q.len
    rdLeft := s.rdLeft - q.len
    rdData := s.rdData ++ bs }

/-- An error response: the command reads no more, and its next core step is the completion with BUS
(60_exceptions.md R295, log 26). -/
def receiveError (q : MemReq) (s : State) : State := { recordRead q .buserr s with failed := true }

/-- Step (b): receive the response to the outstanding request (R93, R99). -/
def receiveResponse (q : MemReq) (rsp : MemRsp) (s : State) : State :=
  match rsp with
  | .buserr => receiveError q s
  | .ok bs => receiveBytes q bs s

/-- The core's next step of a hash command (42_pipeline.md R246, R247; 20_memory.md R99, R100): the
range check before any request (R298), then one request and one response at a time, and the
completion: with BUS after an error response (60_exceptions.md R295), and when every byte is read the
one at which `effect` writes the registers from the message. While the response is awaited nothing
happens (R354). DESIGN CHOICE: the launch over memory with read side effects that R91 tells a model to
refuse is refused here, at the accepted command's first core step (log 13). -/
def hashCommand (effect : List Byte → State → State) (s : State) :
    Host.Outcome State Fault Refusal :=
  if !rangeOk s then .next (raiseError .range s)
  else if rangeHasSideEffects s then .refused .sideEffectMemory
  else
    match s.pending, s.memRsp with
    | some q, some rsp => .next (receiveResponse q rsp s)
    | some _, none => .next s
    | none, _ =>
      if s.failed then .next (raiseError .bus s)
      else if s.rdLeft = 0 then .next (complete .none true (effect s.rdData s)) else issueRequest s

/-- The memory system's turn: it puts its answer on the port if the request awaits one, and the free
values of the answer count as drawn. In reset the core ignores it (70_reset_and_hazards.md R340); a
response nobody awaits is excluded (R342, U10; log 12). -/
def memoryTurn (c : MemChoice) (s : State) : Host.Outcome State Fault Refusal :=
  if s.inReset then .next s
  else
    match s.pending, s.memRsp with
    | some q, none => .next (countDraw (setMemRsp (memAnswer c q s) s))
    | _, some _ | none, none => .refused .strayResponse

end Sys2Proof.Machine
end

