-- ==== Sys2Proof/Machine/Pipeline.lean ====
section
/-! DEFINITION. The pipeline commands NOP, HASH2 and HASH1 (42_pipeline.md R243 to R247). -/

namespace Sys2Proof.Machine

/-- Absorb `count` padded blocks from block `k` on: MREG <- LoadBlock(k), then the COMP effect
(R244). -/
def absorbBlocks (msg : List Byte) : (count k : Nat) → State → State
  | 0, _, s => s
  | n + 1, k, s => absorbBlocks msg n (k + 1) (compEffect { s with mreg := loadBlock msg k })

/-- PassFromMemory() over the bytes read: INIT, every block, OMEGA (R244). -/
def passFromMemory (msg : List Byte) (s : State) : State :=
  omegaEffect (absorbBlocks msg (nblocks msg.length) 0 (initEffect s))

/-- The register writes of HASH2: pass 1, the chaining multiplexer, pass 2 from a fresh IV512, the
truncation multiplexer (R246). -/
def hash2Effect (msg : List Byte) (s : State) : State :=
  truncEffect (omegaEffect (compEffect (initEffect (chainEffect (passFromMemory msg s)))))

/-- The register writes of HASH1: one pass, and DIGEST zeroed (R247). -/
def hash1Effect (msg : List Byte) (s : State) : State :=
  { passFromMemory msg s with digest := zeros 32 }

/-- NOP (R245). -/
def execNop (s : State) : Host.Outcome State Fault Refusal := finish s

/-- HASH2: the next core step of the double-pass hash (R246). -/
def execHash2 (s : State) : Host.Outcome State Fault Refusal := hashCommand hash2Effect s

/-- HASH1: the next core step of the single-pass hash (R247). -/
def execHash1 (s : State) : Host.Outcome State Fault Refusal := hashCommand hash1Effect s

end Sys2Proof.Machine
end

