-- ==== Sys2Proof/Machine/Dispatch.lean ====
section
/-! DEFINITION. One arm per command: what the core's next step of it does (20_memory.md R99). -/

namespace Sys2Proof.Machine

def exec (i : Instr) (s : State) : Host.Outcome State Fault Refusal :=
  match i with
  | .nop => Sys2Proof.Machine.execNop s
  | .hash2 => Sys2Proof.Machine.execHash2 s
  | .hash1 => Sys2Proof.Machine.execHash1 s
  | .arcP r => Sys2Proof.Machine.execArcP r s
  | .arcQ r => Sys2Proof.Machine.execArcQ r s
  | .subP => Sys2Proof.Machine.execSubP s
  | .subQ => Sys2Proof.Machine.execSubQ s
  | .shbP => Sys2Proof.Machine.execShbP s
  | .shbQ => Sys2Proof.Machine.execShbQ s
  | .mixP => Sys2Proof.Machine.execMixP s
  | .mixQ => Sys2Proof.Machine.execMixQ s
  | .rndP r => Sys2Proof.Machine.execRndP r s
  | .rndQ r => Sys2Proof.Machine.execRndQ r s
  | .permP => Sys2Proof.Machine.execPermP s
  | .permQ => Sys2Proof.Machine.execPermQ s
  | .init => Sys2Proof.Machine.execInit s
  | .loadpq => Sys2Proof.Machine.execLoadpq s
  | .fold => Sys2Proof.Machine.execFold s
  | .comp => Sys2Proof.Machine.execComp s
  | .outld => Sys2Proof.Machine.execOutld s
  | .outx => Sys2Proof.Machine.execOutx s
  | .omega => Sys2Proof.Machine.execOmega s
  | .chain => Sys2Proof.Machine.execChain s
  | .trunc => Sys2Proof.Machine.execTrunc s

end Sys2Proof.Machine
end

