-- ==== Sys2Proof/Machine/HostProgram.lean ====
section
/-! DEFINITION. The host programs of 30_encoding.md R123 and R124: one host step at a time, and the
pseudo-instructions with their expansions (log 19). -/

namespace Sys2Proof.Machine

/-- A full 32-bit register write of the host (R123 WR). -/
def writeRequest (off : BitVec 12) (v : Word) : RegReq :=
  { write := true, addr := off, be := 0b1111, wdata := v }

/-- A 32-bit register read of the host (R123 RD). -/
def readRequest (off : BitVec 12) : RegReq :=
  { write := false, addr := off, be := 0b1111, wdata := 0 }

/-- The host's next step, unless the program has ended (HALT, or no step at its position). -/
def hostOp? (s : State) : Option HostOp :=
  match s.host.prog[s.host.pos]? with
  | some .halt | none => none
  | some op => some op

/-- The host program goes to a position. -/
def hostGoto (pos : Nat) (s : State) : State := { s with host := { s.host with pos := pos } }

/-- A read's data goes to `t`, and is recorded for RDWIN (R123, R124). -/
def hostLatch (v : Word) (s : State) : State :=
  { s with host := { s.host with t := v, reads := s.host.reads ++ [v] } }

/-- `REG_SPACE`: the bytes of register space (00_scope.md R13, 20_memory.md R82). -/
def regSpace : Nat := 4096

/-- The register port's 12-bit address of an offset; `none` where register space has no such byte
(R81, R82). -/
def portAddress? (off : Nat) : Option (BitVec 12) :=
  if off < regSpace then some (BitVec.ofNat 12 off) else none

/-- The step of a host program that makes an access at `off`. DESIGN CHOICE: an offset outside
register space, to which the spec gives no meaning, is a fault (log 29). -/
def atPort (off : Nat) (f : BitVec 12 → State) : Host.Outcome State Fault Refusal :=
  match portAddress? off with
  | some a => .next (f a)
  | none => .fault .outsideRegisterSpace

/-- One host step (R123). DESIGN CHOICE: a program goes on after a refused access, and RD then takes
the refused access's data, 0, into `t`; how a refusal reaches host software is the host's business
(60_exceptions.md R303, log 27). -/
def runHostOp (op : HostOp) (s : State) : Host.Outcome State Fault Refusal :=
  match op with
  | .wr off v =>
    atPort off fun a => hostGoto (s.host.pos + 1) (accessPort (writeRequest a v) s)
  | .rd off =>
    atPort off fun a =>
      hostGoto (s.host.pos + 1)
        (hostLatch (access (readRequest a) s).1.rdata (accessPort (readRequest a) s))
  | .bclr b l => .next (hostGoto (if s.host.t.getLsbD b.val then s.host.pos + 1 else l) s)
  | .bset b l => .next (hostGoto (if s.host.t.getLsbD b.val then l else s.host.pos + 1) s)
  | .halt => .next s

/-- The host program's turn. In reset the register port answers no request, so the host waits
(70_reset_and_hazards.md R340, log 11). -/
def programTurn (s : State) : Host.Outcome State Fault Refusal :=
  if s.inReset then .next s
  else
    match hostOp? s with
    | none => .next s
    | some op => runHostOp op s

/-- A transfer on the register port; none takes place in reset (R340, log 11). -/
def hostTurn (q : RegReq) (s : State) : State := if s.inReset then s else accessPort q s

/-! ### Pseudo-instructions (R124). `here` is the position of the first step of the expansion; the
sums of offsets are exact (00_scope.md R15). -/

/-- `ISSUE m [r]`. -/
def issue (i : Instr) : List HostOp := [.wr 0x010 (encode i)]

/-- `WR64 off, v`. -/
def wr64 (off : Nat) (v : BitVec 64) : List HostOp :=
  [.wr off (v.extractLsb' 0 32), .wr (off + 4) (v.extractLsb' 32 32)]

/-- `WRWIN off, s`, for a byte string whose length is a multiple of 4. -/
def wrwin (off : Nat) (bs : List Byte) : List HostOp :=
  (List.range (bs.length / 4)).map fun w =>
    .wr (off + 4 * w)
      (wordOfBytes (bs.getD (4 * w) 0) (bs.getD (4 * w + 1) 0) (bs.getD (4 * w + 2) 0)
        (bs.getD (4 * w + 3) 0))

/-- `RDWIN off, n`: the reads. -/
def rdwin (off : Nat) (n : Nat) : List HostOp :=
  (List.range (n / 4)).map fun w => .rd (off + 4 * w)

/-- The result string of RDWIN: each word's bytes, bits 7:0 first. -/
def rdwinResult (ws : List Word) : List Byte :=
  ws.flatMap fun w => [byteLane w 0, byteLane w 1, byteLane w 2, byteLane w 3]

/-- `WAIT`: read STATUS until DONE = 1. -/
def wait (here : Nat) : List HostOp := [.rd 0x00C, .bclr 1 here]

/-- `RUN m [r]`. -/
def run (here : Nat) (i : Instr) : List HostOp := issue i ++ wait (here + 1)

/-- The four range registers, both halves each (42_pipeline.md R240 step 1). -/
def wrRange (src buf off len : BitVec 64) : List HostOp :=
  wr64 0x018 src ++ wr64 0x020 buf ++ wr64 0x028 off ++ wr64 0x030 len

/-- The host's hash call, from position 0 (42_pipeline.md R240, 70_reset_and_hazards.md R347 steps 4
to 8): the operands, HASH2, the wait, the check of ERR and VALID, the reads of DIGEST. -/
def hashCall (src buf off len : BitVec 64) : List HostOp :=
  wrRange src buf off len ++ run 8 .hash2
    ++ [.bset 8 24, .bset 9 24, .bset 10 24, .bclr 2 24] ++ rdwin 0x040 32 ++ [.halt, .halt]

/-- What a host call reports from STATUS and DIGEST once DONE = 1: the digest when ERR = 0 and
VALID = 1 (42_pipeline.md R240 step 3, 70_reset_and_hazards.md R351), and none otherwise. -/
def callDigest (s : State) : Option (Bytes 32) :=
  if s.done && s.valid && decide (s.err = .none) then some s.digest else none

/-- Where the host's address map holds a register (00_scope.md R14, log 21). -/
def hostAddress (off : Nat) : Nat := Config.regBase + off

end Sys2Proof.Machine
end

