-- ==== Sys2Proof/Machine/Turns.lean ====
section
/-! DEFINITION. Whose turn it is and what a turn does (20_memory.md R80, R99; log 1). -/

namespace Sys2Proof.Machine

/-- The core's next step: nothing in reset or while idle (R343), else one step of the accepted
command, decoded as R117 gives; a word that is no command completes with its error (R117, R298). -/
def coreStep (s : State) : Host.Outcome State Fault Refusal :=
  if s.inReset || !s.busy then .next s
  else
    match decode s.cmd with
    | .legal i => exec i s
    | .illegal => .next (raiseError .illegal s)
    | .badRound => .next (raiseError .badRnd s)

/-- The request outstanding has no response yet. -/
def awaitsMemory (s : State) : Bool := s.pending.isSome && s.memRsp.isNone

/-- The turn when none is scheduled, a fair order (R353, log 1): the memory system answers what is
outstanding, if it answers at all; else the core runs, unless it waits; else the host program. DESIGN
CHOICE: by default the memory system answers from memory; an error of its own choice, which R92 leaves
it, is a scheduled turn (log 14). -/
def defaultTurn (s : State) : Turn :=
  if awaitsMemory s && s.memAnswers then .memory .data
  else if s.busy && !awaitsMemory s then .core s.cut
  else if (hostOp? s).isSome then .program
  else .core s.cut

/-- The next turn: the oldest scheduled, or the default. -/
def nextTurn (s : State) : Turn :=
  match s.schedule with
  | [] => defaultTurn s
  | t :: _ => t

/-- The state with its next turn taken off the schedule. -/
def popTurn (s : State) : State := { s with schedule := s.schedule.tail }

/-- The size the implementation chooses for its next request (R93, log 9). -/
def setCut (c : Nat) (s : State) : State := { s with cut := c }

/-- One turn. -/
def runTurn (t : Turn) (s : State) : Host.Outcome State Fault Refusal :=
  match t with
  | .core c => coreStep (setCut c s)
  | .memory c => memoryTurn c s
  | .host q => .next (hostTurn q s)
  | .program => programTurn s
  | .store a b => .next (storeByte a b s)
  | .rst level => .next (driveReset level s)

/-- A command word already accepted, with the core's turn next: what a host's CMD write leaves when
the core is idle (R100). It releases `rst_n`, and where turns are scheduled the core's comes before
them; with none scheduled the core's turn is the default one (log 2). -/
def placeCommand (w : Word) (s : State) : State :=
  { accept w s with
    inReset := false
    schedule := if s.schedule.isEmpty then [] else .core s.cut :: s.schedule }

end Sys2Proof.Machine
end

