-- ==== Sys2Proof/Safety.lean ====
section
/-! DEFINITION. The terms the statements use: commands one after another, runs, what a completion
leaves, what stays the same, and the invariant of the machine. -/

namespace Sys2Proof.Machine

/-- Go on from a next state; stop at a fault or a refusal. -/
def andThen (o : Host.Outcome State Fault Refusal)
    (f : State → Host.Outcome State Fault Refusal) : Host.Outcome State Fault Refusal :=
  match o with
  | .next s => f s
  | .fault r => .fault r
  | .refused r => .refused r

/-- Commands one after another, each run to its completion in one step. -/
def runSeq : List Instr → State → Host.Outcome State Fault Refusal
  | [], s => .next s
  | i :: is, s => andThen (exec i s) (runSeq is)

/-- `k` steps of the machine. -/
def steps : Nat → State → Host.Outcome State Fault Refusal
  | 0, s => .next s
  | k + 1, s => andThen (step s) (steps k)

/-- The common completion (60_exceptions.md R296), with no hidden state left (10_state.md R57):
`t` is after it, `s` before. -/
structure Completed (e : ErrCode) (v : Bool) (s t : State) : Prop where
  busy : t.busy = false
  done : t.done = true
  err : t.err = e
  valid : t.valid = v
  wbusy : t.wbusy = s.wbusy
  ie : t.ie = s.ie
  mode : mode t = .idle
  pending : t.pending = none
  memRsp : t.memRsp = none
  rdNext : t.rdNext = 0
  rdLeft : t.rdLeft = 0
  rdData : t.rdData = []
  failed : t.failed = false
  stored : t.stored = []

/-- The STATUS bits and CTRL are unchanged. -/
structure SameFlags (s t : State) : Prop where
  ie : t.ie = s.ie
  busy : t.busy = s.busy
  done : t.done = s.done
  valid : t.valid = s.valid
  wbusy : t.wbusy = s.wbusy
  err : t.err = s.err

/-- CMD and the range registers are unchanged. -/
structure SameOperands (s t : State) : Prop where
  cmd : t.cmd = s.cmd
  srcAddr : t.srcAddr = s.srcAddr
  bufLen : t.bufLen = s.bufLen
  offset : t.offset = s.offset
  msgLen : t.msgLen = s.msgLen

/-- The names of the six windows (10_state.md R48 to R53). -/
inductive Window where
  | digest
  | hout
  | hreg
  | mreg
  | pst
  | qst
  deriving DecidableEq, Repr

/-- Every window but those named is unchanged. -/
def WindowsKept (but : List Window) (s t : State) : Prop :=
  (.digest ∉ but → t.digest = s.digest) ∧ (.hout ∉ but → t.hout = s.hout)
    ∧ (.hreg ∉ but → t.hreg = s.hreg) ∧ (.mreg ∉ but → t.mreg = s.mreg)
    ∧ (.pst ∉ but → t.pst = s.pst) ∧ (.qst ∉ but → t.qst = s.qst)

/-- The hidden sequencing state is unchanged. -/
structure SameSequencing (s t : State) : Prop where
  rdNext : t.rdNext = s.rdNext
  rdLeft : t.rdLeft = s.rdLeft
  pending : t.pending = s.pending
  memRsp : t.memRsp = s.memRsp
  rdData : t.rdData = s.rdData
  failed : t.failed = s.failed
  stored : t.stored = s.stored

/-- What lies outside the core is unchanged, every byte of memory included. The record of the core's
memory events is no part of it. -/
structure SameOutside (s t : State) : Prop where
  inReset : t.inReset = s.inReset
  regRsp : t.regRsp = s.regRsp
  memory : ∀ a, Memory.read t.mem a = Memory.read s.mem a
  sideEffects : t.sideEffects = s.sideEffects
  memAnswers : t.memAnswers = s.memAnswers
  cut : t.cut = s.cut
  host : t.host = s.host
  schedule : t.schedule = s.schedule

/-- The frame of a command: nothing but STATUS, the hidden state and the named windows changes, no
memory event is recorded and no free value is drawn. -/
structure CommandFrame (but : List Window) (s t : State) : Prop where
  windows : WindowsKept but s t
  operands : SameOperands s t
  outside : SameOutside s t
  memEvents : t.memEvents = s.memEvents
  draws : t.draws = s.draws

/-- The command completes in one core step without error and without setting VALID, changes no
window but those named, and leaves `post`. -/
def Runs (i : Instr) (s : State) (but : List Window) (post : State → Prop) : Prop :=
  ∃ t, exec i s = .next t ∧ Completed .none false s t ∧ CommandFrame but s t ∧ post t

/-- The command ends with an error that writes no window (60_exceptions.md R299). -/
def EndsIn (e : ErrCode) (i : Instr) (s : State) : Prop :=
  ∃ t, exec i s = .next t ∧ Completed e false s t ∧ CommandFrame [] s t

/-- Every register is at its reset value, and no command runs (70_reset_and_hazards.md R341). -/
structure AtReset (t : State) : Prop where
  ctrl : ctrlWord t = 0
  status : statusWord t = 0
  cmd : t.cmd = 0
  srcAddr : t.srcAddr = 0
  bufLen : t.bufLen = 0
  offset : t.offset = 0
  msgLen : t.msgLen = 0
  digest : ∀ k, byteAt t.digest k = 0
  hout : ∀ k, byteAt t.hout k = 0
  hreg : ∀ k, byteAt t.hreg k = 0
  mreg : ∀ k, byteAt t.mreg k = 0
  pst : ∀ k, byteAt t.pst k = 0
  qst : ∀ k, byteAt t.qst k = 0
  mode : mode t = .idle
  pending : t.pending = none
  irq : irq t = false

/-- The offset of a host step's register access. -/
def HostOp.offset? : HostOp → Option Nat
  | .wr off _ | .rd off => some off
  | .bclr _ _ | .bset _ _ | .halt => none

/-- Every access of the host program lies in register space (20_memory.md R82; log 29). -/
def HostOffsetsFit (s : State) : Prop :=
  ∀ op ∈ s.host.prog, ∀ off ∈ op.offset?, off < regSpace

/-- A hash command is reading its range: where it stands is what it has read (R57, 20_memory.md
R93); any other command reads nothing. -/
def Progress (s : State) : Prop :=
  if willRead s.cmd s then
    s.rdNext = rangeBase s + s.rdData.length
      ∧ s.rdNext + s.rdLeft = rangeBase s + s.msgLen.toNat
  else s.rdNext = 0 ∧ s.rdLeft = 0 ∧ s.pending = none ∧ s.rdData = [] ∧ s.failed = false

/-- The invariant of the machine. -/
structure Inv (s : State) : Prop where
  /-- memory keeps its canonical form -/
  memory : Memory.wf s.mem
  /-- the hazard window's addresses are strictly rising -/
  stored : s.stored.Pairwise (· < ·)
  /-- DONE = 1 and BUSY = 1 never hold together (R38) -/
  notBoth : ¬(s.busy = true ∧ s.done = true)
  /-- VALID = 1 only after a completion with ERR = 0 (R39, 42_pipeline.md R252) -/
  validResult : s.valid = true → s.busy = false ∧ s.err = .none
  /-- ERR = 0 from acceptance to completion (R41) -/
  runsWithoutError : s.busy = true → s.err = .none
  /-- no hidden state while IDLE (R57) -/
  idle : s.busy = false →
    s.rdNext = 0 ∧ s.rdLeft = 0 ∧ s.pending = none ∧ s.rdData = [] ∧ s.failed = false
      ∧ s.stored = []
  /-- a held reset leaves nothing running, pending or valid, and every register at its reset value
  (the model's: log 11) -/
  held : s.inReset = true → AtReset s
  /-- only an outstanding request has a response, of its length (R87, R93) -/
  response : ∀ rsp, s.memRsp = some rsp →
    ∃ q, s.pending = some q ∧ ∀ bs, rsp = .ok bs → bs.length = q.len
  /-- after an error response no request is outstanding (60_exceptions.md R295) -/
  noMoreRequests : s.failed = true → s.pending = none
  /-- the read position of the running command (R57, R93) -/
  progress : s.busy = true → Progress s
  /-- the outstanding request is the next piece of the range, of 1 to MEM_MAX_REQ bytes (R93, R95) -/
  request : ∀ q, s.pending = some q →
    q.addr = s.rdNext ∧ 1 ≤ q.len ∧ q.len ≤ Config.memMaxReq ∧ q.len ≤ s.rdLeft

end Sys2Proof.Machine
end

