-- ==== Sys2Proof/Certificates/Slice0/Obligations.lean ====
section
/-! DEFINITION. The statements about the machine, for the provers: each formalises rules of spec/
that its docstring names. -/

open Sys2Proof Sys2Proof.Machine

/-! ### Encoding -/

/-- R116: the word of every well-formed command decodes to it, with every round index. -/
def Obligations.DecodeOfEncode : Prop :=
  ∀ i : Instr, i.WellFormed → decode (encode i) = .legal i

/-- R115, R116, R120: a word that decodes to a command is the one word of that command, and there are
76 such words. -/
def Obligations.LegalWordsAreTheEncodings : Prop :=
  (∀ (w : Word) (i : Instr), decode w = .legal i → i.WellFormed ∧ encode i = w) ∧
  ∃ l : List Word, l.Nodup ∧ l.length = 76 ∧ ∀ w : Word, w ∈ l ↔ ∃ i, decode w = .legal i

/-- R118, R119: which words are Illegal and which BadRound. -/
def Obligations.IllegalAndBadRoundWords : Prop :=
  ∀ w : Word,
    (decode w = .illegal ↔
      (w.extractLsb' 12 20 ≠ 0
        ∨ (0x03 ≤ w.toNat % 256 ∧ w.toNat % 256 ≤ 0x0F)
        ∨ (0x1C ≤ w.toNat % 256 ∧ w.toNat % 256 ≤ 0x1F)
        ∨ 0x29 ≤ w.toNat % 256
        ∨ (w.toNat % 256 ∉ [0x10, 0x11, 0x18, 0x19] ∧ w.extractLsb' 8 4 ≠ 0))) ∧
    (decode w = .badRound ↔
      w ∈ ([0x00000E10, 0x00000F10, 0x00000E11, 0x00000F11,
        0x00000E18, 0x00000F18, 0x00000E19, 0x00000F19] : List Word))

/-- R116, R118, R119: words written out from the encoding decode to what they stand for. -/
def Obligations.SampleWordsDecode : Prop :=
  decode 0x00000000 = .legal .nop ∧ decode 0x00000001 = .legal .hash2
    ∧ decode 0x00000D10 = .legal (.arcP 13) ∧ decode 0x00000519 = .legal (.rndQ 5)
    ∧ decode 0x0000001B = .legal .permQ ∧ decode 0x00000021 = .legal .loadpq
    ∧ decode 0x00000028 = .legal .trunc ∧ decode 0x00000E10 = .badRound
    ∧ decode 0x00001010 = .illegal ∧ decode 0x00000E12 = .illegal ∧ decode 0x00000029 = .illegal

/-! ### The step -/

/-- R99, R117: the core's turn runs the command CMD decodes to. Around it the step only takes the
turn off the schedule and notes the size chosen for a request (log 1, log 9). -/
def Obligations.StepRunsDecodedCommand : Prop :=
  ∀ (s : State) (i : Instr) (c : Nat), s.inReset = false → s.busy = true →
    nextTurn s = .core c → decode s.cmd = .legal i → step s = exec i (setCut c (popTurn s))

/-- R117, R292, R293, R299, R301: an accepted word that is no command completes with ILLEGAL or
BADRND; it stays readable in CMD, and the completion changes nothing but STATUS. Around it the step
takes the turn off the schedule and notes the size chosen for a request (the model's: logs 1, 9). -/
def Obligations.RejectedWordsComplete : Prop :=
  ∀ (s : State) (c : Nat), s.inReset = false → s.busy = true → nextTurn s = .core c →
    (decode s.cmd = .illegal → ∃ t, step s = .next t ∧ Completed .illegal false s t
      ∧ t.err.code = 2 ∧ CommandFrame [] (setCut c (popTurn s)) t) ∧
    (decode s.cmd = .badRound → ∃ t, step s = .next t ∧ Completed .badRnd false s t
      ∧ t.err.code = 3 ∧ CommandFrame [] (setCut c (popTurn s)) t)

/-- R31, R343: an idle core does nothing on its turn (logs 1, 9). -/
def Obligations.IdleCoreWaits : Prop :=
  ∀ (s : State) (c : Nat), s.busy = false → nextTurn s = .core c →
    step s = .next (setCut c (popTurn s))

/-- R84, R92, R103, R340: the turns of the other agents. A transfer performs its access and puts the
response on the register port; the memory system answers the request the core awaits, with the bytes
read, or with an error if it chooses so or the platform answers one for a byte (log 4), and an answer
nobody awaits is refused; a store changes its byte of memory and, while a command runs, puts its
address in the hazard window; a reset leaves the registers at their reset values and all else as it was. While
reset is held a transfer and a response do nothing. That each is one turn taken off the schedule is the
model's choice (log 1), as are the window's form (log 6), reset values from the fall of `rst_n` on and
what a held reset stops (log 11), the refusal (log 12), the count of free values drawn (log 8), and
that the last response on the register port and the record of memory events stay (logs 24, 28). -/
def Obligations.TurnsOfOtherAgents : Prop :=
  ∀ s : State,
    (∀ q, nextTurn s = .host q →
      (s.inReset = true → step s = .next (popTurn s)) ∧
      (s.inReset = false →
        step s = .next { (access q (popTurn s)).2 with regRsp := some (access q s).1 })) ∧
    (∀ c, nextTurn s = .memory c →
      (s.inReset = true → step s = .next (popTurn s)) ∧
      (∀ q, s.inReset = false → s.pending = some q → s.memRsp = none →
        (c = .error →
          step s = .next { popTurn s with memRsp := some .buserr, draws := s.draws + 1 }) ∧
        (c = .data → readBytes s q.addr q.len = none →
          step s = .next { popTurn s with memRsp := some .buserr, draws := s.draws + 1 }) ∧
        (∀ bs, c = .data → readBytes s q.addr q.len = some bs →
          step s = .next { popTurn s with memRsp := some (.ok bs), draws := s.draws + 1 })) ∧
      (s.inReset = false → s.pending = none ∨ s.memRsp ≠ none →
        step s = .refused .strayResponse)) ∧
    (∀ a b, nextTurn s = .store a b →
      step s = .next { popTurn s with
        mem := Memory.write s.mem a.toNat b
        stored := if s.busy then insertAddr a.toNat s.stored else s.stored }) ∧
    (∀ level, nextTurn s = .rst level →
      (level = true → s.inReset = false → step s = .next (popTurn s)) ∧
      (level = false ∨ s.inReset = true →
        ∃ t, step s = .next t ∧ AtReset t ∧ t.inReset = !level ∧ t.regRsp = s.regRsp
          ∧ t.memEvents = s.memEvents
          ∧ t.mem = s.mem ∧ t.sideEffects = s.sideEffects ∧ t.memAnswers = s.memAnswers
          ∧ t.cut = s.cut ∧ t.draws = s.draws ∧ t.host = s.host
          ∧ t.schedule = s.schedule.tail))

/-- R123: each step of a host program. WR and RD are full-word accesses at exactly their offset whose
response comes on the register port, RD also putting the data in `t`; past 0xFFF, where register
space has no byte, they fault, the model's choice (log 29); a branch tests a bit of `t`; HALT and the end of the
program do nothing. Labels as positions, a branch as a turn, and the record of the words read are the
model's choice (log 19), as are the refused access (log 27), the held reset (log 11) and the turn
(log 1). -/
def Obligations.HostProgramSteps : Prop :=
  ∀ s : State, nextTurn s = .program →
    (s.inReset = true → step s = .next (popTurn s)) ∧
    (s.inReset = false →
      (∀ (off : BitVec 12) v, s.host.prog[s.host.pos]? = some (.wr off.toNat v) →
        step s = .next { (access (writeRequest off v) (popTurn s)).2 with
          regRsp := some (access (writeRequest off v) s).1
          host := { s.host with pos := s.host.pos + 1 } }) ∧
      (∀ off : BitVec 12, s.host.prog[s.host.pos]? = some (.rd off.toNat) →
        step s = .next { (access (readRequest off) (popTurn s)).2 with
          regRsp := some (access (readRequest off) s).1
          host := { s.host with
            pos := s.host.pos + 1
            t := (access (readRequest off) s).1.rdata
            reads := s.host.reads ++ [(access (readRequest off) s).1.rdata] } }) ∧
      (∀ off, 4096 ≤ off →
        (∃ v, s.host.prog[s.host.pos]? = some (.wr off v))
          ∨ s.host.prog[s.host.pos]? = some (.rd off) →
        step s = .fault .outsideRegisterSpace) ∧
      (∀ b l, s.host.prog[s.host.pos]? = some (.bclr b l) →
        (s.host.t.getLsbD b.val = false →
          step s = .next { popTurn s with host := { s.host with pos := l } }) ∧
        (s.host.t.getLsbD b.val = true →
          step s = .next { popTurn s with host := { s.host with pos := s.host.pos + 1 } })) ∧
      (∀ b l, s.host.prog[s.host.pos]? = some (.bset b l) →
        (s.host.t.getLsbD b.val = true →
          step s = .next { popTurn s with host := { s.host with pos := l } }) ∧
        (s.host.t.getLsbD b.val = false →
          step s = .next { popTurn s with host := { s.host with pos := s.host.pos + 1 } })) ∧
      (s.host.prog[s.host.pos]? = some .halt ∨ s.host.prog[s.host.pos]? = none →
        step s = .next (popTurn s)))

/-! ### The permutation core -/

/-- R140: the S-box is inversion in GF(2^8) followed by the affine map. -/
def Obligations.SboxIsInverseThenAffine : Prop :=
  ∀ x : Byte, ∃ b : Byte, (x = 0 → b = 0) ∧ (x ≠ 0 → gmul x b = 1) ∧
    sbox x = b ^^^ b.rotateLeft 1 ^^^ b.rotateLeft 2 ^^^ b.rotateLeft 3 ^^^ b.rotateLeft 4 ^^^ 0x63

/-- R148: AddRoundConstant undoes itself, the S-box is a permutation, MixBytes is linear. -/
def Obligations.RoundStepLaws : Prop :=
  (∀ (S : Block) (r : BitVec 4), arcP (arcP S r) r = S ∧ arcQ (arcQ S r) r = S)
    ∧ Function.Bijective sbox
    ∧ ∀ S T : Block, mixBytes (xorBytes S T) = xorBytes (mixBytes S) (mixBytes T)

/-- R148: every round step, every round, P and Q are bijections on states. -/
def Obligations.PermutationsAreBijective : Prop :=
  Function.Bijective subBytes ∧ Function.Bijective mixBytes
    ∧ Function.Bijective (fun S => shiftBytes S sigmaP)
    ∧ Function.Bijective (fun S => shiftBytes S sigmaQ)
    ∧ (∀ r : BitVec 4, Function.Bijective (fun S => arcP S r)
      ∧ Function.Bijective (fun S => arcQ S r)
      ∧ Function.Bijective (fun S => roundP S r) ∧ Function.Bijective (fun S => roundQ S r))
    ∧ Function.Bijective permP ∧ Function.Bijective permQ

/-- R142, R143, R150, R151, R162: ARC.P and ARC.Q with a legal round index. Row i, column j is byte
8j + i. -/
def Obligations.ArcCommands : Prop :=
  ∀ (s : State) (r : BitVec 4), r.toNat ≤ 13 →
    Runs (.arcP r) s [.pst] (fun t => ∀ j < 16,
      byteAt t.pst (8 * j) = byteAt s.pst (8 * j) ^^^ BitVec.ofNat 8 (16 * j + r.toNat)
        ∧ ∀ i, 1 ≤ i → i < 8 → byteAt t.pst (8 * j + i) = byteAt s.pst (8 * j + i)) ∧
    Runs (.arcQ r) s [.qst] (fun t => ∀ j < 16,
      byteAt t.qst (8 * j + 7)
          = byteAt s.qst (8 * j + 7) ^^^ (0xFF ^^^ BitVec.ofNat 8 (16 * j + r.toNat))
        ∧ ∀ i < 7, byteAt t.qst (8 * j + i) = byteAt s.qst (8 * j + i) ^^^ 0xFF)

/-- R150, R151, R158, R159: a round-indexed command with RND = 14 or 15 ends in BADRND and
changes nothing but STATUS. No word decodes to such a command (log 20). -/
def Obligations.BadRoundIndexEndsInBadRnd : Prop :=
  ∀ (s : State) (r : BitVec 4), 13 < r.toNat →
    EndsIn .badRnd (.arcP r) s ∧ EndsIn .badRnd (.arcQ r) s ∧ EndsIn .badRnd (.rndP r) s
      ∧ EndsIn .badRnd (.rndQ r) s

/-- R141, R152, R153, R162: SUB.P and SUB.Q. -/
def Obligations.SubCommands : Prop :=
  ∀ s : State,
    Runs .subP s [.pst] (fun t => ∀ k < 128, byteAt t.pst k = sbox (byteAt s.pst k)) ∧
    Runs .subQ s [.qst] (fun t => ∀ k < 128, byteAt t.qst k = sbox (byteAt s.qst k))

/-- R144, R154, R155, R162: SHB.P and SHB.Q rotate row i left by its entry of sigma. -/
def Obligations.ShbCommands : Prop :=
  ∀ s : State,
    Runs .shbP s [.pst] (fun t => ∀ i < 8, ∀ j < 16, byteAt t.pst (8 * j + i)
      = byteAt s.pst (8 * ((j + [0, 1, 2, 3, 4, 5, 6, 11].getD i 0) % 16) + i)) ∧
    Runs .shbQ s [.qst] (fun t => ∀ i < 8, ∀ j < 16, byteAt t.qst (8 * j + i)
      = byteAt s.qst (8 * ((j + [1, 3, 5, 11, 0, 2, 4, 6].getD i 0) % 16) + i))

/-- R145, R156, R157, R162: MIX.P and MIX.Q multiply each column by the circulant matrix; the rows of
`c` from row i on, cyclically, meet the coefficients 02 02 03 04 05 03 05 07. -/
def Obligations.MixCommands : Prop :=
  ∀ s : State,
    Runs .mixP s [.pst] (fun t => ∀ i < 8, ∀ j < 16,
      let a := fun d => byteAt s.pst (8 * j + (i + d) % 8)
      byteAt t.pst (8 * j + i) = gmul 0x02 (a 0) ^^^ gmul 0x02 (a 1) ^^^ gmul 0x03 (a 2)
        ^^^ gmul 0x04 (a 3) ^^^ gmul 0x05 (a 4) ^^^ gmul 0x03 (a 5) ^^^ gmul 0x05 (a 6)
        ^^^ gmul 0x07 (a 7)) ∧
    Runs .mixQ s [.qst] (fun t => ∀ i < 8, ∀ j < 16,
      let a := fun d => byteAt s.qst (8 * j + (i + d) % 8)
      byteAt t.qst (8 * j + i) = gmul 0x02 (a 0) ^^^ gmul 0x02 (a 1) ^^^ gmul 0x03 (a 2)
        ^^^ gmul 0x04 (a 3) ^^^ gmul 0x05 (a 4) ^^^ gmul 0x03 (a 5) ^^^ gmul 0x05 (a 6)
        ^^^ gmul 0x07 (a 7))

/-- R146, R158, R159, R162: RND.P and RND.Q with a legal round index apply one round. -/
def Obligations.RndCommands : Prop :=
  ∀ (s : State) (r : BitVec 4), r.toNat ≤ 13 →
    Runs (.rndP r) s [.pst]
      (fun t => t.pst = mixBytes (shiftBytes (subBytes (arcP s.pst r)) sigmaP)) ∧
    Runs (.rndQ r) s [.qst]
      (fun t => t.qst = mixBytes (shiftBytes (subBytes (arcQ s.qst r)) sigmaQ))

/-- R147, R160, R161, R162: PERM.P and PERM.Q apply rounds 0 to 13. -/
def Obligations.PermCommands : Prop :=
  ∀ s : State,
    Runs .permP s [.pst] (fun t => t.pst = roundP (roundP (roundP (roundP (roundP (roundP (roundP
      (roundP (roundP (roundP (roundP (roundP (roundP (roundP s.pst 0) 1) 2) 3) 4) 5) 6) 7) 8) 9)
      10) 11) 12) 13) ∧
    Runs .permQ s [.qst] (fun t => t.qst = roundQ (roundQ (roundQ (roundQ (roundQ (roundQ (roundQ
      (roundQ (roundQ (roundQ (roundQ (roundQ (roundQ (roundQ s.qst 0) 1) 2) 3) 4) 5) 6) 7) 8) 9)
      10) 11) 12) 13)

/-- R158 to R161: RND is ARC, SUB, SHB, MIX issued in that order; PERM is RND 0 to RND 13. -/
def Obligations.RoundsAndPermutationsAreTheirSteps : Prop :=
  ∀ s : State,
    (∀ r : BitVec 4, r.toNat ≤ 13 →
      runSeq [.arcP r, .subP, .shbP, .mixP] s = exec (.rndP r) s ∧
      runSeq [.arcQ r, .subQ, .shbQ, .mixQ] s = exec (.rndQ r) s) ∧
    runSeq ((List.range 14).map fun r => .rndP (BitVec.ofNat 4 r)) s = exec .permP s ∧
    runSeq ((List.range 14).map fun r => .rndQ (BitVec.ofNat 4 r)) s = exec .permQ s

/-! ### Compression and chaining -/

/-- R190, R210, R211, R214: INIT, LOADPQ and OUTLD load their registers. -/
def Obligations.LoadCommands : Prop :=
  ∀ s : State,
    Runs .init s [.hreg] (fun t => ∀ k < 128, byteAt t.hreg k = if k = 126 then 0x02 else 0) ∧
    Runs .loadpq s [.pst, .qst] (fun t => t.qst = s.mreg
      ∧ ∀ k < 128, byteAt t.pst k = byteAt s.hreg k ^^^ byteAt s.mreg k) ∧
    Runs .outld s [.pst] (fun t => t.pst = s.hreg)

/-- R212: FOLD. -/
def Obligations.FoldCommand : Prop :=
  ∀ s : State, Runs .fold s [.hreg] (fun t => ∀ k < 128,
    byteAt t.hreg k = byteAt s.hreg k ^^^ byteAt s.pst k ^^^ byteAt s.qst k)

/-- R191, R213: COMP leaves F(HREG, MREG) in HREG, P(h xor m) in PST and Q(m) in QST. -/
def Obligations.CompCommand : Prop :=
  ∀ s : State, Runs .comp s [.hreg, .pst, .qst] (fun t =>
    t.pst = permP (xorBytes s.hreg s.mreg) ∧ t.qst = permQ s.mreg
      ∧ t.hreg = compress s.hreg s.mreg)

/-- R192, R215, R216: OUTX forms HOUT from PST and HREG; OMEGA is the output transformation. -/
def Obligations.OutputCommands : Prop :=
  ∀ s : State,
    Runs .outx s [.hout] (fun t => ∀ k < 64,
      byteAt t.hout k = byteAt s.pst (64 + k) ^^^ byteAt s.hreg (64 + k)) ∧
    Runs .omega s [.pst, .hout] (fun t => t.pst = permP s.hreg
      ∧ t.hout = outputTransform s.hreg
      ∧ ∀ k < 64, byteAt t.hout k = byteAt t.pst (64 + k) ^^^ byteAt s.hreg (64 + k))

/-- R213, R216: COMP is LOADPQ, PERM.P, PERM.Q, FOLD, the two PERMs in either order; OMEGA is OUTLD,
PERM.P, OUTX. -/
def Obligations.CompAndOmegaAreTheirSteps : Prop :=
  ∀ s : State,
    runSeq [.loadpq, .permP, .permQ, .fold] s = exec .comp s ∧
    runSeq [.loadpq, .permQ, .permP, .fold] s = exec .comp s ∧
    runSeq [.outld, .permP, .outx] s = exec .omega s

/-- R197, R198, R220, R222: CHAIN forms the second pass's block from HOUT; TRUNC keeps HOUT's first
32 bytes. -/
def Obligations.ChainAndTruncCommands : Prop :=
  ∀ s : State,
    Runs .chain s [.mreg] (fun t => (∀ k < 64, byteAt t.mreg k = byteAt s.hout k)
      ∧ byteAt t.mreg 64 = 0x80 ∧ (∀ k, 65 ≤ k → k ≤ 126 → byteAt t.mreg k = 0)
      ∧ byteAt t.mreg 127 = 0x01) ∧
    Runs .trunc s [.digest] (fun t => ∀ k < 32, byteAt t.digest k = byteAt s.hout k)

/-- R245: NOP does nothing but complete; VALID stays 0. -/
def Obligations.NopCommand : Prop :=
  ∀ s : State, Runs .nop s [] (fun _ => True)

/-- R193, R195: the padded message is whole blocks, and PadByte is its bytes. -/
def Obligations.PadByteAgreesWithPad : Prop :=
  ∀ msg : List Byte, (pad msg).length = 128 * nblocks msg.length
    ∧ ∀ k < nblocks msg.length, ∀ t < 128, (pad msg)[128 * k + t]? = some (padByte msg k t)

/-- R194: the block counts. -/
def Obligations.BlockCounts : Prop :=
  (∀ L, L ≤ 119 → nblocks L = 1) ∧ (∀ L, 120 ≤ L → L ≤ 247 → nblocks L = 2)
    ∧ (∀ n L, 1 ≤ n → 128 * n ≤ L + 136 → L + 9 ≤ 128 * n → nblocks L = n)
    ∧ (∀ L, L < 2 ^ 64 → nblocks L ≤ 2 ^ 57 + 1 ∧ nblocks L < 2 ^ 64)
    ∧ (∀ s : State, rangeOk s = true → s.msgLen.toNat < 2 ^ 63)
    ∧ nblocks 64 = 1 ∧ fillBytes 64 = 55

/-- R197: the chaining block is the padding of the 64-byte message, which is one block. -/
def Obligations.ChainBlockIsPadding : Prop :=
  ∀ h : Bytes 64, (chainBlock h).toList = pad h.toList
    ∧ pad h.toList = h.toList ++ [0x80] ++ List.replicate 55 0 ++ [0, 0, 0, 0, 0, 0, 0, 1]

/-! ### The hash commands -/

/-- R43 to R47, R241: the range check, on the exact values of the 64-bit registers. -/
def Obligations.RangeCheckIsExact : Prop :=
  ∀ s : State,
    let src := s.srcAddrHi.toNat * 2 ^ 32 + s.srcAddrLo.toNat
    let buf := s.bufLenHi.toNat * 2 ^ 32 + s.bufLenLo.toNat
    let off := s.offsetHi.toNat * 2 ^ 32 + s.offsetLo.toNat
    let len := s.lengthHi.toNat * 2 ^ 32 + s.lengthLo.toNat
    rangeOk s = true ↔
      off < 2 ^ 63 ∧ len < 2 ^ 63 ∧ off + len ≤ buf ∧ src + off + len ≤ 2 ^ 64

/-- R294, R298, R299: an invalid range ends HASH1 and HASH2 with RANGE, HOUT and DIGEST zero,
nothing else changed, and no request issued. -/
def Obligations.InvalidRangeEndsInRange : Prop :=
  ∀ (s : State) (i : Instr), i = .hash1 ∨ i = .hash2 → rangeOk s = false →
    ∃ t, exec i s = .next t ∧ Completed .range false s t ∧ t.err.code = 1
      ∧ CommandFrame [.hout, .digest] s t
      ∧ (∀ k, byteAt t.hout k = 0) ∧ ∀ k, byteAt t.digest k = 0

/-- R93, R95: with bytes left to read and none outstanding, HASH1 and HASH2 issue one request: the
next piece of the range, of 1 to MEM_MAX_REQ bytes, none past the range (logs 9, 10). Nothing else
changes. -/
def Obligations.HashIssuesNextPiece : Prop :=
  ∀ (s : State) (i : Instr), i = .hash1 ∨ i = .hash2 → rangeOk s = true →
    rangeHasSideEffects s = false → s.pending = none → s.failed = false → s.rdLeft ≠ 0 →
    s.rdNext + s.rdLeft ≤ 2 ^ 64 →
    ∃ t q, exec i s = .next t ∧ t.pending = some q ∧ t.memRsp = none
      ∧ q.addr = s.rdNext ∧ 1 ≤ q.len ∧ q.len ≤ Config.memMaxReq ∧ q.len ≤ s.rdLeft
      ∧ SameFlags s t ∧ CommandFrame [] s t
      ∧ t.rdNext = s.rdNext ∧ t.rdLeft = s.rdLeft ∧ t.rdData = s.rdData ∧ t.failed = false
      ∧ t.stored = s.stored

/-- R354: while the response is awaited the core does nothing; and where the memory system never
answers and no other turn comes, with no host program, the machine is stuck (the model's form of it:
logs 1, 14). -/
def Obligations.HashWaitsForResponse : Prop :=
  ∀ (s : State) (q : MemReq) (i : Instr), i = .hash1 ∨ i = .hash2 → rangeOk s = true →
    rangeHasSideEffects s = false → s.pending = some q → s.memRsp = none →
    exec i s = .next s ∧
    (s.inReset = false → s.busy = true → decode s.cmd = .legal i → s.memAnswers = false →
      s.schedule = [] → hostOp? s = none → step s = .next s)

/-- R88, R92, R93: a response with bytes is received in a step of its own: exactly they are appended
to the message, the read position moves by the request, and the event is recorded with its request and
its answer (the record is the model's: log 28). The bytes of an answer are those at the consecutive
addresses of its request. -/
def Obligations.HashReceivesBytes : Prop :=
  (∀ (s : State) (q : MemReq) (bs : List Byte) (i : Instr), i = .hash1 ∨ i = .hash2 →
    rangeOk s = true → rangeHasSideEffects s = false → s.pending = some q →
    s.memRsp = some (.ok bs) →
    ∃ t, exec i s = .next t ∧ t.rdData = s.rdData ++ bs ∧ t.rdNext = s.rdNext + q.len
      ∧ t.rdLeft = s.rdLeft - q.len ∧ t.pending = none ∧ t.memRsp = none ∧ t.failed = s.failed
      ∧ t.memEvents = s.memEvents ++ [{ req := q, answer := .ok bs }]
      ∧ t.stored = s.stored ∧ t.draws = s.draws
      ∧ SameFlags s t ∧ WindowsKept [] s t ∧ SameOperands s t ∧ SameOutside s t) ∧
  ∀ (s : State) (a n : Nat) (bs : List Byte),
    readBytes s a n = some bs ↔
      bs.length = n ∧ ∀ k < n, readByte s (a + k) = some (bs.getD k 0)

/-- R103: a byte stored to in the hazard window reads as a free value; a byte not stored to reads as
what memory holds, and where it holds none the platform answers (log 4). The list of such addresses is
the model's own (log 6). -/
def Obligations.RacedBytesAreFree : Prop :=
  ∀ (s : State) (a : Nat),
    (a ∈ s.stored → readByte s a = some (Config.racyByte s.draws a)) ∧
    (∀ b, a ∉ s.stored → Memory.read s.mem a = some b → readByte s a = some b) ∧
    (a ∉ s.stored → Memory.read s.mem a = none → readByte s a = Config.unmappedByte a) ∧
    (∀ (x : BitVec 64) (b : Byte), s.busy = true → x.toNat ∈ (storeByte x b s).stored) ∧
    (∀ (x : BitVec 64) (b : Byte),
      Memory.read (storeByte x b s).mem x.toNat = some b ∧
      ∀ y, y ≠ x.toNat → Memory.read (storeByte x b s).mem y = Memory.read s.mem y)

/-- R92, R99, R102, R295, R299: an error response is received in a core step of its own, which records
the event (log 28) and leaves no request outstanding (the field `failed` is the model's: log 26). The
next core step completes HASH1 and HASH2 with BUS; HOUT and DIGEST are zero, HREG, MREG, PST and QST
are free values (the model's: log 7), and nothing else changes. -/
def Obligations.BusErrorEndsInBus : Prop :=
  ∀ (s : State) (i : Instr), i = .hash1 ∨ i = .hash2 → rangeOk s = true →
    rangeHasSideEffects s = false →
    (∀ q, s.pending = some q → s.memRsp = some .buserr →
      ∃ t, exec i s = .next t ∧ t.failed = true ∧ t.pending = none ∧ t.memRsp = none
        ∧ t.memEvents = s.memEvents ++ [{ req := q, answer := .buserr }]
        ∧ t.rdNext = s.rdNext ∧ t.rdLeft = s.rdLeft ∧ t.rdData = s.rdData ∧ t.stored = s.stored
        ∧ t.draws = s.draws
        ∧ SameFlags s t ∧ WindowsKept [] s t ∧ SameOperands s t ∧ SameOutside s t) ∧
    (s.pending = none → s.failed = true →
      ∃ t, exec i s = .next t ∧ Completed .bus false s t ∧ t.err.code = 4
        ∧ SameOperands s t ∧ SameOutside s t ∧ t.memEvents = s.memEvents
        ∧ (∀ k, byteAt t.hout k = 0) ∧ (∀ k, byteAt t.digest k = 0)
        ∧ t.hreg = Config.abandonedWindow s.draws 0 ∧ t.mreg = Config.abandonedWindow s.draws 1
        ∧ t.pst = Config.abandonedWindow s.draws 2 ∧ t.qst = Config.abandonedWindow s.draws 3)

/-- R199, R246: HASH2 with every byte of its range read completes with the double hash, and leaves
the end state R246 lists. -/
def Obligations.Hash2CompletesWithDoubleHash : Prop :=
  ∀ s : State, rangeOk s = true → rangeHasSideEffects s = false → s.pending = none →
    s.failed = false → s.rdLeft = 0 →
    ∃ t, exec .hash2 s = .next t ∧ Completed .none true s t ∧ SameOperands s t ∧ SameOutside s t
      ∧ t.draws = s.draws ∧ t.memEvents = s.memEvents
      ∧ t.hout = groestl512 (groestl512 s.rdData).toList
      ∧ t.digest = doubleHash s.rdData
      ∧ t.mreg = chainBlock (groestl512 s.rdData)
      ∧ t.hreg = compress iv512 (chainBlock (groestl512 s.rdData))
      ∧ t.pst = permP t.hreg
      ∧ t.qst = permQ (chainBlock (groestl512 s.rdData))

/-- R196, R247: HASH1 with every byte of its range read completes with the single-pass hash, DIGEST
zero, and leaves the end state R247 lists. -/
def Obligations.Hash1CompletesWithSinglePass : Prop :=
  ∀ s : State, rangeOk s = true → rangeHasSideEffects s = false → s.pending = none →
    s.failed = false → s.rdLeft = 0 →
    ∃ t, exec .hash1 s = .next t ∧ Completed .none true s t ∧ SameOperands s t ∧ SameOutside s t
      ∧ t.draws = s.draws ∧ t.memEvents = s.memEvents
      ∧ t.hout = groestl512 s.rdData
      ∧ (∀ k, byteAt t.digest k = 0)
      ∧ t.mreg = blockOf (pad s.rdData) (nblocks s.rdData.length - 1)
      ∧ t.hreg = (List.range (nblocks s.rdData.length)).foldl
          (fun h k => compress h (blockOf (pad s.rdData) k)) iv512
      ∧ t.pst = permP t.hreg
      ∧ t.qst = permQ t.mreg

/-- R91: a valid range over memory with read side effects is refused (the model's form: log 13). -/
def Obligations.SideEffectMemoryIsRefused : Prop :=
  ∀ (s : State) (g : Region) (a : Nat) (i : Instr), i = .hash1 ∨ i = .hash2 → rangeOk s = true →
    g ∈ s.sideEffects → g.base ≤ a → a < g.base + g.size →
    rangeBase s ≤ a → a < rangeBase s + s.msgLen.toNat →
    exec i s = .refused .sideEffectMemory

/-- R240, R246, R248, R353: an accepted HASH2 over memory that holds the message, with a memory
system that answers and nobody else taking a turn, completes after at most three steps a byte and
one more, whatever the windows held and however requests are cut; DIGEST is the double hash. The
turns are the model's default (logs 1, 14). -/
def Obligations.Hash2RunsToItsDigest : Prop :=
  ∀ (s : State) (msg : List Byte), s.inReset = false → s.busy = false → s.schedule = [] →
    s.memAnswers = true → rangeOk s = true → rangeHasSideEffects s = false →
    msg.length = s.msgLen.toNat →
    (∀ p < msg.length, Memory.read s.mem (rangeBase s + p) = some (msg.getD p 0)) →
    ∃ k t, k ≤ 3 * msg.length + 1 ∧ steps k (accept (encode .hash2) s) = .next t
      ∧ Completed .none true s t ∧ t.digest = doubleHash msg
      ∧ t.hout = groestl512 (groestl512 msg).toList
      ∧ ∀ a, Memory.read t.mem a = Memory.read s.mem a

/-- R240, R247, R248, R353: the same for HASH1, whose HOUT is the single-pass hash and whose DIGEST
is zero (default turns, logs 1, 14). -/
def Obligations.Hash1RunsToItsHash : Prop :=
  ∀ (s : State) (msg : List Byte), s.inReset = false → s.busy = false → s.schedule = [] →
    s.memAnswers = true → rangeOk s = true → rangeHasSideEffects s = false →
    msg.length = s.msgLen.toNat →
    (∀ p < msg.length, Memory.read s.mem (rangeBase s + p) = some (msg.getD p 0)) →
    ∃ k t, k ≤ 3 * msg.length + 1 ∧ steps k (accept (encode .hash1) s) = .next t
      ∧ Completed .none true s t ∧ t.hout = groestl512 msg ∧ (∀ j, byteAt t.digest j = 0)
      ∧ ∀ a, Memory.read t.mem a = Memory.read s.mem a

/-- R250: a hash over a sub-range of a buffer gives the digest of a hash over a copy of it, both run
under the model's default turns (logs 1, 14). -/
def Obligations.SubrangeHashEqualsCopy : Prop :=
  ∀ (s c : State) (msg : List Byte),
    s.inReset = false → s.busy = false → s.schedule = [] → s.memAnswers = true →
    rangeOk s = true → rangeHasSideEffects s = false →
    c.inReset = false → c.busy = false → c.schedule = [] → c.memAnswers = true →
    rangeOk c = true → rangeHasSideEffects c = false →
    msg.length = s.msgLen.toNat → c.msgLen = s.msgLen → c.offset = 0 → c.bufLen = c.msgLen →
    (∀ p < msg.length, Memory.read s.mem (rangeBase s + p) = some (msg.getD p 0)) →
    (∀ p < msg.length, Memory.read c.mem (c.srcAddr.toNat + p) = some (msg.getD p 0)) →
    ∃ k l t u, steps k (accept (encode .hash2) s) = .next t
      ∧ steps l (accept (encode .hash2) c) = .next u
      ∧ t.done = true ∧ u.done = true ∧ t.valid = true ∧ u.valid = true ∧ t.digest = u.digest

/-- R252: the step in which a hash command completes leaves VALID = 1 and ERR = 0, or VALID = 0,
ERR not 0 and HOUT and DIGEST all zero. -/
def Obligations.NoPartialHashResult : Prop :=
  ∀ (s t : State) (i : Instr), i = .hash1 ∨ i = .hash2 → s.done = false → exec i s = .next t →
    t.done = true →
    (t.err = .none ∧ t.valid = true) ∨
    (t.err ≠ .none ∧ t.valid = false ∧ (∀ k, byteAt t.hout k = 0) ∧ ∀ k, byteAt t.digest k = 0)

/-! ### The whole machine -/

/-- R38, R39, R41, R57, R87, R93, R95, R295: every step keeps the invariant (the hazard window and what
hidden state holds while idle are the model's form: logs 6, 16; that a held reset already has every
register at its reset value is the model's choice: log 11; `failed` is the model's: log 26). -/
def Obligations.InvariantIsKept : Prop :=
  ∀ s t : State, Inv s → step s = .next t → Inv t

/-- R341: the invariant holds at reset. -/
def Obligations.InvariantAtReset : Prop := Inv State.reset

/-- R87, R95: from a state that meets the invariant no request reaches past the end of the address
space, and no step faults at all where the host program's accesses lie in register space (the faults
are the model's: logs 15, 29); that they do is an invariant too, which holds at reset. -/
def Obligations.InvariantExcludesFaults : Prop :=
  (∀ s : State, Inv s → step s ≠ .fault .outsideAddressSpace
    ∧ (HostOffsetsFit s → ∀ r, step s ≠ .fault r))
  ∧ (∀ s t : State, HostOffsetsFit s → step s = .next t → HostOffsetsFit t)
  ∧ HostOffsetsFit State.reset

/-- R96: no command writes memory; only another agent's store does, and only at its address. -/
def Obligations.CoreNeverWritesMemory : Prop :=
  (∀ (i : Instr) (s t : State), exec i s = .next t →
    ∀ a, Memory.read t.mem a = Memory.read s.mem a) ∧
  ∀ s t : State, step s = .next t → ∀ a, Memory.read t.mem a ≠ Memory.read s.mem a →
    ∃ (x : BitVec 64) (b : Byte), nextTurn s = .store x b ∧ a = x.toNat

/-- R115 (what a command writes), R296, R347: no command changes CMD, the range registers, CTRL or
WBUSY. -/
def Obligations.CommandsKeepRangeAndControl : Prop :=
  ∀ (i : Instr) (s t : State), exec i s = .next t →
    SameOperands s t ∧ t.ie = s.ie ∧ t.wbusy = s.wbusy

/-- R39: a step that sets VALID is the completion of HASH1 or HASH2 with ERR = 0. -/
def Obligations.OnlyHashSetsValid : Prop :=
  ∀ s t : State, step s = .next t → s.valid = false → t.valid = true →
    s.busy = true ∧ t.busy = false ∧ t.done = true ∧ t.err = .none
      ∧ (decode s.cmd = .legal .hash1 ∨ decode s.cmd = .legal .hash2)

/-! ### The register port, the interrupt line and reset -/

/-- R33, R34, R60, R55: ID, VERSION, CTRL, STATUS, CMD, the range registers and a reserved offset
read exactly, busy or not, and the read changes nothing. -/
def Obligations.ControlReadsAreExact : Prop :=
  ∀ s : State,
    (∀ p ∈ ([(0x000, 0x47523531), (0x004, 0x00010000), (0x008, ctrlWord s),
        (0x00C, statusWord s), (0x010, s.cmd), (0x018, s.srcAddrLo), (0x01C, s.srcAddrHi),
        (0x020, s.bufLenLo), (0x024, s.bufLenHi), (0x028, s.offsetLo), (0x02C, s.offsetHi),
        (0x030, s.lengthLo), (0x034, s.lengthHi)] : List (BitVec 12 × Word)),
      ∀ be d, access { write := false, addr := p.1, be := be, wdata := d } s
        = ({ rdata := p.2, err := false }, s)) ∧
    (∀ off : BitVec 12, off.toNat % 4 = 0 →
      off = 0x014 ∨ (0x038 ≤ off.toNat ∧ off.toNat < 0x040)
        ∨ (0x060 ≤ off.toNat ∧ off.toNat < 0x080) ∨ (0x0C0 ≤ off.toNat ∧ off.toNat < 0x100)
        ∨ 0x300 ≤ off.toNat →
      access (readRequest off) s = ({ rdata := 0, err := false }, s))

/-- R54, R59: word w of a window reads its four bytes, the first in bits 7:0, while idle; while
BUSY = 1 it reads a free value, and only the model's count of draws moves (logs 5, 8). -/
def Obligations.WindowReads : Prop :=
  ∀ (s : State) (off : BitVec 12), off.toNat % 4 = 0 →
    (0x040 ≤ off.toNat ∧ off.toNat < 0x060) ∨ (0x080 ≤ off.toNat ∧ off.toNat < 0x0C0)
      ∨ (0x100 ≤ off.toNat ∧ off.toNat < 0x300) →
    (s.busy = true → access (readRequest off) s
      = ({ rdata := Config.busyWindowRead s.draws, err := false },
          { s with draws := s.draws + 1 })) ∧
    (s.busy = false → (access (readRequest off) s).1.err = false
      ∧ (access (readRequest off) s).2 = s
      ∧ ∀ j < 4, byteLane (access (readRequest off) s).1.rdata j =
        if off.toNat < 0x080 then byteAt s.digest (off.toNat - 0x040 + j)
        else if off.toNat < 0x100 then byteAt s.hout (off.toNat - 0x080 + j)
        else if off.toNat < 0x180 then byteAt s.hreg (off.toNat - 0x100 + j)
        else if off.toNat < 0x200 then byteAt s.mreg (off.toNat - 0x180 + j)
        else if off.toNat < 0x280 then byteAt s.pst (off.toNat - 0x200 + j)
        else byteAt s.qst (off.toNat - 0x280 + j))

/-- R54, R62: while idle, a write to a word of HREG, MREG, PST or QST, or to half of a range
register, replaces it and nothing else; it reads back, and no command starts. -/
def Obligations.IdleWritesReplaceRegisters : Prop :=
  ∀ (s : State) (off : BitVec 12) (v : Word), s.busy = false → off.toNat % 4 = 0 →
    (0x018 ≤ off.toNat ∧ off.toNat < 0x038) ∨ (0x100 ≤ off.toNat ∧ off.toNat < 0x300) →
    ∃ t, access (writeRequest off v) s = ({ rdata := 0, err := false }, t)
      ∧ access (readRequest off) t = ({ rdata := v, err := false }, t)
      ∧ (∀ o : BitVec 12, o.toNat % 4 = 0 → o ≠ off →
        (access (readRequest o) t).1 = (access (readRequest o) s).1)
      ∧ SameFlags s t ∧ SameSequencing s t ∧ SameOutside s t ∧ t.draws = s.draws
      ∧ t.memEvents = s.memEvents

/-- R40, R42, R61, R302: while BUSY = 1 a write to CMD, a range register or a word of HREG, MREG, PST
or QST is dropped: only WBUSY becomes 1. -/
def Obligations.BusyWritesAreDropped : Prop :=
  ∀ (s : State) (off : BitVec 12) (v : Word), s.busy = true → off.toNat % 4 = 0 →
    off = 0x010 ∨ (0x018 ≤ off.toNat ∧ off.toNat < 0x038)
      ∨ (0x100 ≤ off.toNat ∧ off.toNat < 0x300) →
    access (writeRequest off v) s = ({ rdata := 0, err := false }, { s with wbusy := true })

/-- R55, R56: a write to ID, VERSION, DIGEST, HOUT or a reserved offset is ignored, busy or not. -/
def Obligations.ReadOnlyAndReservedWritesIgnored : Prop :=
  ∀ (s : State) (off : BitVec 12) (v : Word), off.toNat % 4 = 0 →
    off.toNat < 0x008 ∨ off = 0x014 ∨ (0x038 ≤ off.toNat ∧ off.toNat < 0x100)
      ∨ 0x300 ≤ off.toNat →
    access (writeRequest off v) s = ({ rdata := 0, err := false }, s)

/-- R35, R36, R56: how CTRL and STATUS read and what a write to them changes, busy or not. -/
def Obligations.ControlAndStatusWords : Prop :=
  ∀ (s : State) (v : Word),
    (∀ k < 32, (ctrlWord s).getLsbD k = (decide (k = 0) && s.ie)) ∧
    (∀ k < 32, (statusWord s).getLsbD k =
      if k = 0 then s.busy else if k = 1 then s.done else if k = 2 then s.valid
      else if k = 3 then s.wbusy else (decide (8 ≤ k ∧ k < 12) && s.err.code.getLsbD (k - 8))) ∧
    access (writeRequest 0x008 v) s
      = ({ rdata := 0, err := false }, { s with ie := v.getLsbD 0 }) ∧
    access (writeRequest 0x00C v) s = ({ rdata := 0, err := false },
      { s with done := s.done && !v.getLsbD 1, wbusy := s.wbusy && !v.getLsbD 3 })

/-- R83, R303: a misaligned request, or a write without all byte enables, is refused with error,
zero data and no effect; every other request is answered without error. -/
def Obligations.PortRefusesBadRequests : Prop :=
  ∀ (s : State) (q : RegReq),
    (q.addr.toNat % 4 ≠ 0 ∨ (q.write = true ∧ q.be ≠ 0b1111) →
      access q s = ({ rdata := 0, err := true }, s)) ∧
    (q.addr.toNat % 4 = 0 → (q.write = true → q.be = 0b1111) → (access q s).1.err = false)

/-- R37 to R42, R100: a write to CMD while idle accepts the word, legal or not: BUSY = 1, DONE,
VALID and ERR are 0, WBUSY stays, CMD holds the word, and no register the host can read changes. -/
def Obligations.CmdWriteAccepts : Prop :=
  ∀ (s : State) (w : Word), s.busy = false →
    ∃ t, access (writeRequest 0x010 w) s = ({ rdata := 0, err := false }, t)
      ∧ t.cmd = w ∧ t.busy = true ∧ t.done = false ∧ t.valid = false ∧ t.err = .none
      ∧ t.wbusy = s.wbusy ∧ t.ie = s.ie ∧ mode t = .exec ∧ t.pending = none ∧ t.rdData = []
      ∧ t.srcAddr = s.srcAddr ∧ t.bufLen = s.bufLen ∧ t.offset = s.offset ∧ t.msgLen = s.msgLen
      ∧ WindowsKept [] s t ∧ SameOutside s t ∧ t.draws = s.draws ∧ t.failed = false
      ∧ t.memEvents = s.memEvents
      ∧ ((decode w = .legal .hash1 ∨ decode w = .legal .hash2) → rangeOk s = true →
          t.rdNext = rangeBase s ∧ t.rdLeft = s.msgLen.toNat)

/-- R63, R310, R311: the interrupt line is IE AND DONE; a write of 1 to STATUS bit 1, a write of
IE = 0 and the acceptance of a command each lower it; masking keeps DONE. -/
def Obligations.InterruptLine : Prop :=
  ∀ (s : State) (v w : Word), s.inReset = false →
    irq s = (s.ie && s.done) ∧
    (v.getLsbD 1 = true → irq (access (writeRequest 0x00C v) s).2 = false) ∧
    (v.getLsbD 0 = false → irq (access (writeRequest 0x008 v) s).2 = false
      ∧ (access (writeRequest 0x008 v) s).2.done = s.done) ∧
    (v.getLsbD 0 = true → irq (access (writeRequest 0x008 v) s).2 = s.done) ∧
    (s.busy = false → irq (access (writeRequest 0x010 w) s).2 = false) ∧
    (∀ e b, irq (complete e b s) = s.ie)

/-- R340, R341, R342: driving `rst_n` low abandons a running command and leaves every register at its
reset value, memory as it was; while it is held low no access is answered, nothing runs and the
line is low; released, the core is at its reset values (log 11). -/
def Obligations.ResetLeavesResetValues : Prop :=
  ∀ s : State,
    (AtReset (driveReset false s) ∧ (driveReset false s).inReset = true
      ∧ ∀ a, Memory.read (driveReset false s).mem a = Memory.read s.mem a) ∧
    (s.inReset = true → AtReset (driveReset true s) ∧ (driveReset true s).inReset = false
      ∧ (∀ a, Memory.read (driveReset true s).mem a = Memory.read s.mem a)
      ∧ irq s = false
      ∧ (∀ q, hostTurn q s = s) ∧ programTurn s = .next s ∧ coreStep s = .next s
      ∧ ∀ rsp, memoryTurn rsp s = .next s) ∧
    (s.inReset = false → driveReset true s = s)
end

