-- ==== Sys2Proof/Laws/Bytes.lean ====
section
/-! SUPPORT. Byte strings by their bytes: what a tabulated string holds, and when two are equal. -/

namespace Sys2Proof.Machine

@[simp] theorem toList_tabulate (n : Nat) (f : Nat → Byte) :
    (tabulate n f).toList = (List.range n).map f := rfl

theorem byteAt_tabulate (n : Nat) (f : Nat → Byte) (k : Nat) :
    byteAt (tabulate n f) k = if k < n then f k else 0 := by
  by_cases h : k < n <;> simp [byteAt, h]

@[simp] theorem byteAt_tabulate_of_lt {n : Nat} (f : Nat → Byte) {k : Nat} (h : k < n) :
    byteAt (tabulate n f) k = f k := by
  simp [byteAt_tabulate, h]

theorem byteAt_of_le {n : Nat} (v : Bytes n) {k : Nat} (h : n ≤ k) : byteAt v k = 0 := by
  unfold byteAt
  exact List.getD_eq_default _ _ (by simpa using h)

theorem byteAt_eq_getElem {n : Nat} (v : Bytes n) {k : Nat} (h : k < n) : byteAt v k = v[k] := by
  simp [byteAt, h]

/-- Two byte strings with equal bytes are equal. -/
theorem bytes_ext {n : Nat} {a b : Bytes n} (h : ∀ k < n, byteAt a k = byteAt b k) : a = b := by
  refine Vector.ext fun k hk => ?_
  rw [← byteAt_eq_getElem a hk, ← byteAt_eq_getElem b hk]
  exact h k hk

@[simp] theorem tabulate_byteAt {n : Nat} (v : Bytes n) : tabulate n (byteAt v) = v :=
  bytes_ext fun k hk => by simp [hk]

theorem tabulate_congr {n : Nat} {f g : Nat → Byte} (h : ∀ k < n, f k = g k) :
    tabulate n f = tabulate n g :=
  bytes_ext fun k hk => by simp [hk, h k hk]

@[simp] theorem byteAt_zeros (n k : Nat) : byteAt (zeros n) k = 0 := by
  by_cases h : k < n
  · simp [byteAt_eq_getElem _ h, zeros]
  · exact byteAt_of_le _ (by omega)

@[simp] theorem byteAt_xorBytes {n : Nat} (a b : Bytes n) (k : Nat) :
    byteAt (xorBytes a b) k = byteAt a k ^^^ byteAt b k := by
  by_cases h : k < n
  · simp [xorBytes, h]
  · simp [byteAt_of_le _ (Nat.le_of_not_lt h)]

@[simp] theorem byteAt_slice {n : Nat} (v : Bytes n) (start len : Nat) {k : Nat} (h : k < len) :
    byteAt (slice v start len) k = byteAt v (start + k) := by
  simp [slice, h]

theorem byteAt_setWord {n : Nat} (v : Bytes n) (w : Nat) (x : Word) {k : Nat} (h : k < n) :
    byteAt (setWord v w x) k = if k / 4 = w then byteLane x (k % 4) else byteAt v k := by
  simp [setWord, h]

theorem length_toList {n : Nat} (v : Bytes n) : v.toList.length = n := by simp

theorem getD_toList {n : Nat} (v : Bytes n) (k : Nat) : v.toList.getD k 0 = byteAt v k := rfl

end Sys2Proof.Machine
end

