-- ==== Sys2Proof/Laws/Fast.lean ====
section
/-! SUPPORT. A second, fast way to compute P, Q and the hash, on states packed into one number, and
the proof that it computes the same: known answers are checked through it. -/

namespace Sys2Proof.Machine

/-- Byte k of a packed string. -/
def byteN (N k : Nat) : Nat := N >>> (8 * k) % 256

/-- Pack `f 0`, …, `f (n - 1)`, the first in the lowest byte. -/
def packFrom (f : Nat → Nat) : Nat → Nat
  | 0 => 0
  | n + 1 => packFrom f n + f n <<< (8 * n)

/-- The byte string a number packs. -/
def unpack (n N : Nat) : Bytes n := tabulate n fun k => BitVec.ofNat 8 (byteN N k)

theorem packFrom_lt {f : Nat → Nat} {n : Nat} (hf : ∀ k < n, f k < 256) :
    packFrom f n < 256 ^ n := by
  induction n with
  | zero => simp [packFrom]
  | succ n ih =>
    have h1 := ih fun k hk => hf k (by omega)
    have h2 := hf n (by omega)
    simp only [packFrom, Nat.shiftLeft_eq, Nat.pow_mul]
    norm_num [Nat.pow_succ]
    nlinarith [Nat.pow_pos (n := n) (show 0 < 256 by omega)]

theorem byteN_eq (N k : Nat) : byteN N k = N / 256 ^ k % 256 := by
  simp [byteN, Nat.shiftRight_eq_div_pow, Nat.pow_mul]

theorem packFrom_succ (f : Nat → Nat) (n : Nat) :
    packFrom f (n + 1) = packFrom f n + f n * 256 ^ n := by
  simp [packFrom, Nat.shiftLeft_eq, Nat.pow_mul]

theorem byteN_packFrom {f : Nat → Nat} {n k : Nat} (hf : ∀ k < n, f k < 256) (hk : k < n) :
    byteN (packFrom f n) k = f k := by
  induction n with
  | zero => omega
  | succ n ih =>
    have hlt : packFrom f n < 256 ^ n := packFrom_lt fun k hk => hf k (by omega)
    have ih := fun h => ih (fun k hk => hf k (by omega)) h
    simp only [byteN_eq, packFrom_succ] at ih ⊢
    rcases Nat.lt_succ_iff_lt_or_eq.1 hk with h | rfl
    · rw [← ih h]
      obtain ⟨d, rfl⟩ : ∃ d, n = k + 1 + d := ⟨n - k - 1, by omega⟩
      rw [show f (k + 1 + d) * 256 ^ (k + 1 + d)
          = 256 ^ k * (256 * (f (k + 1 + d) * 256 ^ d)) by ring,
        Nat.add_mul_div_left _ _ (by positivity), Nat.add_mul_mod_self_left]
    · rw [Nat.add_mul_div_right _ _ (by positivity), Nat.div_eq_of_lt hlt, Nat.zero_add]
      exact Nat.mod_eq_of_lt (hf k (by omega))

theorem byteN_lt (N k : Nat) : byteN N k < 256 := Nat.mod_lt _ (by omega)

theorem byteAt_unpack {n N k : Nat} (hk : k < n) :
    byteAt (unpack n N) k = BitVec.ofNat 8 (byteN N k) := by
  simp [unpack, hk]

/-- A string whose bytes are `f`'s is the one `f` packs to. -/
theorem eq_unpack_packFrom {n : Nat} {v : Bytes n} {f : Nat → Nat}
    (h : ∀ k < n, (byteAt v k).toNat = f k) : v = unpack n (packFrom f n) := by
  refine bytes_ext fun k hk => ?_
  have hf : ∀ k < n, f k < 256 := fun k hk => h k hk ▸ (byteAt v k).isLt
  rw [byteAt_unpack hk, byteN_packFrom hf hk, ← h k hk]
  simp

/-- The S-box packed, entry 0 lowest. -/
def sboxN : Nat := packFrom (fun k => (sbox (BitVec.ofNat 8 k)).toNat) 256

/-- `xtime` on numbers. -/
def xtimeN (a : Nat) : Nat := (2 * a) ^^^ (0x11B * (a / 128))

/-- AddRoundConstant, SubBytes and ShiftBytes of a round on a packed state. -/
def substN (arc : Nat → Nat) (sigma : List Nat) (N : Nat) : Nat :=
  packFrom (fun k =>
    let k' := 8 * ((k / 8 + sigma.getD (k % 8) 0) % 16) + k % 8
    byteN sboxN (byteN N k' ^^^ arc k')) 128

/-- MixBytes on a packed state: the coefficients' bits gathered, two doublings a byte. -/
def mixN (M : Nat) : Nat :=
  packFrom (fun k =>
    let b := fun t => byteN M (8 * (k / 8) + (k % 8 + t) % 8)
    (b 2 ^^^ b 4 ^^^ b 5 ^^^ b 6 ^^^ b 7) ^^^
      xtimeN ((b 0 ^^^ b 1 ^^^ b 2 ^^^ b 5 ^^^ b 7) ^^^ xtimeN (b 3 ^^^ b 4 ^^^ b 6 ^^^ b 7))) 128

/-- The constants P adds. -/
def arcPN (r k : Nat) : Nat := if k % 8 = 0 then (16 * (k / 8)) ^^^ r else 0

/-- The constants Q adds. -/
def arcQN (r k : Nat) : Nat := if k % 8 = 7 then 255 ^^^ ((16 * (k / 8)) ^^^ r) else 255

/-- P on a packed state. -/
def permPN (N : Nat) : Nat :=
  (List.range 14).foldl (fun N r => mixN (substN (arcPN r) sigmaP N)) N

/-- Q on a packed state. -/
def permQN (N : Nat) : Nat :=
  (List.range 14).foldl (fun N r => mixN (substN (arcQN r) sigmaQ N)) N

theorem xtime_toNat (a : Byte) : (xtime a).toNat = xtimeN a.toNat := by
  revert a; decide +kernel

theorem gmul_two (a : Byte) : gmul 2#8 a = xtime a := by revert a; decide +kernel

theorem gmul_three (a : Byte) : gmul 3#8 a = xtime a ^^^ a := by revert a; decide +kernel

theorem gmul_four (a : Byte) : gmul 4#8 a = xtime (xtime a) := by revert a; decide +kernel

theorem gmul_five (a : Byte) : gmul 5#8 a = xtime (xtime a) ^^^ a := by revert a; decide +kernel

theorem gmul_seven (a : Byte) : gmul 7#8 a = xtime (xtime a) ^^^ xtime a ^^^ a := by
  revert a; decide +kernel

theorem xtime_xor (a b : Byte) : xtime (a ^^^ b) = xtime a ^^^ xtime b := by
  unfold xtime
  rw [BitVec.getLsbD_xor]
  have h : (a ^^^ b) <<< 1 = a <<< 1 ^^^ b <<< 1 := BitVec.shiftLeft_xor_distrib a b 1
  cases a.getLsbD 7 <;> cases b.getLsbD 7 <;> simp [h] <;>
    first
    | ac_rfl
    | (rw [show a <<< 1 ^^^ 27#8 ^^^ (b <<< 1 ^^^ 27#8) = a <<< 1 ^^^ b <<< 1 ^^^ (27#8 ^^^ 27#8) by
        ac_rfl]; simp)

/-- A byte of MixBytes from its column, the coefficients' bits gathered. -/
theorem mixByte_eq (S : Block) {i : Nat} (j : Nat) (hi : i < 8) :
    mixByte S i j =
      (let b := fun t => byteAt S (8 * j + (i + t) % 8)
       (b 2 ^^^ b 4 ^^^ b 5 ^^^ b 6 ^^^ b 7) ^^^
        xtime ((b 0 ^^^ b 1 ^^^ b 2 ^^^ b 5 ^^^ b 7) ^^^
          xtime (b 3 ^^^ b 4 ^^^ b 6 ^^^ b 7))) := by
  have hr : List.range 8 = [0, 1, 2, 3, 4, 5, 6, 7] := rfl
  interval_cases i <;>
    simp [mixByte, hr, mixCoef, gmul_two, gmul_three, gmul_four, gmul_five, gmul_seven, xtime_xor]
    <;> ac_rfl

theorem byteN_sboxN (x : Byte) : byteN sboxN x.toNat = (sbox x).toNat := by
  rw [sboxN, byteN_packFrom (fun k _ => (sbox _).isLt) x.isLt]
  simp

theorem toNat_ofNat_byteN (N k : Nat) : (BitVec.ofNat 8 (byteN N k)).toNat = byteN N k := by
  simp [Nat.mod_eq_of_lt (byteN_lt N k)]

/-- The packed MixBytes is MixBytes. -/
theorem mixBytes_unpack (N : Nat) : mixBytes (unpack 128 N) = unpack 128 (mixN N) := by
  refine eq_unpack_packFrom fun k hk => ?_
  have hb : ∀ t, (byteAt (unpack 128 N) (8 * (k / 8) + (k % 8 + t) % 8)).toNat
      = byteN N (8 * (k / 8) + (k % 8 + t) % 8) := fun t => by
    rw [byteAt_unpack (by omega), toNat_ofNat_byteN]
  rw [mixBytes, byteAt_tabulate_of_lt _ hk, mixByte_eq _ _ (by omega)]
  simp only [BitVec.toNat_xor, xtime_toNat, hb]

/-- The packed round up to ShiftBytes is AddRoundConstant, SubBytes and ShiftBytes. -/
theorem subst_unpack (S : Block) (arc : Nat → Nat) (sigma : List Nat) (N : Nat)
    (h : ∀ k < 128, (byteAt S k).toNat = byteN N k ^^^ arc k) :
    shiftBytes (subBytes S) sigma = unpack 128 (substN arc sigma N) := by
  refine eq_unpack_packFrom fun k hk => ?_
  rw [shiftBytes, byteAt_tabulate_of_lt _ hk, subBytes, byteAt_tabulate_of_lt _ (by omega),
    ← byteN_sboxN, h _ (by omega)]

theorem roundConst_toNat (r : Nat) (hr : r < 14) (j : Nat) (hj : j < 16) :
    (roundConst (BitVec.ofNat 4 r) j).toNat = (16 * j) ^^^ r := by
  interval_cases r <;> interval_cases j <;> rfl

theorem roundP_unpack (N r : Nat) (hr : r < 14) :
    roundP (unpack 128 N) (BitVec.ofNat 4 r) = unpack 128 (mixN (substN (arcPN r) sigmaP N)) := by
  rw [roundP, subst_unpack _ (arcPN r) _ N, mixBytes_unpack]
  intro k hk
  rw [arcP, byteAt_tabulate_of_lt _ hk, arcPN]
  split
  · rw [BitVec.toNat_xor, roundConst_toNat r hr _ (by omega), byteAt_unpack hk, toNat_ofNat_byteN]
  · rw [byteAt_unpack hk, toNat_ofNat_byteN, Nat.xor_zero]

theorem roundQ_unpack (N r : Nat) (hr : r < 14) :
    roundQ (unpack 128 N) (BitVec.ofNat 4 r) = unpack 128 (mixN (substN (arcQN r) sigmaQ N)) := by
  rw [roundQ, subst_unpack _ (arcQN r) _ N, mixBytes_unpack]
  intro k hk
  rw [arcQ, byteAt_tabulate_of_lt _ hk, arcQN]
  split
  · rw [BitVec.toNat_xor, BitVec.toNat_xor, roundConst_toNat r hr _ (by omega), byteAt_unpack hk,
      toNat_ofNat_byteN]
    rfl
  · rw [BitVec.toNat_xor, byteAt_unpack hk, toNat_ofNat_byteN]
    rfl

theorem foldl_rounds_unpack (f : Block → BitVec 4 → Block) (g : Nat → Nat → Nat)
    (h : ∀ N r, r < 14 → f (unpack 128 N) (BitVec.ofNat 4 r) = unpack 128 (g N r)) (N : Nat) :
    rounds.foldl f (unpack 128 N) = unpack 128 ((List.range 14).foldl g N) := by
  have key : ∀ (l : List Nat) (N : Nat), (∀ r ∈ l, r < 14) →
      (l.map (BitVec.ofNat 4)).foldl f (unpack 128 N) = unpack 128 (l.foldl g N) := by
    intro l
    induction l with
    | nil => intros; rfl
    | cons r l ih =>
      intro N hl
      simp only [List.map_cons, List.foldl_cons, h N r (hl r (by simp))]
      exact ih _ fun r hr => hl r (by simp [hr])
  exact key _ N fun r hr => List.mem_range.1 hr

/-- P computed on packed states. -/
theorem permP_unpack (N : Nat) : permP (unpack 128 N) = unpack 128 (permPN N) :=
  foldl_rounds_unpack _ _ roundP_unpack N

/-- Q computed on packed states. -/
theorem permQ_unpack (N : Nat) : permQ (unpack 128 N) = unpack 128 (permQN N) :=
  foldl_rounds_unpack _ _ roundQ_unpack N

theorem xorBytes_unpack (n M N : Nat) :
    xorBytes (unpack n M) (unpack n N) = unpack n (M ^^^ N) := by
  refine bytes_ext fun k hk => ?_
  rw [byteAt_xorBytes, byteAt_unpack hk, byteAt_unpack hk, byteAt_unpack hk]
  refine BitVec.eq_of_toNat_eq ?_
  rw [BitVec.toNat_xor, toNat_ofNat_byteN, toNat_ofNat_byteN, toNat_ofNat_byteN]
  simp only [byteN, Nat.shiftRight_xor_distrib]
  rw [show (256 : Nat) = 2 ^ 8 by rfl, Nat.xor_mod_two_pow]

/-- F computed on packed states. -/
theorem compress_unpack (h m : Nat) :
    compress (unpack 128 h) (unpack 128 m) = unpack 128 (permPN (h ^^^ m) ^^^ permQN m ^^^ h) := by
  simp only [compress, xorBytes_unpack, permP_unpack, permQ_unpack]

/-- Omega computed on packed states. -/
theorem outputTransform_unpack (h : Nat) :
    outputTransform (unpack 128 h) = unpack 64 ((permPN h ^^^ h) >>> 512) := by
  simp only [outputTransform, xorBytes_unpack, permP_unpack]
  refine bytes_ext fun k hk => ?_
  rw [byteAt_slice _ _ _ hk, byteAt_unpack (by omega), byteAt_unpack hk, byteN, byteN,
    ← Nat.shiftRight_add, show 8 * (64 + k) = 512 + 8 * k by omega]

/-- The number a byte string packs to. -/
def packBytes {n : Nat} (v : Bytes n) : Nat := packFrom (fun k => (byteAt v k).toNat) n

theorem unpack_packBytes {n : Nat} (v : Bytes n) : unpack n (packBytes v) = v :=
  (eq_unpack_packFrom fun _ _ => rfl).symm

/-- The byte string written in hexadecimal, byte 0 first, as the spec writes one. -/
def ofHex (n H : Nat) : Bytes n := tabulate n fun k => BitVec.ofNat 8 (byteN H (n - 1 - k))

theorem ofHex_eq_unpack (n H : Nat) :
    ofHex n H = unpack n (packFrom (fun k => byteN H (n - 1 - k)) n) :=
  eq_unpack_packFrom fun k hk => by
    rw [ofHex, byteAt_tabulate_of_lt _ hk, toNat_ofNat_byteN]

end Sys2Proof.Machine
end

