-- ==== Sys2Proof/Laws/Memory.lean ====
section
/-! SUPPORT. Memory: every operation keeps the canonical form; a read after a write. -/

namespace Sys2Proof.Machine

@[simp] theorem Memory_read_nil (a : Nat) : Memory.read [] a = none := rfl

/-- A byte written reads back. -/
@[simp] theorem Memory_read_write_same (m : Memory) (a : Nat) (b : Byte) :
    Memory.read (Memory.write m a b) a = some b := by
  induction m with
  | nil => simp [Memory.write, Memory.read]
  | cons c m ih =>
    obtain ⟨k, d⟩ := c
    simp only [Memory.write]
    split
    · simp [Memory.read]
    · split
      · simp [Memory.read]
      · rename_i h1 h2
        simp [Memory.read, h2, ih]

/-- A write leaves every other address alone. -/
theorem Memory_read_write_other (m : Memory) {a x : Nat} (b : Byte) (h : x ≠ a) :
    Memory.read (Memory.write m a b) x = Memory.read m x := by
  induction m with
  | nil => simp [Memory.write, Memory.read, h]
  | cons c m ih =>
    obtain ⟨k, d⟩ := c
    simp only [Memory.write]
    split
    · simp [Memory.read, h]
    · split
      · rename_i h1 h2
        subst h2
        simp [Memory.read, h]
      · simp [Memory.read, ih]

theorem mem_Memory_write {m : Memory} {a : Nat} {b : Byte} {c : Host.Cell}
    (h : c ∈ Memory.write m a b) : c = (a, b) ∨ c ∈ m := by
  induction m with
  | nil => simpa [Memory.write] using h
  | cons d m ih =>
    obtain ⟨k, e⟩ := d
    simp only [Memory.write] at h
    split at h
    · simpa using h
    · split at h
      · simp only [List.mem_cons] at h ⊢
        tauto
      · simp only [List.mem_cons] at h ⊢
        rcases h with h | h
        · exact .inr (.inl h)
        · rcases ih h with h | h
          · exact .inl h
          · exact .inr (.inr h)

/-- A write inside the address space keeps the canonical form. -/
theorem Memory_write_wf {m : Memory} {a : Nat} (b : Byte) (ha : a < 2 ^ 64) (h : Memory.wf m) :
    Memory.wf (Memory.write m a b) := by
  refine ⟨?_, fun c hc => ?_⟩
  · obtain ⟨h, -⟩ := h
    induction m with
    | nil => simp [Memory.write]
    | cons d m ih =>
      obtain ⟨k, e⟩ := d
      rw [List.pairwise_cons] at h
      simp only [Memory.write]
      split
      · rename_i hk
        refine List.pairwise_cons.2 ⟨fun c hc => ?_, List.pairwise_cons.2 h⟩
        rcases List.mem_cons.1 hc with rfl | hc
        · exact hk
        · exact Nat.lt_trans hk (h.1 c hc)
      · split
        · rename_i h1 h2
          subst h2
          exact List.pairwise_cons.2 ⟨h.1, h.2⟩
        · rename_i h1 h2
          refine List.pairwise_cons.2 ⟨fun c hc => ?_, ih h.2⟩
          rcases mem_Memory_write hc with rfl | hc
          · show k < a
            omega
          · exact h.1 c hc
  · rcases mem_Memory_write hc with rfl | hc
    · exact ha
    · exact h.2 c hc

/-- A store turn keeps memory's canonical form. -/
theorem storeByte_wf (a : BitVec 64) (b : Byte) (s : State) (h : Memory.wf s.mem) :
    Memory.wf (storeByte a b s).mem :=
  Memory_write_wf b a.isLt h

theorem mem_insertAddr {a x : Nat} {l : List Nat} : x ∈ insertAddr a l ↔ x = a ∨ x ∈ l := by
  induction l with
  | nil => simp [insertAddr]
  | cons k l ih =>
    simp only [insertAddr]
    split
    · simp
    · split
      · rename_i h; subst h; simp
      · simp only [List.mem_cons, ih]; tauto

/-- The hazard window's addresses stay strictly rising. -/
theorem insertAddr_pairwise {a : Nat} {l : List Nat} (h : l.Pairwise (· < ·)) :
    (insertAddr a l).Pairwise (· < ·) := by
  induction l with
  | nil => simp [insertAddr]
  | cons k l ih =>
    rw [List.pairwise_cons] at h
    simp only [insertAddr]
    split
    · rename_i hk
      refine List.pairwise_cons.2 ⟨fun x hx => ?_, List.pairwise_cons.2 h⟩
      rcases List.mem_cons.1 hx with rfl | hx
      · exact hk
      · exact Nat.lt_trans hk (h.1 x hx)
    · split
      · exact List.pairwise_cons.2 h
      · refine List.pairwise_cons.2 ⟨fun x hx => ?_, ih h.2⟩
        rcases mem_insertAddr.1 hx with rfl | hx
        · omega
        · exact h.1 x hx

/-- A response's data has one byte per address asked for. -/
theorem readBytes_length {s : State} {a n : Nat} {bs : List Byte} (h : readBytes s a n = some bs) :
    bs.length = n := by
  induction n generalizing a bs with
  | zero => simp [readBytes] at h; simp [← h]
  | succ n ih =>
    simp only [readBytes] at h
    split at h
    · simp at h
    · obtain ⟨cs, hc, rfl⟩ := Option.map_eq_some_iff.1 h
      simp [ih hc]

/-- Byte t of a response's data is the byte at the t-th address asked for. -/
theorem readBytes_getD {s : State} {a n : Nat} {bs : List Byte} (h : readBytes s a n = some bs)
    {t : Nat} (ht : t < n) : readByte s (a + t) = some (bs.getD t 0) := by
  induction n generalizing a bs t with
  | zero => omega
  | succ n ih =>
    simp only [readBytes] at h
    split at h
    · simp at h
    · rename_i b hb
      obtain ⟨cs, hc, rfl⟩ := Option.map_eq_some_iff.1 h
      cases t with
      | zero => simpa using hb
      | succ t =>
        have := ih hc (t := t) (by omega)
        rw [show a + (t + 1) = a + 1 + t by omega]
        simpa using this

end Sys2Proof.Machine
end

