-- ==== Sys2Proof/Laws/State.lean ====
section
/-! SUPPORT. What each named update leaves in each field of the state: one lemma per field per
update, true by rfl, so that no proof unfolds a record update. -/

namespace Sys2Proof.Machine

variable (s : State)

/-! ### acceptFlags -/

@[simp] theorem acceptFlags_ie : (acceptFlags s).ie = s.ie := rfl
@[simp] theorem acceptFlags_busy : (acceptFlags s).busy = true := rfl
@[simp] theorem acceptFlags_done : (acceptFlags s).done = false := rfl
@[simp] theorem acceptFlags_valid : (acceptFlags s).valid = false := rfl
@[simp] theorem acceptFlags_wbusy : (acceptFlags s).wbusy = s.wbusy := rfl
@[simp] theorem acceptFlags_err : (acceptFlags s).err = .none := rfl
@[simp] theorem acceptFlags_cmd : (acceptFlags s).cmd = s.cmd := rfl
@[simp] theorem acceptFlags_srcAddrLo : (acceptFlags s).srcAddrLo = s.srcAddrLo := rfl
@[simp] theorem acceptFlags_srcAddrHi : (acceptFlags s).srcAddrHi = s.srcAddrHi := rfl
@[simp] theorem acceptFlags_bufLenLo : (acceptFlags s).bufLenLo = s.bufLenLo := rfl
@[simp] theorem acceptFlags_bufLenHi : (acceptFlags s).bufLenHi = s.bufLenHi := rfl
@[simp] theorem acceptFlags_offsetLo : (acceptFlags s).offsetLo = s.offsetLo := rfl
@[simp] theorem acceptFlags_offsetHi : (acceptFlags s).offsetHi = s.offsetHi := rfl
@[simp] theorem acceptFlags_lengthLo : (acceptFlags s).lengthLo = s.lengthLo := rfl
@[simp] theorem acceptFlags_lengthHi : (acceptFlags s).lengthHi = s.lengthHi := rfl
@[simp] theorem acceptFlags_digest : (acceptFlags s).digest = s.digest := rfl
@[simp] theorem acceptFlags_hout : (acceptFlags s).hout = s.hout := rfl
@[simp] theorem acceptFlags_hreg : (acceptFlags s).hreg = s.hreg := rfl
@[simp] theorem acceptFlags_mreg : (acceptFlags s).mreg = s.mreg := rfl
@[simp] theorem acceptFlags_pst : (acceptFlags s).pst = s.pst := rfl
@[simp] theorem acceptFlags_qst : (acceptFlags s).qst = s.qst := rfl
@[simp] theorem acceptFlags_rdNext : (acceptFlags s).rdNext = s.rdNext := rfl
@[simp] theorem acceptFlags_rdLeft : (acceptFlags s).rdLeft = s.rdLeft := rfl
@[simp] theorem acceptFlags_pending : (acceptFlags s).pending = s.pending := rfl
@[simp] theorem acceptFlags_rdData : (acceptFlags s).rdData = s.rdData := rfl
@[simp] theorem acceptFlags_failed : (acceptFlags s).failed = s.failed := rfl
@[simp] theorem acceptFlags_stored : (acceptFlags s).stored = s.stored := rfl
@[simp] theorem acceptFlags_inReset : (acceptFlags s).inReset = s.inReset := rfl
@[simp] theorem acceptFlags_memRsp : (acceptFlags s).memRsp = s.memRsp := rfl
@[simp] theorem acceptFlags_memEvents : (acceptFlags s).memEvents = s.memEvents := rfl
@[simp] theorem acceptFlags_regRsp : (acceptFlags s).regRsp = s.regRsp := rfl
@[simp] theorem acceptFlags_mem : (acceptFlags s).mem = s.mem := rfl
@[simp] theorem acceptFlags_sideEffects : (acceptFlags s).sideEffects = s.sideEffects := rfl
@[simp] theorem acceptFlags_memAnswers : (acceptFlags s).memAnswers = s.memAnswers := rfl
@[simp] theorem acceptFlags_cut : (acceptFlags s).cut = s.cut := rfl
@[simp] theorem acceptFlags_draws : (acceptFlags s).draws = s.draws := rfl
@[simp] theorem acceptFlags_host : (acceptFlags s).host = s.host := rfl
@[simp] theorem acceptFlags_schedule : (acceptFlags s).schedule = s.schedule := rfl

/-! ### completeFlags -/

@[simp] theorem completeFlags_ie (e : ErrCode) (v : Bool) : (completeFlags e v s).ie = s.ie := rfl
@[simp] theorem completeFlags_busy (e : ErrCode) (v : Bool) :
    (completeFlags e v s).busy = false := rfl
@[simp] theorem completeFlags_done (e : ErrCode) (v : Bool) :
    (completeFlags e v s).done = true := rfl
@[simp] theorem completeFlags_valid (e : ErrCode) (v : Bool) :
    (completeFlags e v s).valid = v := rfl
@[simp] theorem completeFlags_wbusy (e : ErrCode) (v : Bool) :
    (completeFlags e v s).wbusy = s.wbusy := rfl
@[simp] theorem completeFlags_err (e : ErrCode) (v : Bool) : (completeFlags e v s).err = e := rfl
@[simp] theorem completeFlags_cmd (e : ErrCode) (v : Bool) :
    (completeFlags e v s).cmd = s.cmd := rfl
@[simp] theorem completeFlags_srcAddrLo (e : ErrCode) (v : Bool) :
    (completeFlags e v s).srcAddrLo = s.srcAddrLo := rfl
@[simp] theorem completeFlags_srcAddrHi (e : ErrCode) (v : Bool) :
    (completeFlags e v s).srcAddrHi = s.srcAddrHi := rfl
@[simp] theorem completeFlags_bufLenLo (e : ErrCode) (v : Bool) :
    (completeFlags e v s).bufLenLo = s.bufLenLo := rfl
@[simp] theorem completeFlags_bufLenHi (e : ErrCode) (v : Bool) :
    (completeFlags e v s).bufLenHi = s.bufLenHi := rfl
@[simp] theorem completeFlags_offsetLo (e : ErrCode) (v : Bool) :
    (completeFlags e v s).offsetLo = s.offsetLo := rfl
@[simp] theorem completeFlags_offsetHi (e : ErrCode) (v : Bool) :
    (completeFlags e v s).offsetHi = s.offsetHi := rfl
@[simp] theorem completeFlags_lengthLo (e : ErrCode) (v : Bool) :
    (completeFlags e v s).lengthLo = s.lengthLo := rfl
@[simp] theorem completeFlags_lengthHi (e : ErrCode) (v : Bool) :
    (completeFlags e v s).lengthHi = s.lengthHi := rfl
@[simp] theorem completeFlags_digest (e : ErrCode) (v : Bool) :
    (completeFlags e v s).digest = s.digest := rfl
@[simp] theorem completeFlags_hout (e : ErrCode) (v : Bool) :
    (completeFlags e v s).hout = s.hout := rfl
@[simp] theorem completeFlags_hreg (e : ErrCode) (v : Bool) :
    (completeFlags e v s).hreg = s.hreg := rfl
@[simp] theorem completeFlags_mreg (e : ErrCode) (v : Bool) :
    (completeFlags e v s).mreg = s.mreg := rfl
@[simp] theorem completeFlags_pst (e : ErrCode) (v : Bool) :
    (completeFlags e v s).pst = s.pst := rfl
@[simp] theorem completeFlags_qst (e : ErrCode) (v : Bool) :
    (completeFlags e v s).qst = s.qst := rfl
@[simp] theorem completeFlags_rdNext (e : ErrCode) (v : Bool) :
    (completeFlags e v s).rdNext = s.rdNext := rfl
@[simp] theorem completeFlags_rdLeft (e : ErrCode) (v : Bool) :
    (completeFlags e v s).rdLeft = s.rdLeft := rfl
@[simp] theorem completeFlags_pending (e : ErrCode) (v : Bool) :
    (completeFlags e v s).pending = s.pending := rfl
@[simp] theorem completeFlags_rdData (e : ErrCode) (v : Bool) :
    (completeFlags e v s).rdData = s.rdData := rfl
@[simp] theorem completeFlags_failed (e : ErrCode) (v : Bool) :
    (completeFlags e v s).failed = s.failed := rfl
@[simp] theorem completeFlags_stored (e : ErrCode) (v : Bool) :
    (completeFlags e v s).stored = s.stored := rfl
@[simp] theorem completeFlags_inReset (e : ErrCode) (v : Bool) :
    (completeFlags e v s).inReset = s.inReset := rfl
@[simp] theorem completeFlags_memRsp (e : ErrCode) (v : Bool) :
    (completeFlags e v s).memRsp = s.memRsp := rfl
@[simp] theorem completeFlags_memEvents (e : ErrCode) (v : Bool) :
    (completeFlags e v s).memEvents = s.memEvents := rfl
@[simp] theorem completeFlags_regRsp (e : ErrCode) (v : Bool) :
    (completeFlags e v s).regRsp = s.regRsp := rfl
@[simp] theorem completeFlags_mem (e : ErrCode) (v : Bool) :
    (completeFlags e v s).mem = s.mem := rfl
@[simp] theorem completeFlags_sideEffects (e : ErrCode) (v : Bool) :
    (completeFlags e v s).sideEffects = s.sideEffects := rfl
@[simp] theorem completeFlags_memAnswers (e : ErrCode) (v : Bool) :
    (completeFlags e v s).memAnswers = s.memAnswers := rfl
@[simp] theorem completeFlags_cut (e : ErrCode) (v : Bool) :
    (completeFlags e v s).cut = s.cut := rfl
@[simp] theorem completeFlags_draws (e : ErrCode) (v : Bool) :
    (completeFlags e v s).draws = s.draws := rfl
@[simp] theorem completeFlags_host (e : ErrCode) (v : Bool) :
    (completeFlags e v s).host = s.host := rfl
@[simp] theorem completeFlags_schedule (e : ErrCode) (v : Bool) :
    (completeFlags e v s).schedule = s.schedule := rfl

/-! ### accept -/

@[simp] theorem accept_ie (w : Word) : (accept w s).ie = s.ie := rfl
@[simp] theorem accept_busy (w : Word) : (accept w s).busy = true := rfl
@[simp] theorem accept_done (w : Word) : (accept w s).done = false := rfl
@[simp] theorem accept_valid (w : Word) : (accept w s).valid = false := rfl
@[simp] theorem accept_wbusy (w : Word) : (accept w s).wbusy = s.wbusy := rfl
@[simp] theorem accept_err (w : Word) : (accept w s).err = .none := rfl
@[simp] theorem accept_cmd (w : Word) : (accept w s).cmd = w := rfl
@[simp] theorem accept_srcAddrLo (w : Word) : (accept w s).srcAddrLo = s.srcAddrLo := rfl
@[simp] theorem accept_srcAddrHi (w : Word) : (accept w s).srcAddrHi = s.srcAddrHi := rfl
@[simp] theorem accept_bufLenLo (w : Word) : (accept w s).bufLenLo = s.bufLenLo := rfl
@[simp] theorem accept_bufLenHi (w : Word) : (accept w s).bufLenHi = s.bufLenHi := rfl
@[simp] theorem accept_offsetLo (w : Word) : (accept w s).offsetLo = s.offsetLo := rfl
@[simp] theorem accept_offsetHi (w : Word) : (accept w s).offsetHi = s.offsetHi := rfl
@[simp] theorem accept_lengthLo (w : Word) : (accept w s).lengthLo = s.lengthLo := rfl
@[simp] theorem accept_lengthHi (w : Word) : (accept w s).lengthHi = s.lengthHi := rfl
@[simp] theorem accept_digest (w : Word) : (accept w s).digest = s.digest := rfl
@[simp] theorem accept_hout (w : Word) : (accept w s).hout = s.hout := rfl
@[simp] theorem accept_hreg (w : Word) : (accept w s).hreg = s.hreg := rfl
@[simp] theorem accept_mreg (w : Word) : (accept w s).mreg = s.mreg := rfl
@[simp] theorem accept_pst (w : Word) : (accept w s).pst = s.pst := rfl
@[simp] theorem accept_qst (w : Word) : (accept w s).qst = s.qst := rfl
@[simp] theorem accept_rdNext (w : Word) :
    (accept w s).rdNext = if willRead w s then rangeBase s else 0 := rfl
@[simp] theorem accept_rdLeft (w : Word) :
    (accept w s).rdLeft = if willRead w s then s.msgLen.toNat else 0 := rfl
@[simp] theorem accept_pending (w : Word) : (accept w s).pending = none := rfl
@[simp] theorem accept_rdData (w : Word) : (accept w s).rdData = [] := rfl
@[simp] theorem accept_failed (w : Word) : (accept w s).failed = false := rfl
@[simp] theorem accept_stored (w : Word) : (accept w s).stored = [] := rfl
@[simp] theorem accept_inReset (w : Word) : (accept w s).inReset = s.inReset := rfl
@[simp] theorem accept_memRsp (w : Word) : (accept w s).memRsp = none := rfl
@[simp] theorem accept_memEvents (w : Word) : (accept w s).memEvents = s.memEvents := rfl
@[simp] theorem accept_regRsp (w : Word) : (accept w s).regRsp = s.regRsp := rfl
@[simp] theorem accept_mem (w : Word) : (accept w s).mem = s.mem := rfl
@[simp] theorem accept_sideEffects (w : Word) : (accept w s).sideEffects = s.sideEffects := rfl
@[simp] theorem accept_memAnswers (w : Word) : (accept w s).memAnswers = s.memAnswers := rfl
@[simp] theorem accept_cut (w : Word) : (accept w s).cut = s.cut := rfl
@[simp] theorem accept_draws (w : Word) : (accept w s).draws = s.draws := rfl
@[simp] theorem accept_host (w : Word) : (accept w s).host = s.host := rfl
@[simp] theorem accept_schedule (w : Word) : (accept w s).schedule = s.schedule := rfl

/-! ### complete -/

@[simp] theorem complete_ie (e : ErrCode) (v : Bool) : (complete e v s).ie = s.ie := rfl
@[simp] theorem complete_busy (e : ErrCode) (v : Bool) : (complete e v s).busy = false := rfl
@[simp] theorem complete_done (e : ErrCode) (v : Bool) : (complete e v s).done = true := rfl
@[simp] theorem complete_valid (e : ErrCode) (v : Bool) : (complete e v s).valid = v := rfl
@[simp] theorem complete_wbusy (e : ErrCode) (v : Bool) : (complete e v s).wbusy = s.wbusy := rfl
@[simp] theorem complete_err (e : ErrCode) (v : Bool) : (complete e v s).err = e := rfl
@[simp] theorem complete_cmd (e : ErrCode) (v : Bool) : (complete e v s).cmd = s.cmd := rfl
@[simp] theorem complete_srcAddrLo (e : ErrCode) (v : Bool) :
    (complete e v s).srcAddrLo = s.srcAddrLo := rfl
@[simp] theorem complete_srcAddrHi (e : ErrCode) (v : Bool) :
    (complete e v s).srcAddrHi = s.srcAddrHi := rfl
@[simp] theorem complete_bufLenLo (e : ErrCode) (v : Bool) :
    (complete e v s).bufLenLo = s.bufLenLo := rfl
@[simp] theorem complete_bufLenHi (e : ErrCode) (v : Bool) :
    (complete e v s).bufLenHi = s.bufLenHi := rfl
@[simp] theorem complete_offsetLo (e : ErrCode) (v : Bool) :
    (complete e v s).offsetLo = s.offsetLo := rfl
@[simp] theorem complete_offsetHi (e : ErrCode) (v : Bool) :
    (complete e v s).offsetHi = s.offsetHi := rfl
@[simp] theorem complete_lengthLo (e : ErrCode) (v : Bool) :
    (complete e v s).lengthLo = s.lengthLo := rfl
@[simp] theorem complete_lengthHi (e : ErrCode) (v : Bool) :
    (complete e v s).lengthHi = s.lengthHi := rfl
@[simp] theorem complete_digest (e : ErrCode) (v : Bool) : (complete e v s).digest = s.digest := rfl
@[simp] theorem complete_hout (e : ErrCode) (v : Bool) : (complete e v s).hout = s.hout := rfl
@[simp] theorem complete_hreg (e : ErrCode) (v : Bool) : (complete e v s).hreg = s.hreg := rfl
@[simp] theorem complete_mreg (e : ErrCode) (v : Bool) : (complete e v s).mreg = s.mreg := rfl
@[simp] theorem complete_pst (e : ErrCode) (v : Bool) : (complete e v s).pst = s.pst := rfl
@[simp] theorem complete_qst (e : ErrCode) (v : Bool) : (complete e v s).qst = s.qst := rfl
@[simp] theorem complete_rdNext (e : ErrCode) (v : Bool) : (complete e v s).rdNext = 0 := rfl
@[simp] theorem complete_rdLeft (e : ErrCode) (v : Bool) : (complete e v s).rdLeft = 0 := rfl
@[simp] theorem complete_pending (e : ErrCode) (v : Bool) : (complete e v s).pending = none := rfl
@[simp] theorem complete_rdData (e : ErrCode) (v : Bool) : (complete e v s).rdData = [] := rfl
@[simp] theorem complete_failed (e : ErrCode) (v : Bool) : (complete e v s).failed = false := rfl
@[simp] theorem complete_stored (e : ErrCode) (v : Bool) : (complete e v s).stored = [] := rfl
@[simp] theorem complete_inReset (e : ErrCode) (v : Bool) :
    (complete e v s).inReset = s.inReset := rfl
@[simp] theorem complete_memRsp (e : ErrCode) (v : Bool) : (complete e v s).memRsp = none := rfl
@[simp] theorem complete_memEvents (e : ErrCode) (v : Bool) :
    (complete e v s).memEvents = s.memEvents := rfl
@[simp] theorem complete_regRsp (e : ErrCode) (v : Bool) : (complete e v s).regRsp = s.regRsp := rfl
@[simp] theorem complete_mem (e : ErrCode) (v : Bool) : (complete e v s).mem = s.mem := rfl
@[simp] theorem complete_sideEffects (e : ErrCode) (v : Bool) :
    (complete e v s).sideEffects = s.sideEffects := rfl
@[simp] theorem complete_memAnswers (e : ErrCode) (v : Bool) :
    (complete e v s).memAnswers = s.memAnswers := rfl
@[simp] theorem complete_cut (e : ErrCode) (v : Bool) : (complete e v s).cut = s.cut := rfl
@[simp] theorem complete_draws (e : ErrCode) (v : Bool) : (complete e v s).draws = s.draws := rfl
@[simp] theorem complete_host (e : ErrCode) (v : Bool) : (complete e v s).host = s.host := rfl
@[simp] theorem complete_schedule (e : ErrCode) (v : Bool) :
    (complete e v s).schedule = s.schedule := rfl

/-! ### zeroResults -/

@[simp] theorem zeroResults_ie : (zeroResults s).ie = s.ie := rfl
@[simp] theorem zeroResults_busy : (zeroResults s).busy = s.busy := rfl
@[simp] theorem zeroResults_done : (zeroResults s).done = s.done := rfl
@[simp] theorem zeroResults_valid : (zeroResults s).valid = s.valid := rfl
@[simp] theorem zeroResults_wbusy : (zeroResults s).wbusy = s.wbusy := rfl
@[simp] theorem zeroResults_err : (zeroResults s).err = s.err := rfl
@[simp] theorem zeroResults_cmd : (zeroResults s).cmd = s.cmd := rfl
@[simp] theorem zeroResults_srcAddrLo : (zeroResults s).srcAddrLo = s.srcAddrLo := rfl
@[simp] theorem zeroResults_srcAddrHi : (zeroResults s).srcAddrHi = s.srcAddrHi := rfl
@[simp] theorem zeroResults_bufLenLo : (zeroResults s).bufLenLo = s.bufLenLo := rfl
@[simp] theorem zeroResults_bufLenHi : (zeroResults s).bufLenHi = s.bufLenHi := rfl
@[simp] theorem zeroResults_offsetLo : (zeroResults s).offsetLo = s.offsetLo := rfl
@[simp] theorem zeroResults_offsetHi : (zeroResults s).offsetHi = s.offsetHi := rfl
@[simp] theorem zeroResults_lengthLo : (zeroResults s).lengthLo = s.lengthLo := rfl
@[simp] theorem zeroResults_lengthHi : (zeroResults s).lengthHi = s.lengthHi := rfl
@[simp] theorem zeroResults_digest : (zeroResults s).digest = zeros 32 := rfl
@[simp] theorem zeroResults_hout : (zeroResults s).hout = zeros 64 := rfl
@[simp] theorem zeroResults_hreg : (zeroResults s).hreg = s.hreg := rfl
@[simp] theorem zeroResults_mreg : (zeroResults s).mreg = s.mreg := rfl
@[simp] theorem zeroResults_pst : (zeroResults s).pst = s.pst := rfl
@[simp] theorem zeroResults_qst : (zeroResults s).qst = s.qst := rfl
@[simp] theorem zeroResults_rdNext : (zeroResults s).rdNext = s.rdNext := rfl
@[simp] theorem zeroResults_rdLeft : (zeroResults s).rdLeft = s.rdLeft := rfl
@[simp] theorem zeroResults_pending : (zeroResults s).pending = s.pending := rfl
@[simp] theorem zeroResults_rdData : (zeroResults s).rdData = s.rdData := rfl
@[simp] theorem zeroResults_failed : (zeroResults s).failed = s.failed := rfl
@[simp] theorem zeroResults_stored : (zeroResults s).stored = s.stored := rfl
@[simp] theorem zeroResults_inReset : (zeroResults s).inReset = s.inReset := rfl
@[simp] theorem zeroResults_memRsp : (zeroResults s).memRsp = s.memRsp := rfl
@[simp] theorem zeroResults_memEvents : (zeroResults s).memEvents = s.memEvents := rfl
@[simp] theorem zeroResults_regRsp : (zeroResults s).regRsp = s.regRsp := rfl
@[simp] theorem zeroResults_mem : (zeroResults s).mem = s.mem := rfl
@[simp] theorem zeroResults_sideEffects : (zeroResults s).sideEffects = s.sideEffects := rfl
@[simp] theorem zeroResults_memAnswers : (zeroResults s).memAnswers = s.memAnswers := rfl
@[simp] theorem zeroResults_cut : (zeroResults s).cut = s.cut := rfl
@[simp] theorem zeroResults_draws : (zeroResults s).draws = s.draws := rfl
@[simp] theorem zeroResults_host : (zeroResults s).host = s.host := rfl
@[simp] theorem zeroResults_schedule : (zeroResults s).schedule = s.schedule := rfl

/-! ### abandonWindows -/

@[simp] theorem abandonWindows_ie : (abandonWindows s).ie = s.ie := rfl
@[simp] theorem abandonWindows_busy : (abandonWindows s).busy = s.busy := rfl
@[simp] theorem abandonWindows_done : (abandonWindows s).done = s.done := rfl
@[simp] theorem abandonWindows_valid : (abandonWindows s).valid = s.valid := rfl
@[simp] theorem abandonWindows_wbusy : (abandonWindows s).wbusy = s.wbusy := rfl
@[simp] theorem abandonWindows_err : (abandonWindows s).err = s.err := rfl
@[simp] theorem abandonWindows_cmd : (abandonWindows s).cmd = s.cmd := rfl
@[simp] theorem abandonWindows_srcAddrLo : (abandonWindows s).srcAddrLo = s.srcAddrLo := rfl
@[simp] theorem abandonWindows_srcAddrHi : (abandonWindows s).srcAddrHi = s.srcAddrHi := rfl
@[simp] theorem abandonWindows_bufLenLo : (abandonWindows s).bufLenLo = s.bufLenLo := rfl
@[simp] theorem abandonWindows_bufLenHi : (abandonWindows s).bufLenHi = s.bufLenHi := rfl
@[simp] theorem abandonWindows_offsetLo : (abandonWindows s).offsetLo = s.offsetLo := rfl
@[simp] theorem abandonWindows_offsetHi : (abandonWindows s).offsetHi = s.offsetHi := rfl
@[simp] theorem abandonWindows_lengthLo : (abandonWindows s).lengthLo = s.lengthLo := rfl
@[simp] theorem abandonWindows_lengthHi : (abandonWindows s).lengthHi = s.lengthHi := rfl
@[simp] theorem abandonWindows_digest : (abandonWindows s).digest = s.digest := rfl
@[simp] theorem abandonWindows_hout : (abandonWindows s).hout = s.hout := rfl
@[simp] theorem abandonWindows_hreg :
    (abandonWindows s).hreg = Config.abandonedWindow s.draws 0 := rfl
@[simp] theorem abandonWindows_mreg :
    (abandonWindows s).mreg = Config.abandonedWindow s.draws 1 := rfl
@[simp] theorem abandonWindows_pst :
    (abandonWindows s).pst = Config.abandonedWindow s.draws 2 := rfl
@[simp] theorem abandonWindows_qst :
    (abandonWindows s).qst = Config.abandonedWindow s.draws 3 := rfl
@[simp] theorem abandonWindows_rdNext : (abandonWindows s).rdNext = s.rdNext := rfl
@[simp] theorem abandonWindows_rdLeft : (abandonWindows s).rdLeft = s.rdLeft := rfl
@[simp] theorem abandonWindows_pending : (abandonWindows s).pending = s.pending := rfl
@[simp] theorem abandonWindows_rdData : (abandonWindows s).rdData = s.rdData := rfl
@[simp] theorem abandonWindows_failed : (abandonWindows s).failed = s.failed := rfl
@[simp] theorem abandonWindows_stored : (abandonWindows s).stored = s.stored := rfl
@[simp] theorem abandonWindows_inReset : (abandonWindows s).inReset = s.inReset := rfl
@[simp] theorem abandonWindows_memRsp : (abandonWindows s).memRsp = s.memRsp := rfl
@[simp] theorem abandonWindows_memEvents : (abandonWindows s).memEvents = s.memEvents := rfl
@[simp] theorem abandonWindows_regRsp : (abandonWindows s).regRsp = s.regRsp := rfl
@[simp] theorem abandonWindows_mem : (abandonWindows s).mem = s.mem := rfl
@[simp] theorem abandonWindows_sideEffects : (abandonWindows s).sideEffects = s.sideEffects := rfl
@[simp] theorem abandonWindows_memAnswers : (abandonWindows s).memAnswers = s.memAnswers := rfl
@[simp] theorem abandonWindows_cut : (abandonWindows s).cut = s.cut := rfl
@[simp] theorem abandonWindows_draws : (abandonWindows s).draws = s.draws + 1 := rfl
@[simp] theorem abandonWindows_host : (abandonWindows s).host = s.host := rfl
@[simp] theorem abandonWindows_schedule : (abandonWindows s).schedule = s.schedule := rfl

/-! ### setWbusy -/

@[simp] theorem setWbusy_ie : (setWbusy s).ie = s.ie := rfl
@[simp] theorem setWbusy_busy : (setWbusy s).busy = s.busy := rfl
@[simp] theorem setWbusy_done : (setWbusy s).done = s.done := rfl
@[simp] theorem setWbusy_valid : (setWbusy s).valid = s.valid := rfl
@[simp] theorem setWbusy_wbusy : (setWbusy s).wbusy = true := rfl
@[simp] theorem setWbusy_err : (setWbusy s).err = s.err := rfl
@[simp] theorem setWbusy_cmd : (setWbusy s).cmd = s.cmd := rfl
@[simp] theorem setWbusy_srcAddrLo : (setWbusy s).srcAddrLo = s.srcAddrLo := rfl
@[simp] theorem setWbusy_srcAddrHi : (setWbusy s).srcAddrHi = s.srcAddrHi := rfl
@[simp] theorem setWbusy_bufLenLo : (setWbusy s).bufLenLo = s.bufLenLo := rfl
@[simp] theorem setWbusy_bufLenHi : (setWbusy s).bufLenHi = s.bufLenHi := rfl
@[simp] theorem setWbusy_offsetLo : (setWbusy s).offsetLo = s.offsetLo := rfl
@[simp] theorem setWbusy_offsetHi : (setWbusy s).offsetHi = s.offsetHi := rfl
@[simp] theorem setWbusy_lengthLo : (setWbusy s).lengthLo = s.lengthLo := rfl
@[simp] theorem setWbusy_lengthHi : (setWbusy s).lengthHi = s.lengthHi := rfl
@[simp] theorem setWbusy_digest : (setWbusy s).digest = s.digest := rfl
@[simp] theorem setWbusy_hout : (setWbusy s).hout = s.hout := rfl
@[simp] theorem setWbusy_hreg : (setWbusy s).hreg = s.hreg := rfl
@[simp] theorem setWbusy_mreg : (setWbusy s).mreg = s.mreg := rfl
@[simp] theorem setWbusy_pst : (setWbusy s).pst = s.pst := rfl
@[simp] theorem setWbusy_qst : (setWbusy s).qst = s.qst := rfl
@[simp] theorem setWbusy_rdNext : (setWbusy s).rdNext = s.rdNext := rfl
@[simp] theorem setWbusy_rdLeft : (setWbusy s).rdLeft = s.rdLeft := rfl
@[simp] theorem setWbusy_pending : (setWbusy s).pending = s.pending := rfl
@[simp] theorem setWbusy_rdData : (setWbusy s).rdData = s.rdData := rfl
@[simp] theorem setWbusy_failed : (setWbusy s).failed = s.failed := rfl
@[simp] theorem setWbusy_stored : (setWbusy s).stored = s.stored := rfl
@[simp] theorem setWbusy_inReset : (setWbusy s).inReset = s.inReset := rfl
@[simp] theorem setWbusy_memRsp : (setWbusy s).memRsp = s.memRsp := rfl
@[simp] theorem setWbusy_memEvents : (setWbusy s).memEvents = s.memEvents := rfl
@[simp] theorem setWbusy_regRsp : (setWbusy s).regRsp = s.regRsp := rfl
@[simp] theorem setWbusy_mem : (setWbusy s).mem = s.mem := rfl
@[simp] theorem setWbusy_sideEffects : (setWbusy s).sideEffects = s.sideEffects := rfl
@[simp] theorem setWbusy_memAnswers : (setWbusy s).memAnswers = s.memAnswers := rfl
@[simp] theorem setWbusy_cut : (setWbusy s).cut = s.cut := rfl
@[simp] theorem setWbusy_draws : (setWbusy s).draws = s.draws := rfl
@[simp] theorem setWbusy_host : (setWbusy s).host = s.host := rfl
@[simp] theorem setWbusy_schedule : (setWbusy s).schedule = s.schedule := rfl

/-! ### writeCtrl -/

@[simp] theorem writeCtrl_ie (v : Word) : (writeCtrl v s).ie = v.getLsbD 0 := rfl
@[simp] theorem writeCtrl_busy (v : Word) : (writeCtrl v s).busy = s.busy := rfl
@[simp] theorem writeCtrl_done (v : Word) : (writeCtrl v s).done = s.done := rfl
@[simp] theorem writeCtrl_valid (v : Word) : (writeCtrl v s).valid = s.valid := rfl
@[simp] theorem writeCtrl_wbusy (v : Word) : (writeCtrl v s).wbusy = s.wbusy := rfl
@[simp] theorem writeCtrl_err (v : Word) : (writeCtrl v s).err = s.err := rfl
@[simp] theorem writeCtrl_cmd (v : Word) : (writeCtrl v s).cmd = s.cmd := rfl
@[simp] theorem writeCtrl_srcAddrLo (v : Word) : (writeCtrl v s).srcAddrLo = s.srcAddrLo := rfl
@[simp] theorem writeCtrl_srcAddrHi (v : Word) : (writeCtrl v s).srcAddrHi = s.srcAddrHi := rfl
@[simp] theorem writeCtrl_bufLenLo (v : Word) : (writeCtrl v s).bufLenLo = s.bufLenLo := rfl
@[simp] theorem writeCtrl_bufLenHi (v : Word) : (writeCtrl v s).bufLenHi = s.bufLenHi := rfl
@[simp] theorem writeCtrl_offsetLo (v : Word) : (writeCtrl v s).offsetLo = s.offsetLo := rfl
@[simp] theorem writeCtrl_offsetHi (v : Word) : (writeCtrl v s).offsetHi = s.offsetHi := rfl
@[simp] theorem writeCtrl_lengthLo (v : Word) : (writeCtrl v s).lengthLo = s.lengthLo := rfl
@[simp] theorem writeCtrl_lengthHi (v : Word) : (writeCtrl v s).lengthHi = s.lengthHi := rfl
@[simp] theorem writeCtrl_digest (v : Word) : (writeCtrl v s).digest = s.digest := rfl
@[simp] theorem writeCtrl_hout (v : Word) : (writeCtrl v s).hout = s.hout := rfl
@[simp] theorem writeCtrl_hreg (v : Word) : (writeCtrl v s).hreg = s.hreg := rfl
@[simp] theorem writeCtrl_mreg (v : Word) : (writeCtrl v s).mreg = s.mreg := rfl
@[simp] theorem writeCtrl_pst (v : Word) : (writeCtrl v s).pst = s.pst := rfl
@[simp] theorem writeCtrl_qst (v : Word) : (writeCtrl v s).qst = s.qst := rfl
@[simp] theorem writeCtrl_rdNext (v : Word) : (writeCtrl v s).rdNext = s.rdNext := rfl
@[simp] theorem writeCtrl_rdLeft (v : Word) : (writeCtrl v s).rdLeft = s.rdLeft := rfl
@[simp] theorem writeCtrl_pending (v : Word) : (writeCtrl v s).pending = s.pending := rfl
@[simp] theorem writeCtrl_rdData (v : Word) : (writeCtrl v s).rdData = s.rdData := rfl
@[simp] theorem writeCtrl_failed (v : Word) : (writeCtrl v s).failed = s.failed := rfl
@[simp] theorem writeCtrl_stored (v : Word) : (writeCtrl v s).stored = s.stored := rfl
@[simp] theorem writeCtrl_inReset (v : Word) : (writeCtrl v s).inReset = s.inReset := rfl
@[simp] theorem writeCtrl_memRsp (v : Word) : (writeCtrl v s).memRsp = s.memRsp := rfl
@[simp] theorem writeCtrl_memEvents (v : Word) : (writeCtrl v s).memEvents = s.memEvents := rfl
@[simp] theorem writeCtrl_regRsp (v : Word) : (writeCtrl v s).regRsp = s.regRsp := rfl
@[simp] theorem writeCtrl_mem (v : Word) : (writeCtrl v s).mem = s.mem := rfl
@[simp] theorem writeCtrl_sideEffects (v : Word) :
    (writeCtrl v s).sideEffects = s.sideEffects := rfl
@[simp] theorem writeCtrl_memAnswers (v : Word) : (writeCtrl v s).memAnswers = s.memAnswers := rfl
@[simp] theorem writeCtrl_cut (v : Word) : (writeCtrl v s).cut = s.cut := rfl
@[simp] theorem writeCtrl_draws (v : Word) : (writeCtrl v s).draws = s.draws := rfl
@[simp] theorem writeCtrl_host (v : Word) : (writeCtrl v s).host = s.host := rfl
@[simp] theorem writeCtrl_schedule (v : Word) : (writeCtrl v s).schedule = s.schedule := rfl

/-! ### writeStatus -/

@[simp] theorem writeStatus_ie (v : Word) : (writeStatus v s).ie = s.ie := rfl
@[simp] theorem writeStatus_busy (v : Word) : (writeStatus v s).busy = s.busy := rfl
@[simp] theorem writeStatus_done (v : Word) :
    (writeStatus v s).done = (s.done && !v.getLsbD 1) := rfl
@[simp] theorem writeStatus_valid (v : Word) : (writeStatus v s).valid = s.valid := rfl
@[simp] theorem writeStatus_wbusy (v : Word) :
    (writeStatus v s).wbusy = (s.wbusy && !v.getLsbD 3) := rfl
@[simp] theorem writeStatus_err (v : Word) : (writeStatus v s).err = s.err := rfl
@[simp] theorem writeStatus_cmd (v : Word) : (writeStatus v s).cmd = s.cmd := rfl
@[simp] theorem writeStatus_srcAddrLo (v : Word) : (writeStatus v s).srcAddrLo = s.srcAddrLo := rfl
@[simp] theorem writeStatus_srcAddrHi (v : Word) : (writeStatus v s).srcAddrHi = s.srcAddrHi := rfl
@[simp] theorem writeStatus_bufLenLo (v : Word) : (writeStatus v s).bufLenLo = s.bufLenLo := rfl
@[simp] theorem writeStatus_bufLenHi (v : Word) : (writeStatus v s).bufLenHi = s.bufLenHi := rfl
@[simp] theorem writeStatus_offsetLo (v : Word) : (writeStatus v s).offsetLo = s.offsetLo := rfl
@[simp] theorem writeStatus_offsetHi (v : Word) : (writeStatus v s).offsetHi = s.offsetHi := rfl
@[simp] theorem writeStatus_lengthLo (v : Word) : (writeStatus v s).lengthLo = s.lengthLo := rfl
@[simp] theorem writeStatus_lengthHi (v : Word) : (writeStatus v s).lengthHi = s.lengthHi := rfl
@[simp] theorem writeStatus_digest (v : Word) : (writeStatus v s).digest = s.digest := rfl
@[simp] theorem writeStatus_hout (v : Word) : (writeStatus v s).hout = s.hout := rfl
@[simp] theorem writeStatus_hreg (v : Word) : (writeStatus v s).hreg = s.hreg := rfl
@[simp] theorem writeStatus_mreg (v : Word) : (writeStatus v s).mreg = s.mreg := rfl
@[simp] theorem writeStatus_pst (v : Word) : (writeStatus v s).pst = s.pst := rfl
@[simp] theorem writeStatus_qst (v : Word) : (writeStatus v s).qst = s.qst := rfl
@[simp] theorem writeStatus_rdNext (v : Word) : (writeStatus v s).rdNext = s.rdNext := rfl
@[simp] theorem writeStatus_rdLeft (v : Word) : (writeStatus v s).rdLeft = s.rdLeft := rfl
@[simp] theorem writeStatus_pending (v : Word) : (writeStatus v s).pending = s.pending := rfl
@[simp] theorem writeStatus_rdData (v : Word) : (writeStatus v s).rdData = s.rdData := rfl
@[simp] theorem writeStatus_failed (v : Word) : (writeStatus v s).failed = s.failed := rfl
@[simp] theorem writeStatus_stored (v : Word) : (writeStatus v s).stored = s.stored := rfl
@[simp] theorem writeStatus_inReset (v : Word) : (writeStatus v s).inReset = s.inReset := rfl
@[simp] theorem writeStatus_memRsp (v : Word) : (writeStatus v s).memRsp = s.memRsp := rfl
@[simp] theorem writeStatus_memEvents (v : Word) : (writeStatus v s).memEvents = s.memEvents := rfl
@[simp] theorem writeStatus_regRsp (v : Word) : (writeStatus v s).regRsp = s.regRsp := rfl
@[simp] theorem writeStatus_mem (v : Word) : (writeStatus v s).mem = s.mem := rfl
@[simp] theorem writeStatus_sideEffects (v : Word) :
    (writeStatus v s).sideEffects = s.sideEffects := rfl
@[simp] theorem writeStatus_memAnswers (v : Word) :
    (writeStatus v s).memAnswers = s.memAnswers := rfl
@[simp] theorem writeStatus_cut (v : Word) : (writeStatus v s).cut = s.cut := rfl
@[simp] theorem writeStatus_draws (v : Word) : (writeStatus v s).draws = s.draws := rfl
@[simp] theorem writeStatus_host (v : Word) : (writeStatus v s).host = s.host := rfl
@[simp] theorem writeStatus_schedule (v : Word) : (writeStatus v s).schedule = s.schedule := rfl

/-! ### initEffect -/

@[simp] theorem initEffect_ie : (initEffect s).ie = s.ie := rfl
@[simp] theorem initEffect_busy : (initEffect s).busy = s.busy := rfl
@[simp] theorem initEffect_done : (initEffect s).done = s.done := rfl
@[simp] theorem initEffect_valid : (initEffect s).valid = s.valid := rfl
@[simp] theorem initEffect_wbusy : (initEffect s).wbusy = s.wbusy := rfl
@[simp] theorem initEffect_err : (initEffect s).err = s.err := rfl
@[simp] theorem initEffect_cmd : (initEffect s).cmd = s.cmd := rfl
@[simp] theorem initEffect_srcAddrLo : (initEffect s).srcAddrLo = s.srcAddrLo := rfl
@[simp] theorem initEffect_srcAddrHi : (initEffect s).srcAddrHi = s.srcAddrHi := rfl
@[simp] theorem initEffect_bufLenLo : (initEffect s).bufLenLo = s.bufLenLo := rfl
@[simp] theorem initEffect_bufLenHi : (initEffect s).bufLenHi = s.bufLenHi := rfl
@[simp] theorem initEffect_offsetLo : (initEffect s).offsetLo = s.offsetLo := rfl
@[simp] theorem initEffect_offsetHi : (initEffect s).offsetHi = s.offsetHi := rfl
@[simp] theorem initEffect_lengthLo : (initEffect s).lengthLo = s.lengthLo := rfl
@[simp] theorem initEffect_lengthHi : (initEffect s).lengthHi = s.lengthHi := rfl
@[simp] theorem initEffect_digest : (initEffect s).digest = s.digest := rfl
@[simp] theorem initEffect_hout : (initEffect s).hout = s.hout := rfl
@[simp] theorem initEffect_hreg : (initEffect s).hreg = iv512 := rfl
@[simp] theorem initEffect_mreg : (initEffect s).mreg = s.mreg := rfl
@[simp] theorem initEffect_pst : (initEffect s).pst = s.pst := rfl
@[simp] theorem initEffect_qst : (initEffect s).qst = s.qst := rfl
@[simp] theorem initEffect_rdNext : (initEffect s).rdNext = s.rdNext := rfl
@[simp] theorem initEffect_rdLeft : (initEffect s).rdLeft = s.rdLeft := rfl
@[simp] theorem initEffect_pending : (initEffect s).pending = s.pending := rfl
@[simp] theorem initEffect_rdData : (initEffect s).rdData = s.rdData := rfl
@[simp] theorem initEffect_failed : (initEffect s).failed = s.failed := rfl
@[simp] theorem initEffect_stored : (initEffect s).stored = s.stored := rfl
@[simp] theorem initEffect_inReset : (initEffect s).inReset = s.inReset := rfl
@[simp] theorem initEffect_memRsp : (initEffect s).memRsp = s.memRsp := rfl
@[simp] theorem initEffect_memEvents : (initEffect s).memEvents = s.memEvents := rfl
@[simp] theorem initEffect_regRsp : (initEffect s).regRsp = s.regRsp := rfl
@[simp] theorem initEffect_mem : (initEffect s).mem = s.mem := rfl
@[simp] theorem initEffect_sideEffects : (initEffect s).sideEffects = s.sideEffects := rfl
@[simp] theorem initEffect_memAnswers : (initEffect s).memAnswers = s.memAnswers := rfl
@[simp] theorem initEffect_cut : (initEffect s).cut = s.cut := rfl
@[simp] theorem initEffect_draws : (initEffect s).draws = s.draws := rfl
@[simp] theorem initEffect_host : (initEffect s).host = s.host := rfl
@[simp] theorem initEffect_schedule : (initEffect s).schedule = s.schedule := rfl

/-! ### loadpqEffect -/

@[simp] theorem loadpqEffect_ie : (loadpqEffect s).ie = s.ie := rfl
@[simp] theorem loadpqEffect_busy : (loadpqEffect s).busy = s.busy := rfl
@[simp] theorem loadpqEffect_done : (loadpqEffect s).done = s.done := rfl
@[simp] theorem loadpqEffect_valid : (loadpqEffect s).valid = s.valid := rfl
@[simp] theorem loadpqEffect_wbusy : (loadpqEffect s).wbusy = s.wbusy := rfl
@[simp] theorem loadpqEffect_err : (loadpqEffect s).err = s.err := rfl
@[simp] theorem loadpqEffect_cmd : (loadpqEffect s).cmd = s.cmd := rfl
@[simp] theorem loadpqEffect_srcAddrLo : (loadpqEffect s).srcAddrLo = s.srcAddrLo := rfl
@[simp] theorem loadpqEffect_srcAddrHi : (loadpqEffect s).srcAddrHi = s.srcAddrHi := rfl
@[simp] theorem loadpqEffect_bufLenLo : (loadpqEffect s).bufLenLo = s.bufLenLo := rfl
@[simp] theorem loadpqEffect_bufLenHi : (loadpqEffect s).bufLenHi = s.bufLenHi := rfl
@[simp] theorem loadpqEffect_offsetLo : (loadpqEffect s).offsetLo = s.offsetLo := rfl
@[simp] theorem loadpqEffect_offsetHi : (loadpqEffect s).offsetHi = s.offsetHi := rfl
@[simp] theorem loadpqEffect_lengthLo : (loadpqEffect s).lengthLo = s.lengthLo := rfl
@[simp] theorem loadpqEffect_lengthHi : (loadpqEffect s).lengthHi = s.lengthHi := rfl
@[simp] theorem loadpqEffect_digest : (loadpqEffect s).digest = s.digest := rfl
@[simp] theorem loadpqEffect_hout : (loadpqEffect s).hout = s.hout := rfl
@[simp] theorem loadpqEffect_hreg : (loadpqEffect s).hreg = s.hreg := rfl
@[simp] theorem loadpqEffect_mreg : (loadpqEffect s).mreg = s.mreg := rfl
@[simp] theorem loadpqEffect_pst : (loadpqEffect s).pst = xorBytes s.hreg s.mreg := rfl
@[simp] theorem loadpqEffect_qst : (loadpqEffect s).qst = s.mreg := rfl
@[simp] theorem loadpqEffect_rdNext : (loadpqEffect s).rdNext = s.rdNext := rfl
@[simp] theorem loadpqEffect_rdLeft : (loadpqEffect s).rdLeft = s.rdLeft := rfl
@[simp] theorem loadpqEffect_pending : (loadpqEffect s).pending = s.pending := rfl
@[simp] theorem loadpqEffect_rdData : (loadpqEffect s).rdData = s.rdData := rfl
@[simp] theorem loadpqEffect_failed : (loadpqEffect s).failed = s.failed := rfl
@[simp] theorem loadpqEffect_stored : (loadpqEffect s).stored = s.stored := rfl
@[simp] theorem loadpqEffect_inReset : (loadpqEffect s).inReset = s.inReset := rfl
@[simp] theorem loadpqEffect_memRsp : (loadpqEffect s).memRsp = s.memRsp := rfl
@[simp] theorem loadpqEffect_memEvents : (loadpqEffect s).memEvents = s.memEvents := rfl
@[simp] theorem loadpqEffect_regRsp : (loadpqEffect s).regRsp = s.regRsp := rfl
@[simp] theorem loadpqEffect_mem : (loadpqEffect s).mem = s.mem := rfl
@[simp] theorem loadpqEffect_sideEffects : (loadpqEffect s).sideEffects = s.sideEffects := rfl
@[simp] theorem loadpqEffect_memAnswers : (loadpqEffect s).memAnswers = s.memAnswers := rfl
@[simp] theorem loadpqEffect_cut : (loadpqEffect s).cut = s.cut := rfl
@[simp] theorem loadpqEffect_draws : (loadpqEffect s).draws = s.draws := rfl
@[simp] theorem loadpqEffect_host : (loadpqEffect s).host = s.host := rfl
@[simp] theorem loadpqEffect_schedule : (loadpqEffect s).schedule = s.schedule := rfl

/-! ### foldEffect -/

@[simp] theorem foldEffect_ie : (foldEffect s).ie = s.ie := rfl
@[simp] theorem foldEffect_busy : (foldEffect s).busy = s.busy := rfl
@[simp] theorem foldEffect_done : (foldEffect s).done = s.done := rfl
@[simp] theorem foldEffect_valid : (foldEffect s).valid = s.valid := rfl
@[simp] theorem foldEffect_wbusy : (foldEffect s).wbusy = s.wbusy := rfl
@[simp] theorem foldEffect_err : (foldEffect s).err = s.err := rfl
@[simp] theorem foldEffect_cmd : (foldEffect s).cmd = s.cmd := rfl
@[simp] theorem foldEffect_srcAddrLo : (foldEffect s).srcAddrLo = s.srcAddrLo := rfl
@[simp] theorem foldEffect_srcAddrHi : (foldEffect s).srcAddrHi = s.srcAddrHi := rfl
@[simp] theorem foldEffect_bufLenLo : (foldEffect s).bufLenLo = s.bufLenLo := rfl
@[simp] theorem foldEffect_bufLenHi : (foldEffect s).bufLenHi = s.bufLenHi := rfl
@[simp] theorem foldEffect_offsetLo : (foldEffect s).offsetLo = s.offsetLo := rfl
@[simp] theorem foldEffect_offsetHi : (foldEffect s).offsetHi = s.offsetHi := rfl
@[simp] theorem foldEffect_lengthLo : (foldEffect s).lengthLo = s.lengthLo := rfl
@[simp] theorem foldEffect_lengthHi : (foldEffect s).lengthHi = s.lengthHi := rfl
@[simp] theorem foldEffect_digest : (foldEffect s).digest = s.digest := rfl
@[simp] theorem foldEffect_hout : (foldEffect s).hout = s.hout := rfl
@[simp] theorem foldEffect_hreg :
    (foldEffect s).hreg = xorBytes (xorBytes s.hreg s.pst) s.qst := rfl
@[simp] theorem foldEffect_mreg : (foldEffect s).mreg = s.mreg := rfl
@[simp] theorem foldEffect_pst : (foldEffect s).pst = s.pst := rfl
@[simp] theorem foldEffect_qst : (foldEffect s).qst = s.qst := rfl
@[simp] theorem foldEffect_rdNext : (foldEffect s).rdNext = s.rdNext := rfl
@[simp] theorem foldEffect_rdLeft : (foldEffect s).rdLeft = s.rdLeft := rfl
@[simp] theorem foldEffect_pending : (foldEffect s).pending = s.pending := rfl
@[simp] theorem foldEffect_rdData : (foldEffect s).rdData = s.rdData := rfl
@[simp] theorem foldEffect_failed : (foldEffect s).failed = s.failed := rfl
@[simp] theorem foldEffect_stored : (foldEffect s).stored = s.stored := rfl
@[simp] theorem foldEffect_inReset : (foldEffect s).inReset = s.inReset := rfl
@[simp] theorem foldEffect_memRsp : (foldEffect s).memRsp = s.memRsp := rfl
@[simp] theorem foldEffect_memEvents : (foldEffect s).memEvents = s.memEvents := rfl
@[simp] theorem foldEffect_regRsp : (foldEffect s).regRsp = s.regRsp := rfl
@[simp] theorem foldEffect_mem : (foldEffect s).mem = s.mem := rfl
@[simp] theorem foldEffect_sideEffects : (foldEffect s).sideEffects = s.sideEffects := rfl
@[simp] theorem foldEffect_memAnswers : (foldEffect s).memAnswers = s.memAnswers := rfl
@[simp] theorem foldEffect_cut : (foldEffect s).cut = s.cut := rfl
@[simp] theorem foldEffect_draws : (foldEffect s).draws = s.draws := rfl
@[simp] theorem foldEffect_host : (foldEffect s).host = s.host := rfl
@[simp] theorem foldEffect_schedule : (foldEffect s).schedule = s.schedule := rfl

/-! ### compEffect -/

@[simp] theorem compEffect_ie : (compEffect s).ie = s.ie := rfl
@[simp] theorem compEffect_busy : (compEffect s).busy = s.busy := rfl
@[simp] theorem compEffect_done : (compEffect s).done = s.done := rfl
@[simp] theorem compEffect_valid : (compEffect s).valid = s.valid := rfl
@[simp] theorem compEffect_wbusy : (compEffect s).wbusy = s.wbusy := rfl
@[simp] theorem compEffect_err : (compEffect s).err = s.err := rfl
@[simp] theorem compEffect_cmd : (compEffect s).cmd = s.cmd := rfl
@[simp] theorem compEffect_srcAddrLo : (compEffect s).srcAddrLo = s.srcAddrLo := rfl
@[simp] theorem compEffect_srcAddrHi : (compEffect s).srcAddrHi = s.srcAddrHi := rfl
@[simp] theorem compEffect_bufLenLo : (compEffect s).bufLenLo = s.bufLenLo := rfl
@[simp] theorem compEffect_bufLenHi : (compEffect s).bufLenHi = s.bufLenHi := rfl
@[simp] theorem compEffect_offsetLo : (compEffect s).offsetLo = s.offsetLo := rfl
@[simp] theorem compEffect_offsetHi : (compEffect s).offsetHi = s.offsetHi := rfl
@[simp] theorem compEffect_lengthLo : (compEffect s).lengthLo = s.lengthLo := rfl
@[simp] theorem compEffect_lengthHi : (compEffect s).lengthHi = s.lengthHi := rfl
@[simp] theorem compEffect_digest : (compEffect s).digest = s.digest := rfl
@[simp] theorem compEffect_hout : (compEffect s).hout = s.hout := rfl
@[simp] theorem compEffect_hreg :
    (compEffect s).hreg = xorBytes (xorBytes (permP (xorBytes s.hreg s.mreg)) (permQ s.mreg)) s.hreg := rfl
@[simp] theorem compEffect_mreg : (compEffect s).mreg = s.mreg := rfl
@[simp] theorem compEffect_pst : (compEffect s).pst = permP (xorBytes s.hreg s.mreg) := rfl
@[simp] theorem compEffect_qst : (compEffect s).qst = permQ s.mreg := rfl
@[simp] theorem compEffect_rdNext : (compEffect s).rdNext = s.rdNext := rfl
@[simp] theorem compEffect_rdLeft : (compEffect s).rdLeft = s.rdLeft := rfl
@[simp] theorem compEffect_pending : (compEffect s).pending = s.pending := rfl
@[simp] theorem compEffect_rdData : (compEffect s).rdData = s.rdData := rfl
@[simp] theorem compEffect_failed : (compEffect s).failed = s.failed := rfl
@[simp] theorem compEffect_stored : (compEffect s).stored = s.stored := rfl
@[simp] theorem compEffect_inReset : (compEffect s).inReset = s.inReset := rfl
@[simp] theorem compEffect_memRsp : (compEffect s).memRsp = s.memRsp := rfl
@[simp] theorem compEffect_memEvents : (compEffect s).memEvents = s.memEvents := rfl
@[simp] theorem compEffect_regRsp : (compEffect s).regRsp = s.regRsp := rfl
@[simp] theorem compEffect_mem : (compEffect s).mem = s.mem := rfl
@[simp] theorem compEffect_sideEffects : (compEffect s).sideEffects = s.sideEffects := rfl
@[simp] theorem compEffect_memAnswers : (compEffect s).memAnswers = s.memAnswers := rfl
@[simp] theorem compEffect_cut : (compEffect s).cut = s.cut := rfl
@[simp] theorem compEffect_draws : (compEffect s).draws = s.draws := rfl
@[simp] theorem compEffect_host : (compEffect s).host = s.host := rfl
@[simp] theorem compEffect_schedule : (compEffect s).schedule = s.schedule := rfl

/-! ### outldEffect -/

@[simp] theorem outldEffect_ie : (outldEffect s).ie = s.ie := rfl
@[simp] theorem outldEffect_busy : (outldEffect s).busy = s.busy := rfl
@[simp] theorem outldEffect_done : (outldEffect s).done = s.done := rfl
@[simp] theorem outldEffect_valid : (outldEffect s).valid = s.valid := rfl
@[simp] theorem outldEffect_wbusy : (outldEffect s).wbusy = s.wbusy := rfl
@[simp] theorem outldEffect_err : (outldEffect s).err = s.err := rfl
@[simp] theorem outldEffect_cmd : (outldEffect s).cmd = s.cmd := rfl
@[simp] theorem outldEffect_srcAddrLo : (outldEffect s).srcAddrLo = s.srcAddrLo := rfl
@[simp] theorem outldEffect_srcAddrHi : (outldEffect s).srcAddrHi = s.srcAddrHi := rfl
@[simp] theorem outldEffect_bufLenLo : (outldEffect s).bufLenLo = s.bufLenLo := rfl
@[simp] theorem outldEffect_bufLenHi : (outldEffect s).bufLenHi = s.bufLenHi := rfl
@[simp] theorem outldEffect_offsetLo : (outldEffect s).offsetLo = s.offsetLo := rfl
@[simp] theorem outldEffect_offsetHi : (outldEffect s).offsetHi = s.offsetHi := rfl
@[simp] theorem outldEffect_lengthLo : (outldEffect s).lengthLo = s.lengthLo := rfl
@[simp] theorem outldEffect_lengthHi : (outldEffect s).lengthHi = s.lengthHi := rfl
@[simp] theorem outldEffect_digest : (outldEffect s).digest = s.digest := rfl
@[simp] theorem outldEffect_hout : (outldEffect s).hout = s.hout := rfl
@[simp] theorem outldEffect_hreg : (outldEffect s).hreg = s.hreg := rfl
@[simp] theorem outldEffect_mreg : (outldEffect s).mreg = s.mreg := rfl
@[simp] theorem outldEffect_pst : (outldEffect s).pst = s.hreg := rfl
@[simp] theorem outldEffect_qst : (outldEffect s).qst = s.qst := rfl
@[simp] theorem outldEffect_rdNext : (outldEffect s).rdNext = s.rdNext := rfl
@[simp] theorem outldEffect_rdLeft : (outldEffect s).rdLeft = s.rdLeft := rfl
@[simp] theorem outldEffect_pending : (outldEffect s).pending = s.pending := rfl
@[simp] theorem outldEffect_rdData : (outldEffect s).rdData = s.rdData := rfl
@[simp] theorem outldEffect_failed : (outldEffect s).failed = s.failed := rfl
@[simp] theorem outldEffect_stored : (outldEffect s).stored = s.stored := rfl
@[simp] theorem outldEffect_inReset : (outldEffect s).inReset = s.inReset := rfl
@[simp] theorem outldEffect_memRsp : (outldEffect s).memRsp = s.memRsp := rfl
@[simp] theorem outldEffect_memEvents : (outldEffect s).memEvents = s.memEvents := rfl
@[simp] theorem outldEffect_regRsp : (outldEffect s).regRsp = s.regRsp := rfl
@[simp] theorem outldEffect_mem : (outldEffect s).mem = s.mem := rfl
@[simp] theorem outldEffect_sideEffects : (outldEffect s).sideEffects = s.sideEffects := rfl
@[simp] theorem outldEffect_memAnswers : (outldEffect s).memAnswers = s.memAnswers := rfl
@[simp] theorem outldEffect_cut : (outldEffect s).cut = s.cut := rfl
@[simp] theorem outldEffect_draws : (outldEffect s).draws = s.draws := rfl
@[simp] theorem outldEffect_host : (outldEffect s).host = s.host := rfl
@[simp] theorem outldEffect_schedule : (outldEffect s).schedule = s.schedule := rfl

/-! ### outxEffect -/

@[simp] theorem outxEffect_ie : (outxEffect s).ie = s.ie := rfl
@[simp] theorem outxEffect_busy : (outxEffect s).busy = s.busy := rfl
@[simp] theorem outxEffect_done : (outxEffect s).done = s.done := rfl
@[simp] theorem outxEffect_valid : (outxEffect s).valid = s.valid := rfl
@[simp] theorem outxEffect_wbusy : (outxEffect s).wbusy = s.wbusy := rfl
@[simp] theorem outxEffect_err : (outxEffect s).err = s.err := rfl
@[simp] theorem outxEffect_cmd : (outxEffect s).cmd = s.cmd := rfl
@[simp] theorem outxEffect_srcAddrLo : (outxEffect s).srcAddrLo = s.srcAddrLo := rfl
@[simp] theorem outxEffect_srcAddrHi : (outxEffect s).srcAddrHi = s.srcAddrHi := rfl
@[simp] theorem outxEffect_bufLenLo : (outxEffect s).bufLenLo = s.bufLenLo := rfl
@[simp] theorem outxEffect_bufLenHi : (outxEffect s).bufLenHi = s.bufLenHi := rfl
@[simp] theorem outxEffect_offsetLo : (outxEffect s).offsetLo = s.offsetLo := rfl
@[simp] theorem outxEffect_offsetHi : (outxEffect s).offsetHi = s.offsetHi := rfl
@[simp] theorem outxEffect_lengthLo : (outxEffect s).lengthLo = s.lengthLo := rfl
@[simp] theorem outxEffect_lengthHi : (outxEffect s).lengthHi = s.lengthHi := rfl
@[simp] theorem outxEffect_digest : (outxEffect s).digest = s.digest := rfl
@[simp] theorem outxEffect_hout :
    (outxEffect s).hout = tabulate 64 fun k => byteAt s.pst (64 + k) ^^^ byteAt s.hreg (64 + k) := rfl
@[simp] theorem outxEffect_hreg : (outxEffect s).hreg = s.hreg := rfl
@[simp] theorem outxEffect_mreg : (outxEffect s).mreg = s.mreg := rfl
@[simp] theorem outxEffect_pst : (outxEffect s).pst = s.pst := rfl
@[simp] theorem outxEffect_qst : (outxEffect s).qst = s.qst := rfl
@[simp] theorem outxEffect_rdNext : (outxEffect s).rdNext = s.rdNext := rfl
@[simp] theorem outxEffect_rdLeft : (outxEffect s).rdLeft = s.rdLeft := rfl
@[simp] theorem outxEffect_pending : (outxEffect s).pending = s.pending := rfl
@[simp] theorem outxEffect_rdData : (outxEffect s).rdData = s.rdData := rfl
@[simp] theorem outxEffect_failed : (outxEffect s).failed = s.failed := rfl
@[simp] theorem outxEffect_stored : (outxEffect s).stored = s.stored := rfl
@[simp] theorem outxEffect_inReset : (outxEffect s).inReset = s.inReset := rfl
@[simp] theorem outxEffect_memRsp : (outxEffect s).memRsp = s.memRsp := rfl
@[simp] theorem outxEffect_memEvents : (outxEffect s).memEvents = s.memEvents := rfl
@[simp] theorem outxEffect_regRsp : (outxEffect s).regRsp = s.regRsp := rfl
@[simp] theorem outxEffect_mem : (outxEffect s).mem = s.mem := rfl
@[simp] theorem outxEffect_sideEffects : (outxEffect s).sideEffects = s.sideEffects := rfl
@[simp] theorem outxEffect_memAnswers : (outxEffect s).memAnswers = s.memAnswers := rfl
@[simp] theorem outxEffect_cut : (outxEffect s).cut = s.cut := rfl
@[simp] theorem outxEffect_draws : (outxEffect s).draws = s.draws := rfl
@[simp] theorem outxEffect_host : (outxEffect s).host = s.host := rfl
@[simp] theorem outxEffect_schedule : (outxEffect s).schedule = s.schedule := rfl

/-! ### omegaEffect -/

@[simp] theorem omegaEffect_ie : (omegaEffect s).ie = s.ie := rfl
@[simp] theorem omegaEffect_busy : (omegaEffect s).busy = s.busy := rfl
@[simp] theorem omegaEffect_done : (omegaEffect s).done = s.done := rfl
@[simp] theorem omegaEffect_valid : (omegaEffect s).valid = s.valid := rfl
@[simp] theorem omegaEffect_wbusy : (omegaEffect s).wbusy = s.wbusy := rfl
@[simp] theorem omegaEffect_err : (omegaEffect s).err = s.err := rfl
@[simp] theorem omegaEffect_cmd : (omegaEffect s).cmd = s.cmd := rfl
@[simp] theorem omegaEffect_srcAddrLo : (omegaEffect s).srcAddrLo = s.srcAddrLo := rfl
@[simp] theorem omegaEffect_srcAddrHi : (omegaEffect s).srcAddrHi = s.srcAddrHi := rfl
@[simp] theorem omegaEffect_bufLenLo : (omegaEffect s).bufLenLo = s.bufLenLo := rfl
@[simp] theorem omegaEffect_bufLenHi : (omegaEffect s).bufLenHi = s.bufLenHi := rfl
@[simp] theorem omegaEffect_offsetLo : (omegaEffect s).offsetLo = s.offsetLo := rfl
@[simp] theorem omegaEffect_offsetHi : (omegaEffect s).offsetHi = s.offsetHi := rfl
@[simp] theorem omegaEffect_lengthLo : (omegaEffect s).lengthLo = s.lengthLo := rfl
@[simp] theorem omegaEffect_lengthHi : (omegaEffect s).lengthHi = s.lengthHi := rfl
@[simp] theorem omegaEffect_digest : (omegaEffect s).digest = s.digest := rfl
@[simp] theorem omegaEffect_hout :
    (omegaEffect s).hout = tabulate 64 fun k => byteAt (permP s.hreg) (64 + k) ^^^ byteAt s.hreg (64 + k) := rfl
@[simp] theorem omegaEffect_hreg : (omegaEffect s).hreg = s.hreg := rfl
@[simp] theorem omegaEffect_mreg : (omegaEffect s).mreg = s.mreg := rfl
@[simp] theorem omegaEffect_pst : (omegaEffect s).pst = permP s.hreg := rfl
@[simp] theorem omegaEffect_qst : (omegaEffect s).qst = s.qst := rfl
@[simp] theorem omegaEffect_rdNext : (omegaEffect s).rdNext = s.rdNext := rfl
@[simp] theorem omegaEffect_rdLeft : (omegaEffect s).rdLeft = s.rdLeft := rfl
@[simp] theorem omegaEffect_pending : (omegaEffect s).pending = s.pending := rfl
@[simp] theorem omegaEffect_rdData : (omegaEffect s).rdData = s.rdData := rfl
@[simp] theorem omegaEffect_failed : (omegaEffect s).failed = s.failed := rfl
@[simp] theorem omegaEffect_stored : (omegaEffect s).stored = s.stored := rfl
@[simp] theorem omegaEffect_inReset : (omegaEffect s).inReset = s.inReset := rfl
@[simp] theorem omegaEffect_memRsp : (omegaEffect s).memRsp = s.memRsp := rfl
@[simp] theorem omegaEffect_memEvents : (omegaEffect s).memEvents = s.memEvents := rfl
@[simp] theorem omegaEffect_regRsp : (omegaEffect s).regRsp = s.regRsp := rfl
@[simp] theorem omegaEffect_mem : (omegaEffect s).mem = s.mem := rfl
@[simp] theorem omegaEffect_sideEffects : (omegaEffect s).sideEffects = s.sideEffects := rfl
@[simp] theorem omegaEffect_memAnswers : (omegaEffect s).memAnswers = s.memAnswers := rfl
@[simp] theorem omegaEffect_cut : (omegaEffect s).cut = s.cut := rfl
@[simp] theorem omegaEffect_draws : (omegaEffect s).draws = s.draws := rfl
@[simp] theorem omegaEffect_host : (omegaEffect s).host = s.host := rfl
@[simp] theorem omegaEffect_schedule : (omegaEffect s).schedule = s.schedule := rfl

/-! ### chainEffect -/

@[simp] theorem chainEffect_ie : (chainEffect s).ie = s.ie := rfl
@[simp] theorem chainEffect_busy : (chainEffect s).busy = s.busy := rfl
@[simp] theorem chainEffect_done : (chainEffect s).done = s.done := rfl
@[simp] theorem chainEffect_valid : (chainEffect s).valid = s.valid := rfl
@[simp] theorem chainEffect_wbusy : (chainEffect s).wbusy = s.wbusy := rfl
@[simp] theorem chainEffect_err : (chainEffect s).err = s.err := rfl
@[simp] theorem chainEffect_cmd : (chainEffect s).cmd = s.cmd := rfl
@[simp] theorem chainEffect_srcAddrLo : (chainEffect s).srcAddrLo = s.srcAddrLo := rfl
@[simp] theorem chainEffect_srcAddrHi : (chainEffect s).srcAddrHi = s.srcAddrHi := rfl
@[simp] theorem chainEffect_bufLenLo : (chainEffect s).bufLenLo = s.bufLenLo := rfl
@[simp] theorem chainEffect_bufLenHi : (chainEffect s).bufLenHi = s.bufLenHi := rfl
@[simp] theorem chainEffect_offsetLo : (chainEffect s).offsetLo = s.offsetLo := rfl
@[simp] theorem chainEffect_offsetHi : (chainEffect s).offsetHi = s.offsetHi := rfl
@[simp] theorem chainEffect_lengthLo : (chainEffect s).lengthLo = s.lengthLo := rfl
@[simp] theorem chainEffect_lengthHi : (chainEffect s).lengthHi = s.lengthHi := rfl
@[simp] theorem chainEffect_digest : (chainEffect s).digest = s.digest := rfl
@[simp] theorem chainEffect_hout : (chainEffect s).hout = s.hout := rfl
@[simp] theorem chainEffect_hreg : (chainEffect s).hreg = s.hreg := rfl
@[simp] theorem chainEffect_mreg : (chainEffect s).mreg = chainBlock s.hout := rfl
@[simp] theorem chainEffect_pst : (chainEffect s).pst = s.pst := rfl
@[simp] theorem chainEffect_qst : (chainEffect s).qst = s.qst := rfl
@[simp] theorem chainEffect_rdNext : (chainEffect s).rdNext = s.rdNext := rfl
@[simp] theorem chainEffect_rdLeft : (chainEffect s).rdLeft = s.rdLeft := rfl
@[simp] theorem chainEffect_pending : (chainEffect s).pending = s.pending := rfl
@[simp] theorem chainEffect_rdData : (chainEffect s).rdData = s.rdData := rfl
@[simp] theorem chainEffect_failed : (chainEffect s).failed = s.failed := rfl
@[simp] theorem chainEffect_stored : (chainEffect s).stored = s.stored := rfl
@[simp] theorem chainEffect_inReset : (chainEffect s).inReset = s.inReset := rfl
@[simp] theorem chainEffect_memRsp : (chainEffect s).memRsp = s.memRsp := rfl
@[simp] theorem chainEffect_memEvents : (chainEffect s).memEvents = s.memEvents := rfl
@[simp] theorem chainEffect_regRsp : (chainEffect s).regRsp = s.regRsp := rfl
@[simp] theorem chainEffect_mem : (chainEffect s).mem = s.mem := rfl
@[simp] theorem chainEffect_sideEffects : (chainEffect s).sideEffects = s.sideEffects := rfl
@[simp] theorem chainEffect_memAnswers : (chainEffect s).memAnswers = s.memAnswers := rfl
@[simp] theorem chainEffect_cut : (chainEffect s).cut = s.cut := rfl
@[simp] theorem chainEffect_draws : (chainEffect s).draws = s.draws := rfl
@[simp] theorem chainEffect_host : (chainEffect s).host = s.host := rfl
@[simp] theorem chainEffect_schedule : (chainEffect s).schedule = s.schedule := rfl

/-! ### truncEffect -/

@[simp] theorem truncEffect_ie : (truncEffect s).ie = s.ie := rfl
@[simp] theorem truncEffect_busy : (truncEffect s).busy = s.busy := rfl
@[simp] theorem truncEffect_done : (truncEffect s).done = s.done := rfl
@[simp] theorem truncEffect_valid : (truncEffect s).valid = s.valid := rfl
@[simp] theorem truncEffect_wbusy : (truncEffect s).wbusy = s.wbusy := rfl
@[simp] theorem truncEffect_err : (truncEffect s).err = s.err := rfl
@[simp] theorem truncEffect_cmd : (truncEffect s).cmd = s.cmd := rfl
@[simp] theorem truncEffect_srcAddrLo : (truncEffect s).srcAddrLo = s.srcAddrLo := rfl
@[simp] theorem truncEffect_srcAddrHi : (truncEffect s).srcAddrHi = s.srcAddrHi := rfl
@[simp] theorem truncEffect_bufLenLo : (truncEffect s).bufLenLo = s.bufLenLo := rfl
@[simp] theorem truncEffect_bufLenHi : (truncEffect s).bufLenHi = s.bufLenHi := rfl
@[simp] theorem truncEffect_offsetLo : (truncEffect s).offsetLo = s.offsetLo := rfl
@[simp] theorem truncEffect_offsetHi : (truncEffect s).offsetHi = s.offsetHi := rfl
@[simp] theorem truncEffect_lengthLo : (truncEffect s).lengthLo = s.lengthLo := rfl
@[simp] theorem truncEffect_lengthHi : (truncEffect s).lengthHi = s.lengthHi := rfl
@[simp] theorem truncEffect_digest : (truncEffect s).digest = trunc256 s.hout := rfl
@[simp] theorem truncEffect_hout : (truncEffect s).hout = s.hout := rfl
@[simp] theorem truncEffect_hreg : (truncEffect s).hreg = s.hreg := rfl
@[simp] theorem truncEffect_mreg : (truncEffect s).mreg = s.mreg := rfl
@[simp] theorem truncEffect_pst : (truncEffect s).pst = s.pst := rfl
@[simp] theorem truncEffect_qst : (truncEffect s).qst = s.qst := rfl
@[simp] theorem truncEffect_rdNext : (truncEffect s).rdNext = s.rdNext := rfl
@[simp] theorem truncEffect_rdLeft : (truncEffect s).rdLeft = s.rdLeft := rfl
@[simp] theorem truncEffect_pending : (truncEffect s).pending = s.pending := rfl
@[simp] theorem truncEffect_rdData : (truncEffect s).rdData = s.rdData := rfl
@[simp] theorem truncEffect_failed : (truncEffect s).failed = s.failed := rfl
@[simp] theorem truncEffect_stored : (truncEffect s).stored = s.stored := rfl
@[simp] theorem truncEffect_inReset : (truncEffect s).inReset = s.inReset := rfl
@[simp] theorem truncEffect_memRsp : (truncEffect s).memRsp = s.memRsp := rfl
@[simp] theorem truncEffect_memEvents : (truncEffect s).memEvents = s.memEvents := rfl
@[simp] theorem truncEffect_regRsp : (truncEffect s).regRsp = s.regRsp := rfl
@[simp] theorem truncEffect_mem : (truncEffect s).mem = s.mem := rfl
@[simp] theorem truncEffect_sideEffects : (truncEffect s).sideEffects = s.sideEffects := rfl
@[simp] theorem truncEffect_memAnswers : (truncEffect s).memAnswers = s.memAnswers := rfl
@[simp] theorem truncEffect_cut : (truncEffect s).cut = s.cut := rfl
@[simp] theorem truncEffect_draws : (truncEffect s).draws = s.draws := rfl
@[simp] theorem truncEffect_host : (truncEffect s).host = s.host := rfl
@[simp] theorem truncEffect_schedule : (truncEffect s).schedule = s.schedule := rfl

/-! ### receiveBytes -/

@[simp] theorem receiveBytes_ie (q : MemReq) (bs : List Byte) :
    (receiveBytes q bs s).ie = s.ie := rfl
@[simp] theorem receiveBytes_busy (q : MemReq) (bs : List Byte) :
    (receiveBytes q bs s).busy = s.busy := rfl
@[simp] theorem receiveBytes_done (q : MemReq) (bs : List Byte) :
    (receiveBytes q bs s).done = s.done := rfl
@[simp] theorem receiveBytes_valid (q : MemReq) (bs : List Byte) :
    (receiveBytes q bs s).valid = s.valid := rfl
@[simp] theorem receiveBytes_wbusy (q : MemReq) (bs : List Byte) :
    (receiveBytes q bs s).wbusy = s.wbusy := rfl
@[simp] theorem receiveBytes_err (q : MemReq) (bs : List Byte) :
    (receiveBytes q bs s).err = s.err := rfl
@[simp] theorem receiveBytes_cmd (q : MemReq) (bs : List Byte) :
    (receiveBytes q bs s).cmd = s.cmd := rfl
@[simp] theorem receiveBytes_srcAddrLo (q : MemReq) (bs : List Byte) :
    (receiveBytes q bs s).srcAddrLo = s.srcAddrLo := rfl
@[simp] theorem receiveBytes_srcAddrHi (q : MemReq) (bs : List Byte) :
    (receiveBytes q bs s).srcAddrHi = s.srcAddrHi := rfl
@[simp] theorem receiveBytes_bufLenLo (q : MemReq) (bs : List Byte) :
    (receiveBytes q bs s).bufLenLo = s.bufLenLo := rfl
@[simp] theorem receiveBytes_bufLenHi (q : MemReq) (bs : List Byte) :
    (receiveBytes q bs s).bufLenHi = s.bufLenHi := rfl
@[simp] theorem receiveBytes_offsetLo (q : MemReq) (bs : List Byte) :
    (receiveBytes q bs s).offsetLo = s.offsetLo := rfl
@[simp] theorem receiveBytes_offsetHi (q : MemReq) (bs : List Byte) :
    (receiveBytes q bs s).offsetHi = s.offsetHi := rfl
@[simp] theorem receiveBytes_lengthLo (q : MemReq) (bs : List Byte) :
    (receiveBytes q bs s).lengthLo = s.lengthLo := rfl
@[simp] theorem receiveBytes_lengthHi (q : MemReq) (bs : List Byte) :
    (receiveBytes q bs s).lengthHi = s.lengthHi := rfl
@[simp] theorem receiveBytes_digest (q : MemReq) (bs : List Byte) :
    (receiveBytes q bs s).digest = s.digest := rfl
@[simp] theorem receiveBytes_hout (q : MemReq) (bs : List Byte) :
    (receiveBytes q bs s).hout = s.hout := rfl
@[simp] theorem receiveBytes_hreg (q : MemReq) (bs : List Byte) :
    (receiveBytes q bs s).hreg = s.hreg := rfl
@[simp] theorem receiveBytes_mreg (q : MemReq) (bs : List Byte) :
    (receiveBytes q bs s).mreg = s.mreg := rfl
@[simp] theorem receiveBytes_pst (q : MemReq) (bs : List Byte) :
    (receiveBytes q bs s).pst = s.pst := rfl
@[simp] theorem receiveBytes_qst (q : MemReq) (bs : List Byte) :
    (receiveBytes q bs s).qst = s.qst := rfl
@[simp] theorem receiveBytes_rdNext (q : MemReq) (bs : List Byte) :
    (receiveBytes q bs s).rdNext = s.rdNext + q.len := rfl
@[simp] theorem receiveBytes_rdLeft (q : MemReq) (bs : List Byte) :
    (receiveBytes q bs s).rdLeft = s.rdLeft - q.len := rfl
@[simp] theorem receiveBytes_pending (q : MemReq) (bs : List Byte) :
    (receiveBytes q bs s).pending = none := rfl
@[simp] theorem receiveBytes_rdData (q : MemReq) (bs : List Byte) :
    (receiveBytes q bs s).rdData = s.rdData ++ bs := rfl
@[simp] theorem receiveBytes_failed (q : MemReq) (bs : List Byte) :
    (receiveBytes q bs s).failed = s.failed := rfl
@[simp] theorem receiveBytes_stored (q : MemReq) (bs : List Byte) :
    (receiveBytes q bs s).stored = s.stored := rfl
@[simp] theorem receiveBytes_inReset (q : MemReq) (bs : List Byte) :
    (receiveBytes q bs s).inReset = s.inReset := rfl
@[simp] theorem receiveBytes_memRsp (q : MemReq) (bs : List Byte) :
    (receiveBytes q bs s).memRsp = none := rfl
@[simp] theorem receiveBytes_memEvents (q : MemReq) (bs : List Byte) :
    (receiveBytes q bs s).memEvents = s.memEvents ++ [{ req := q, answer := .ok bs }] := rfl
@[simp] theorem receiveBytes_regRsp (q : MemReq) (bs : List Byte) :
    (receiveBytes q bs s).regRsp = s.regRsp := rfl
@[simp] theorem receiveBytes_mem (q : MemReq) (bs : List Byte) :
    (receiveBytes q bs s).mem = s.mem := rfl
@[simp] theorem receiveBytes_sideEffects (q : MemReq) (bs : List Byte) :
    (receiveBytes q bs s).sideEffects = s.sideEffects := rfl
@[simp] theorem receiveBytes_memAnswers (q : MemReq) (bs : List Byte) :
    (receiveBytes q bs s).memAnswers = s.memAnswers := rfl
@[simp] theorem receiveBytes_cut (q : MemReq) (bs : List Byte) :
    (receiveBytes q bs s).cut = s.cut := rfl
@[simp] theorem receiveBytes_draws (q : MemReq) (bs : List Byte) :
    (receiveBytes q bs s).draws = s.draws := rfl
@[simp] theorem receiveBytes_host (q : MemReq) (bs : List Byte) :
    (receiveBytes q bs s).host = s.host := rfl
@[simp] theorem receiveBytes_schedule (q : MemReq) (bs : List Byte) :
    (receiveBytes q bs s).schedule = s.schedule := rfl

/-! ### recordRead -/

@[simp] theorem recordRead_ie (q : MemReq) (rsp : MemRsp) : (recordRead q rsp s).ie = s.ie := rfl
@[simp] theorem recordRead_busy (q : MemReq) (rsp : MemRsp) :
    (recordRead q rsp s).busy = s.busy := rfl
@[simp] theorem recordRead_done (q : MemReq) (rsp : MemRsp) :
    (recordRead q rsp s).done = s.done := rfl
@[simp] theorem recordRead_valid (q : MemReq) (rsp : MemRsp) :
    (recordRead q rsp s).valid = s.valid := rfl
@[simp] theorem recordRead_wbusy (q : MemReq) (rsp : MemRsp) :
    (recordRead q rsp s).wbusy = s.wbusy := rfl
@[simp] theorem recordRead_err (q : MemReq) (rsp : MemRsp) : (recordRead q rsp s).err = s.err := rfl
@[simp] theorem recordRead_cmd (q : MemReq) (rsp : MemRsp) : (recordRead q rsp s).cmd = s.cmd := rfl
@[simp] theorem recordRead_srcAddrLo (q : MemReq) (rsp : MemRsp) :
    (recordRead q rsp s).srcAddrLo = s.srcAddrLo := rfl
@[simp] theorem recordRead_srcAddrHi (q : MemReq) (rsp : MemRsp) :
    (recordRead q rsp s).srcAddrHi = s.srcAddrHi := rfl
@[simp] theorem recordRead_bufLenLo (q : MemReq) (rsp : MemRsp) :
    (recordRead q rsp s).bufLenLo = s.bufLenLo := rfl
@[simp] theorem recordRead_bufLenHi (q : MemReq) (rsp : MemRsp) :
    (recordRead q rsp s).bufLenHi = s.bufLenHi := rfl
@[simp] theorem recordRead_offsetLo (q : MemReq) (rsp : MemRsp) :
    (recordRead q rsp s).offsetLo = s.offsetLo := rfl
@[simp] theorem recordRead_offsetHi (q : MemReq) (rsp : MemRsp) :
    (recordRead q rsp s).offsetHi = s.offsetHi := rfl
@[simp] theorem recordRead_lengthLo (q : MemReq) (rsp : MemRsp) :
    (recordRead q rsp s).lengthLo = s.lengthLo := rfl
@[simp] theorem recordRead_lengthHi (q : MemReq) (rsp : MemRsp) :
    (recordRead q rsp s).lengthHi = s.lengthHi := rfl
@[simp] theorem recordRead_digest (q : MemReq) (rsp : MemRsp) :
    (recordRead q rsp s).digest = s.digest := rfl
@[simp] theorem recordRead_hout (q : MemReq) (rsp : MemRsp) :
    (recordRead q rsp s).hout = s.hout := rfl
@[simp] theorem recordRead_hreg (q : MemReq) (rsp : MemRsp) :
    (recordRead q rsp s).hreg = s.hreg := rfl
@[simp] theorem recordRead_mreg (q : MemReq) (rsp : MemRsp) :
    (recordRead q rsp s).mreg = s.mreg := rfl
@[simp] theorem recordRead_pst (q : MemReq) (rsp : MemRsp) : (recordRead q rsp s).pst = s.pst := rfl
@[simp] theorem recordRead_qst (q : MemReq) (rsp : MemRsp) : (recordRead q rsp s).qst = s.qst := rfl
@[simp] theorem recordRead_rdNext (q : MemReq) (rsp : MemRsp) :
    (recordRead q rsp s).rdNext = s.rdNext := rfl
@[simp] theorem recordRead_rdLeft (q : MemReq) (rsp : MemRsp) :
    (recordRead q rsp s).rdLeft = s.rdLeft := rfl
@[simp] theorem recordRead_pending (q : MemReq) (rsp : MemRsp) :
    (recordRead q rsp s).pending = none := rfl
@[simp] theorem recordRead_rdData (q : MemReq) (rsp : MemRsp) :
    (recordRead q rsp s).rdData = s.rdData := rfl
@[simp] theorem recordRead_failed (q : MemReq) (rsp : MemRsp) :
    (recordRead q rsp s).failed = s.failed := rfl
@[simp] theorem recordRead_stored (q : MemReq) (rsp : MemRsp) :
    (recordRead q rsp s).stored = s.stored := rfl
@[simp] theorem recordRead_inReset (q : MemReq) (rsp : MemRsp) :
    (recordRead q rsp s).inReset = s.inReset := rfl
@[simp] theorem recordRead_memRsp (q : MemReq) (rsp : MemRsp) :
    (recordRead q rsp s).memRsp = none := rfl
@[simp] theorem recordRead_memEvents (q : MemReq) (rsp : MemRsp) :
    (recordRead q rsp s).memEvents = s.memEvents ++ [{ req := q, answer := rsp }] := rfl
@[simp] theorem recordRead_regRsp (q : MemReq) (rsp : MemRsp) :
    (recordRead q rsp s).regRsp = s.regRsp := rfl
@[simp] theorem recordRead_mem (q : MemReq) (rsp : MemRsp) : (recordRead q rsp s).mem = s.mem := rfl
@[simp] theorem recordRead_sideEffects (q : MemReq) (rsp : MemRsp) :
    (recordRead q rsp s).sideEffects = s.sideEffects := rfl
@[simp] theorem recordRead_memAnswers (q : MemReq) (rsp : MemRsp) :
    (recordRead q rsp s).memAnswers = s.memAnswers := rfl
@[simp] theorem recordRead_cut (q : MemReq) (rsp : MemRsp) : (recordRead q rsp s).cut = s.cut := rfl
@[simp] theorem recordRead_draws (q : MemReq) (rsp : MemRsp) :
    (recordRead q rsp s).draws = s.draws := rfl
@[simp] theorem recordRead_host (q : MemReq) (rsp : MemRsp) :
    (recordRead q rsp s).host = s.host := rfl
@[simp] theorem recordRead_schedule (q : MemReq) (rsp : MemRsp) :
    (recordRead q rsp s).schedule = s.schedule := rfl

/-! ### receiveError -/

@[simp] theorem receiveError_ie (q : MemReq) : (receiveError q s).ie = s.ie := rfl
@[simp] theorem receiveError_busy (q : MemReq) : (receiveError q s).busy = s.busy := rfl
@[simp] theorem receiveError_done (q : MemReq) : (receiveError q s).done = s.done := rfl
@[simp] theorem receiveError_valid (q : MemReq) : (receiveError q s).valid = s.valid := rfl
@[simp] theorem receiveError_wbusy (q : MemReq) : (receiveError q s).wbusy = s.wbusy := rfl
@[simp] theorem receiveError_err (q : MemReq) : (receiveError q s).err = s.err := rfl
@[simp] theorem receiveError_cmd (q : MemReq) : (receiveError q s).cmd = s.cmd := rfl
@[simp] theorem receiveError_srcAddrLo (q : MemReq) :
    (receiveError q s).srcAddrLo = s.srcAddrLo := rfl
@[simp] theorem receiveError_srcAddrHi (q : MemReq) :
    (receiveError q s).srcAddrHi = s.srcAddrHi := rfl
@[simp] theorem receiveError_bufLenLo (q : MemReq) : (receiveError q s).bufLenLo = s.bufLenLo := rfl
@[simp] theorem receiveError_bufLenHi (q : MemReq) : (receiveError q s).bufLenHi = s.bufLenHi := rfl
@[simp] theorem receiveError_offsetLo (q : MemReq) : (receiveError q s).offsetLo = s.offsetLo := rfl
@[simp] theorem receiveError_offsetHi (q : MemReq) : (receiveError q s).offsetHi = s.offsetHi := rfl
@[simp] theorem receiveError_lengthLo (q : MemReq) : (receiveError q s).lengthLo = s.lengthLo := rfl
@[simp] theorem receiveError_lengthHi (q : MemReq) : (receiveError q s).lengthHi = s.lengthHi := rfl
@[simp] theorem receiveError_digest (q : MemReq) : (receiveError q s).digest = s.digest := rfl
@[simp] theorem receiveError_hout (q : MemReq) : (receiveError q s).hout = s.hout := rfl
@[simp] theorem receiveError_hreg (q : MemReq) : (receiveError q s).hreg = s.hreg := rfl
@[simp] theorem receiveError_mreg (q : MemReq) : (receiveError q s).mreg = s.mreg := rfl
@[simp] theorem receiveError_pst (q : MemReq) : (receiveError q s).pst = s.pst := rfl
@[simp] theorem receiveError_qst (q : MemReq) : (receiveError q s).qst = s.qst := rfl
@[simp] theorem receiveError_rdNext (q : MemReq) : (receiveError q s).rdNext = s.rdNext := rfl
@[simp] theorem receiveError_rdLeft (q : MemReq) : (receiveError q s).rdLeft = s.rdLeft := rfl
@[simp] theorem receiveError_pending (q : MemReq) : (receiveError q s).pending = none := rfl
@[simp] theorem receiveError_rdData (q : MemReq) : (receiveError q s).rdData = s.rdData := rfl
@[simp] theorem receiveError_failed (q : MemReq) : (receiveError q s).failed = true := rfl
@[simp] theorem receiveError_stored (q : MemReq) : (receiveError q s).stored = s.stored := rfl
@[simp] theorem receiveError_inReset (q : MemReq) : (receiveError q s).inReset = s.inReset := rfl
@[simp] theorem receiveError_memRsp (q : MemReq) : (receiveError q s).memRsp = none := rfl
@[simp] theorem receiveError_memEvents (q : MemReq) :
    (receiveError q s).memEvents = s.memEvents ++ [{ req := q, answer := .buserr }] := rfl
@[simp] theorem receiveError_regRsp (q : MemReq) : (receiveError q s).regRsp = s.regRsp := rfl
@[simp] theorem receiveError_mem (q : MemReq) : (receiveError q s).mem = s.mem := rfl
@[simp] theorem receiveError_sideEffects (q : MemReq) :
    (receiveError q s).sideEffects = s.sideEffects := rfl
@[simp] theorem receiveError_memAnswers (q : MemReq) :
    (receiveError q s).memAnswers = s.memAnswers := rfl
@[simp] theorem receiveError_cut (q : MemReq) : (receiveError q s).cut = s.cut := rfl
@[simp] theorem receiveError_draws (q : MemReq) : (receiveError q s).draws = s.draws := rfl
@[simp] theorem receiveError_host (q : MemReq) : (receiveError q s).host = s.host := rfl
@[simp] theorem receiveError_schedule (q : MemReq) : (receiveError q s).schedule = s.schedule := rfl

/-! ### countDraw -/

@[simp] theorem countDraw_ie : (countDraw s).ie = s.ie := rfl
@[simp] theorem countDraw_busy : (countDraw s).busy = s.busy := rfl
@[simp] theorem countDraw_done : (countDraw s).done = s.done := rfl
@[simp] theorem countDraw_valid : (countDraw s).valid = s.valid := rfl
@[simp] theorem countDraw_wbusy : (countDraw s).wbusy = s.wbusy := rfl
@[simp] theorem countDraw_err : (countDraw s).err = s.err := rfl
@[simp] theorem countDraw_cmd : (countDraw s).cmd = s.cmd := rfl
@[simp] theorem countDraw_srcAddrLo : (countDraw s).srcAddrLo = s.srcAddrLo := rfl
@[simp] theorem countDraw_srcAddrHi : (countDraw s).srcAddrHi = s.srcAddrHi := rfl
@[simp] theorem countDraw_bufLenLo : (countDraw s).bufLenLo = s.bufLenLo := rfl
@[simp] theorem countDraw_bufLenHi : (countDraw s).bufLenHi = s.bufLenHi := rfl
@[simp] theorem countDraw_offsetLo : (countDraw s).offsetLo = s.offsetLo := rfl
@[simp] theorem countDraw_offsetHi : (countDraw s).offsetHi = s.offsetHi := rfl
@[simp] theorem countDraw_lengthLo : (countDraw s).lengthLo = s.lengthLo := rfl
@[simp] theorem countDraw_lengthHi : (countDraw s).lengthHi = s.lengthHi := rfl
@[simp] theorem countDraw_digest : (countDraw s).digest = s.digest := rfl
@[simp] theorem countDraw_hout : (countDraw s).hout = s.hout := rfl
@[simp] theorem countDraw_hreg : (countDraw s).hreg = s.hreg := rfl
@[simp] theorem countDraw_mreg : (countDraw s).mreg = s.mreg := rfl
@[simp] theorem countDraw_pst : (countDraw s).pst = s.pst := rfl
@[simp] theorem countDraw_qst : (countDraw s).qst = s.qst := rfl
@[simp] theorem countDraw_rdNext : (countDraw s).rdNext = s.rdNext := rfl
@[simp] theorem countDraw_rdLeft : (countDraw s).rdLeft = s.rdLeft := rfl
@[simp] theorem countDraw_pending : (countDraw s).pending = s.pending := rfl
@[simp] theorem countDraw_rdData : (countDraw s).rdData = s.rdData := rfl
@[simp] theorem countDraw_failed : (countDraw s).failed = s.failed := rfl
@[simp] theorem countDraw_stored : (countDraw s).stored = s.stored := rfl
@[simp] theorem countDraw_inReset : (countDraw s).inReset = s.inReset := rfl
@[simp] theorem countDraw_memRsp : (countDraw s).memRsp = s.memRsp := rfl
@[simp] theorem countDraw_memEvents : (countDraw s).memEvents = s.memEvents := rfl
@[simp] theorem countDraw_regRsp : (countDraw s).regRsp = s.regRsp := rfl
@[simp] theorem countDraw_mem : (countDraw s).mem = s.mem := rfl
@[simp] theorem countDraw_sideEffects : (countDraw s).sideEffects = s.sideEffects := rfl
@[simp] theorem countDraw_memAnswers : (countDraw s).memAnswers = s.memAnswers := rfl
@[simp] theorem countDraw_cut : (countDraw s).cut = s.cut := rfl
@[simp] theorem countDraw_draws : (countDraw s).draws = s.draws + 1 := rfl
@[simp] theorem countDraw_host : (countDraw s).host = s.host := rfl
@[simp] theorem countDraw_schedule : (countDraw s).schedule = s.schedule := rfl

/-! ### setRequest -/

@[simp] theorem setRequest_ie (q : MemReq) : (setRequest q s).ie = s.ie := rfl
@[simp] theorem setRequest_busy (q : MemReq) : (setRequest q s).busy = s.busy := rfl
@[simp] theorem setRequest_done (q : MemReq) : (setRequest q s).done = s.done := rfl
@[simp] theorem setRequest_valid (q : MemReq) : (setRequest q s).valid = s.valid := rfl
@[simp] theorem setRequest_wbusy (q : MemReq) : (setRequest q s).wbusy = s.wbusy := rfl
@[simp] theorem setRequest_err (q : MemReq) : (setRequest q s).err = s.err := rfl
@[simp] theorem setRequest_cmd (q : MemReq) : (setRequest q s).cmd = s.cmd := rfl
@[simp] theorem setRequest_srcAddrLo (q : MemReq) : (setRequest q s).srcAddrLo = s.srcAddrLo := rfl
@[simp] theorem setRequest_srcAddrHi (q : MemReq) : (setRequest q s).srcAddrHi = s.srcAddrHi := rfl
@[simp] theorem setRequest_bufLenLo (q : MemReq) : (setRequest q s).bufLenLo = s.bufLenLo := rfl
@[simp] theorem setRequest_bufLenHi (q : MemReq) : (setRequest q s).bufLenHi = s.bufLenHi := rfl
@[simp] theorem setRequest_offsetLo (q : MemReq) : (setRequest q s).offsetLo = s.offsetLo := rfl
@[simp] theorem setRequest_offsetHi (q : MemReq) : (setRequest q s).offsetHi = s.offsetHi := rfl
@[simp] theorem setRequest_lengthLo (q : MemReq) : (setRequest q s).lengthLo = s.lengthLo := rfl
@[simp] theorem setRequest_lengthHi (q : MemReq) : (setRequest q s).lengthHi = s.lengthHi := rfl
@[simp] theorem setRequest_digest (q : MemReq) : (setRequest q s).digest = s.digest := rfl
@[simp] theorem setRequest_hout (q : MemReq) : (setRequest q s).hout = s.hout := rfl
@[simp] theorem setRequest_hreg (q : MemReq) : (setRequest q s).hreg = s.hreg := rfl
@[simp] theorem setRequest_mreg (q : MemReq) : (setRequest q s).mreg = s.mreg := rfl
@[simp] theorem setRequest_pst (q : MemReq) : (setRequest q s).pst = s.pst := rfl
@[simp] theorem setRequest_qst (q : MemReq) : (setRequest q s).qst = s.qst := rfl
@[simp] theorem setRequest_rdNext (q : MemReq) : (setRequest q s).rdNext = s.rdNext := rfl
@[simp] theorem setRequest_rdLeft (q : MemReq) : (setRequest q s).rdLeft = s.rdLeft := rfl
@[simp] theorem setRequest_pending (q : MemReq) : (setRequest q s).pending = some q := rfl
@[simp] theorem setRequest_rdData (q : MemReq) : (setRequest q s).rdData = s.rdData := rfl
@[simp] theorem setRequest_failed (q : MemReq) : (setRequest q s).failed = s.failed := rfl
@[simp] theorem setRequest_stored (q : MemReq) : (setRequest q s).stored = s.stored := rfl
@[simp] theorem setRequest_inReset (q : MemReq) : (setRequest q s).inReset = s.inReset := rfl
@[simp] theorem setRequest_memRsp (q : MemReq) : (setRequest q s).memRsp = none := rfl
@[simp] theorem setRequest_memEvents (q : MemReq) : (setRequest q s).memEvents = s.memEvents := rfl
@[simp] theorem setRequest_regRsp (q : MemReq) : (setRequest q s).regRsp = s.regRsp := rfl
@[simp] theorem setRequest_mem (q : MemReq) : (setRequest q s).mem = s.mem := rfl
@[simp] theorem setRequest_sideEffects (q : MemReq) :
    (setRequest q s).sideEffects = s.sideEffects := rfl
@[simp] theorem setRequest_memAnswers (q : MemReq) :
    (setRequest q s).memAnswers = s.memAnswers := rfl
@[simp] theorem setRequest_cut (q : MemReq) : (setRequest q s).cut = s.cut := rfl
@[simp] theorem setRequest_draws (q : MemReq) : (setRequest q s).draws = s.draws := rfl
@[simp] theorem setRequest_host (q : MemReq) : (setRequest q s).host = s.host := rfl
@[simp] theorem setRequest_schedule (q : MemReq) : (setRequest q s).schedule = s.schedule := rfl

/-! ### setMemRsp -/

@[simp] theorem setMemRsp_ie (rsp : MemRsp) : (setMemRsp rsp s).ie = s.ie := rfl
@[simp] theorem setMemRsp_busy (rsp : MemRsp) : (setMemRsp rsp s).busy = s.busy := rfl
@[simp] theorem setMemRsp_done (rsp : MemRsp) : (setMemRsp rsp s).done = s.done := rfl
@[simp] theorem setMemRsp_valid (rsp : MemRsp) : (setMemRsp rsp s).valid = s.valid := rfl
@[simp] theorem setMemRsp_wbusy (rsp : MemRsp) : (setMemRsp rsp s).wbusy = s.wbusy := rfl
@[simp] theorem setMemRsp_err (rsp : MemRsp) : (setMemRsp rsp s).err = s.err := rfl
@[simp] theorem setMemRsp_cmd (rsp : MemRsp) : (setMemRsp rsp s).cmd = s.cmd := rfl
@[simp] theorem setMemRsp_srcAddrLo (rsp : MemRsp) :
    (setMemRsp rsp s).srcAddrLo = s.srcAddrLo := rfl
@[simp] theorem setMemRsp_srcAddrHi (rsp : MemRsp) :
    (setMemRsp rsp s).srcAddrHi = s.srcAddrHi := rfl
@[simp] theorem setMemRsp_bufLenLo (rsp : MemRsp) : (setMemRsp rsp s).bufLenLo = s.bufLenLo := rfl
@[simp] theorem setMemRsp_bufLenHi (rsp : MemRsp) : (setMemRsp rsp s).bufLenHi = s.bufLenHi := rfl
@[simp] theorem setMemRsp_offsetLo (rsp : MemRsp) : (setMemRsp rsp s).offsetLo = s.offsetLo := rfl
@[simp] theorem setMemRsp_offsetHi (rsp : MemRsp) : (setMemRsp rsp s).offsetHi = s.offsetHi := rfl
@[simp] theorem setMemRsp_lengthLo (rsp : MemRsp) : (setMemRsp rsp s).lengthLo = s.lengthLo := rfl
@[simp] theorem setMemRsp_lengthHi (rsp : MemRsp) : (setMemRsp rsp s).lengthHi = s.lengthHi := rfl
@[simp] theorem setMemRsp_digest (rsp : MemRsp) : (setMemRsp rsp s).digest = s.digest := rfl
@[simp] theorem setMemRsp_hout (rsp : MemRsp) : (setMemRsp rsp s).hout = s.hout := rfl
@[simp] theorem setMemRsp_hreg (rsp : MemRsp) : (setMemRsp rsp s).hreg = s.hreg := rfl
@[simp] theorem setMemRsp_mreg (rsp : MemRsp) : (setMemRsp rsp s).mreg = s.mreg := rfl
@[simp] theorem setMemRsp_pst (rsp : MemRsp) : (setMemRsp rsp s).pst = s.pst := rfl
@[simp] theorem setMemRsp_qst (rsp : MemRsp) : (setMemRsp rsp s).qst = s.qst := rfl
@[simp] theorem setMemRsp_rdNext (rsp : MemRsp) : (setMemRsp rsp s).rdNext = s.rdNext := rfl
@[simp] theorem setMemRsp_rdLeft (rsp : MemRsp) : (setMemRsp rsp s).rdLeft = s.rdLeft := rfl
@[simp] theorem setMemRsp_pending (rsp : MemRsp) : (setMemRsp rsp s).pending = s.pending := rfl
@[simp] theorem setMemRsp_rdData (rsp : MemRsp) : (setMemRsp rsp s).rdData = s.rdData := rfl
@[simp] theorem setMemRsp_failed (rsp : MemRsp) : (setMemRsp rsp s).failed = s.failed := rfl
@[simp] theorem setMemRsp_stored (rsp : MemRsp) : (setMemRsp rsp s).stored = s.stored := rfl
@[simp] theorem setMemRsp_inReset (rsp : MemRsp) : (setMemRsp rsp s).inReset = s.inReset := rfl
@[simp] theorem setMemRsp_memRsp (rsp : MemRsp) : (setMemRsp rsp s).memRsp = some rsp := rfl
@[simp] theorem setMemRsp_memEvents (rsp : MemRsp) :
    (setMemRsp rsp s).memEvents = s.memEvents := rfl
@[simp] theorem setMemRsp_regRsp (rsp : MemRsp) : (setMemRsp rsp s).regRsp = s.regRsp := rfl
@[simp] theorem setMemRsp_mem (rsp : MemRsp) : (setMemRsp rsp s).mem = s.mem := rfl
@[simp] theorem setMemRsp_sideEffects (rsp : MemRsp) :
    (setMemRsp rsp s).sideEffects = s.sideEffects := rfl
@[simp] theorem setMemRsp_memAnswers (rsp : MemRsp) :
    (setMemRsp rsp s).memAnswers = s.memAnswers := rfl
@[simp] theorem setMemRsp_cut (rsp : MemRsp) : (setMemRsp rsp s).cut = s.cut := rfl
@[simp] theorem setMemRsp_draws (rsp : MemRsp) : (setMemRsp rsp s).draws = s.draws := rfl
@[simp] theorem setMemRsp_host (rsp : MemRsp) : (setMemRsp rsp s).host = s.host := rfl
@[simp] theorem setMemRsp_schedule (rsp : MemRsp) : (setMemRsp rsp s).schedule = s.schedule := rfl

/-! ### setPst -/

@[simp] theorem setPst_ie (v : Block) : (setPst v s).ie = s.ie := rfl
@[simp] theorem setPst_busy (v : Block) : (setPst v s).busy = s.busy := rfl
@[simp] theorem setPst_done (v : Block) : (setPst v s).done = s.done := rfl
@[simp] theorem setPst_valid (v : Block) : (setPst v s).valid = s.valid := rfl
@[simp] theorem setPst_wbusy (v : Block) : (setPst v s).wbusy = s.wbusy := rfl
@[simp] theorem setPst_err (v : Block) : (setPst v s).err = s.err := rfl
@[simp] theorem setPst_cmd (v : Block) : (setPst v s).cmd = s.cmd := rfl
@[simp] theorem setPst_srcAddrLo (v : Block) : (setPst v s).srcAddrLo = s.srcAddrLo := rfl
@[simp] theorem setPst_srcAddrHi (v : Block) : (setPst v s).srcAddrHi = s.srcAddrHi := rfl
@[simp] theorem setPst_bufLenLo (v : Block) : (setPst v s).bufLenLo = s.bufLenLo := rfl
@[simp] theorem setPst_bufLenHi (v : Block) : (setPst v s).bufLenHi = s.bufLenHi := rfl
@[simp] theorem setPst_offsetLo (v : Block) : (setPst v s).offsetLo = s.offsetLo := rfl
@[simp] theorem setPst_offsetHi (v : Block) : (setPst v s).offsetHi = s.offsetHi := rfl
@[simp] theorem setPst_lengthLo (v : Block) : (setPst v s).lengthLo = s.lengthLo := rfl
@[simp] theorem setPst_lengthHi (v : Block) : (setPst v s).lengthHi = s.lengthHi := rfl
@[simp] theorem setPst_digest (v : Block) : (setPst v s).digest = s.digest := rfl
@[simp] theorem setPst_hout (v : Block) : (setPst v s).hout = s.hout := rfl
@[simp] theorem setPst_hreg (v : Block) : (setPst v s).hreg = s.hreg := rfl
@[simp] theorem setPst_mreg (v : Block) : (setPst v s).mreg = s.mreg := rfl
@[simp] theorem setPst_pst (v : Block) : (setPst v s).pst = v := rfl
@[simp] theorem setPst_qst (v : Block) : (setPst v s).qst = s.qst := rfl
@[simp] theorem setPst_rdNext (v : Block) : (setPst v s).rdNext = s.rdNext := rfl
@[simp] theorem setPst_rdLeft (v : Block) : (setPst v s).rdLeft = s.rdLeft := rfl
@[simp] theorem setPst_pending (v : Block) : (setPst v s).pending = s.pending := rfl
@[simp] theorem setPst_rdData (v : Block) : (setPst v s).rdData = s.rdData := rfl
@[simp] theorem setPst_failed (v : Block) : (setPst v s).failed = s.failed := rfl
@[simp] theorem setPst_stored (v : Block) : (setPst v s).stored = s.stored := rfl
@[simp] theorem setPst_inReset (v : Block) : (setPst v s).inReset = s.inReset := rfl
@[simp] theorem setPst_memRsp (v : Block) : (setPst v s).memRsp = s.memRsp := rfl
@[simp] theorem setPst_memEvents (v : Block) : (setPst v s).memEvents = s.memEvents := rfl
@[simp] theorem setPst_regRsp (v : Block) : (setPst v s).regRsp = s.regRsp := rfl
@[simp] theorem setPst_mem (v : Block) : (setPst v s).mem = s.mem := rfl
@[simp] theorem setPst_sideEffects (v : Block) : (setPst v s).sideEffects = s.sideEffects := rfl
@[simp] theorem setPst_memAnswers (v : Block) : (setPst v s).memAnswers = s.memAnswers := rfl
@[simp] theorem setPst_cut (v : Block) : (setPst v s).cut = s.cut := rfl
@[simp] theorem setPst_draws (v : Block) : (setPst v s).draws = s.draws := rfl
@[simp] theorem setPst_host (v : Block) : (setPst v s).host = s.host := rfl
@[simp] theorem setPst_schedule (v : Block) : (setPst v s).schedule = s.schedule := rfl

/-! ### setQst -/

@[simp] theorem setQst_ie (v : Block) : (setQst v s).ie = s.ie := rfl
@[simp] theorem setQst_busy (v : Block) : (setQst v s).busy = s.busy := rfl
@[simp] theorem setQst_done (v : Block) : (setQst v s).done = s.done := rfl
@[simp] theorem setQst_valid (v : Block) : (setQst v s).valid = s.valid := rfl
@[simp] theorem setQst_wbusy (v : Block) : (setQst v s).wbusy = s.wbusy := rfl
@[simp] theorem setQst_err (v : Block) : (setQst v s).err = s.err := rfl
@[simp] theorem setQst_cmd (v : Block) : (setQst v s).cmd = s.cmd := rfl
@[simp] theorem setQst_srcAddrLo (v : Block) : (setQst v s).srcAddrLo = s.srcAddrLo := rfl
@[simp] theorem setQst_srcAddrHi (v : Block) : (setQst v s).srcAddrHi = s.srcAddrHi := rfl
@[simp] theorem setQst_bufLenLo (v : Block) : (setQst v s).bufLenLo = s.bufLenLo := rfl
@[simp] theorem setQst_bufLenHi (v : Block) : (setQst v s).bufLenHi = s.bufLenHi := rfl
@[simp] theorem setQst_offsetLo (v : Block) : (setQst v s).offsetLo = s.offsetLo := rfl
@[simp] theorem setQst_offsetHi (v : Block) : (setQst v s).offsetHi = s.offsetHi := rfl
@[simp] theorem setQst_lengthLo (v : Block) : (setQst v s).lengthLo = s.lengthLo := rfl
@[simp] theorem setQst_lengthHi (v : Block) : (setQst v s).lengthHi = s.lengthHi := rfl
@[simp] theorem setQst_digest (v : Block) : (setQst v s).digest = s.digest := rfl
@[simp] theorem setQst_hout (v : Block) : (setQst v s).hout = s.hout := rfl
@[simp] theorem setQst_hreg (v : Block) : (setQst v s).hreg = s.hreg := rfl
@[simp] theorem setQst_mreg (v : Block) : (setQst v s).mreg = s.mreg := rfl
@[simp] theorem setQst_pst (v : Block) : (setQst v s).pst = s.pst := rfl
@[simp] theorem setQst_qst (v : Block) : (setQst v s).qst = v := rfl
@[simp] theorem setQst_rdNext (v : Block) : (setQst v s).rdNext = s.rdNext := rfl
@[simp] theorem setQst_rdLeft (v : Block) : (setQst v s).rdLeft = s.rdLeft := rfl
@[simp] theorem setQst_pending (v : Block) : (setQst v s).pending = s.pending := rfl
@[simp] theorem setQst_rdData (v : Block) : (setQst v s).rdData = s.rdData := rfl
@[simp] theorem setQst_failed (v : Block) : (setQst v s).failed = s.failed := rfl
@[simp] theorem setQst_stored (v : Block) : (setQst v s).stored = s.stored := rfl
@[simp] theorem setQst_inReset (v : Block) : (setQst v s).inReset = s.inReset := rfl
@[simp] theorem setQst_memRsp (v : Block) : (setQst v s).memRsp = s.memRsp := rfl
@[simp] theorem setQst_memEvents (v : Block) : (setQst v s).memEvents = s.memEvents := rfl
@[simp] theorem setQst_regRsp (v : Block) : (setQst v s).regRsp = s.regRsp := rfl
@[simp] theorem setQst_mem (v : Block) : (setQst v s).mem = s.mem := rfl
@[simp] theorem setQst_sideEffects (v : Block) : (setQst v s).sideEffects = s.sideEffects := rfl
@[simp] theorem setQst_memAnswers (v : Block) : (setQst v s).memAnswers = s.memAnswers := rfl
@[simp] theorem setQst_cut (v : Block) : (setQst v s).cut = s.cut := rfl
@[simp] theorem setQst_draws (v : Block) : (setQst v s).draws = s.draws := rfl
@[simp] theorem setQst_host (v : Block) : (setQst v s).host = s.host := rfl
@[simp] theorem setQst_schedule (v : Block) : (setQst v s).schedule = s.schedule := rfl

/-! ### setCut -/

@[simp] theorem setCut_ie (c : Nat) : (setCut c s).ie = s.ie := rfl
@[simp] theorem setCut_busy (c : Nat) : (setCut c s).busy = s.busy := rfl
@[simp] theorem setCut_done (c : Nat) : (setCut c s).done = s.done := rfl
@[simp] theorem setCut_valid (c : Nat) : (setCut c s).valid = s.valid := rfl
@[simp] theorem setCut_wbusy (c : Nat) : (setCut c s).wbusy = s.wbusy := rfl
@[simp] theorem setCut_err (c : Nat) : (setCut c s).err = s.err := rfl
@[simp] theorem setCut_cmd (c : Nat) : (setCut c s).cmd = s.cmd := rfl
@[simp] theorem setCut_srcAddrLo (c : Nat) : (setCut c s).srcAddrLo = s.srcAddrLo := rfl
@[simp] theorem setCut_srcAddrHi (c : Nat) : (setCut c s).srcAddrHi = s.srcAddrHi := rfl
@[simp] theorem setCut_bufLenLo (c : Nat) : (setCut c s).bufLenLo = s.bufLenLo := rfl
@[simp] theorem setCut_bufLenHi (c : Nat) : (setCut c s).bufLenHi = s.bufLenHi := rfl
@[simp] theorem setCut_offsetLo (c : Nat) : (setCut c s).offsetLo = s.offsetLo := rfl
@[simp] theorem setCut_offsetHi (c : Nat) : (setCut c s).offsetHi = s.offsetHi := rfl
@[simp] theorem setCut_lengthLo (c : Nat) : (setCut c s).lengthLo = s.lengthLo := rfl
@[simp] theorem setCut_lengthHi (c : Nat) : (setCut c s).lengthHi = s.lengthHi := rfl
@[simp] theorem setCut_digest (c : Nat) : (setCut c s).digest = s.digest := rfl
@[simp] theorem setCut_hout (c : Nat) : (setCut c s).hout = s.hout := rfl
@[simp] theorem setCut_hreg (c : Nat) : (setCut c s).hreg = s.hreg := rfl
@[simp] theorem setCut_mreg (c : Nat) : (setCut c s).mreg = s.mreg := rfl
@[simp] theorem setCut_pst (c : Nat) : (setCut c s).pst = s.pst := rfl
@[simp] theorem setCut_qst (c : Nat) : (setCut c s).qst = s.qst := rfl
@[simp] theorem setCut_rdNext (c : Nat) : (setCut c s).rdNext = s.rdNext := rfl
@[simp] theorem setCut_rdLeft (c : Nat) : (setCut c s).rdLeft = s.rdLeft := rfl
@[simp] theorem setCut_pending (c : Nat) : (setCut c s).pending = s.pending := rfl
@[simp] theorem setCut_rdData (c : Nat) : (setCut c s).rdData = s.rdData := rfl
@[simp] theorem setCut_failed (c : Nat) : (setCut c s).failed = s.failed := rfl
@[simp] theorem setCut_stored (c : Nat) : (setCut c s).stored = s.stored := rfl
@[simp] theorem setCut_inReset (c : Nat) : (setCut c s).inReset = s.inReset := rfl
@[simp] theorem setCut_memRsp (c : Nat) : (setCut c s).memRsp = s.memRsp := rfl
@[simp] theorem setCut_memEvents (c : Nat) : (setCut c s).memEvents = s.memEvents := rfl
@[simp] theorem setCut_regRsp (c : Nat) : (setCut c s).regRsp = s.regRsp := rfl
@[simp] theorem setCut_mem (c : Nat) : (setCut c s).mem = s.mem := rfl
@[simp] theorem setCut_sideEffects (c : Nat) : (setCut c s).sideEffects = s.sideEffects := rfl
@[simp] theorem setCut_memAnswers (c : Nat) : (setCut c s).memAnswers = s.memAnswers := rfl
@[simp] theorem setCut_cut (c : Nat) : (setCut c s).cut = c := rfl
@[simp] theorem setCut_draws (c : Nat) : (setCut c s).draws = s.draws := rfl
@[simp] theorem setCut_host (c : Nat) : (setCut c s).host = s.host := rfl
@[simp] theorem setCut_schedule (c : Nat) : (setCut c s).schedule = s.schedule := rfl

/-! ### popTurn -/

@[simp] theorem popTurn_ie : (popTurn s).ie = s.ie := rfl
@[simp] theorem popTurn_busy : (popTurn s).busy = s.busy := rfl
@[simp] theorem popTurn_done : (popTurn s).done = s.done := rfl
@[simp] theorem popTurn_valid : (popTurn s).valid = s.valid := rfl
@[simp] theorem popTurn_wbusy : (popTurn s).wbusy = s.wbusy := rfl
@[simp] theorem popTurn_err : (popTurn s).err = s.err := rfl
@[simp] theorem popTurn_cmd : (popTurn s).cmd = s.cmd := rfl
@[simp] theorem popTurn_srcAddrLo : (popTurn s).srcAddrLo = s.srcAddrLo := rfl
@[simp] theorem popTurn_srcAddrHi : (popTurn s).srcAddrHi = s.srcAddrHi := rfl
@[simp] theorem popTurn_bufLenLo : (popTurn s).bufLenLo = s.bufLenLo := rfl
@[simp] theorem popTurn_bufLenHi : (popTurn s).bufLenHi = s.bufLenHi := rfl
@[simp] theorem popTurn_offsetLo : (popTurn s).offsetLo = s.offsetLo := rfl
@[simp] theorem popTurn_offsetHi : (popTurn s).offsetHi = s.offsetHi := rfl
@[simp] theorem popTurn_lengthLo : (popTurn s).lengthLo = s.lengthLo := rfl
@[simp] theorem popTurn_lengthHi : (popTurn s).lengthHi = s.lengthHi := rfl
@[simp] theorem popTurn_digest : (popTurn s).digest = s.digest := rfl
@[simp] theorem popTurn_hout : (popTurn s).hout = s.hout := rfl
@[simp] theorem popTurn_hreg : (popTurn s).hreg = s.hreg := rfl
@[simp] theorem popTurn_mreg : (popTurn s).mreg = s.mreg := rfl
@[simp] theorem popTurn_pst : (popTurn s).pst = s.pst := rfl
@[simp] theorem popTurn_qst : (popTurn s).qst = s.qst := rfl
@[simp] theorem popTurn_rdNext : (popTurn s).rdNext = s.rdNext := rfl
@[simp] theorem popTurn_rdLeft : (popTurn s).rdLeft = s.rdLeft := rfl
@[simp] theorem popTurn_pending : (popTurn s).pending = s.pending := rfl
@[simp] theorem popTurn_rdData : (popTurn s).rdData = s.rdData := rfl
@[simp] theorem popTurn_failed : (popTurn s).failed = s.failed := rfl
@[simp] theorem popTurn_stored : (popTurn s).stored = s.stored := rfl
@[simp] theorem popTurn_inReset : (popTurn s).inReset = s.inReset := rfl
@[simp] theorem popTurn_memRsp : (popTurn s).memRsp = s.memRsp := rfl
@[simp] theorem popTurn_memEvents : (popTurn s).memEvents = s.memEvents := rfl
@[simp] theorem popTurn_regRsp : (popTurn s).regRsp = s.regRsp := rfl
@[simp] theorem popTurn_mem : (popTurn s).mem = s.mem := rfl
@[simp] theorem popTurn_sideEffects : (popTurn s).sideEffects = s.sideEffects := rfl
@[simp] theorem popTurn_memAnswers : (popTurn s).memAnswers = s.memAnswers := rfl
@[simp] theorem popTurn_cut : (popTurn s).cut = s.cut := rfl
@[simp] theorem popTurn_draws : (popTurn s).draws = s.draws := rfl
@[simp] theorem popTurn_host : (popTurn s).host = s.host := rfl
@[simp] theorem popTurn_schedule : (popTurn s).schedule = s.schedule.tail := rfl

/-! ### storeByte -/

@[simp] theorem storeByte_ie (a : BitVec 64) (b : Byte) : (storeByte a b s).ie = s.ie := rfl
@[simp] theorem storeByte_busy (a : BitVec 64) (b : Byte) : (storeByte a b s).busy = s.busy := rfl
@[simp] theorem storeByte_done (a : BitVec 64) (b : Byte) : (storeByte a b s).done = s.done := rfl
@[simp] theorem storeByte_valid (a : BitVec 64) (b : Byte) :
    (storeByte a b s).valid = s.valid := rfl
@[simp] theorem storeByte_wbusy (a : BitVec 64) (b : Byte) :
    (storeByte a b s).wbusy = s.wbusy := rfl
@[simp] theorem storeByte_err (a : BitVec 64) (b : Byte) : (storeByte a b s).err = s.err := rfl
@[simp] theorem storeByte_cmd (a : BitVec 64) (b : Byte) : (storeByte a b s).cmd = s.cmd := rfl
@[simp] theorem storeByte_srcAddrLo (a : BitVec 64) (b : Byte) :
    (storeByte a b s).srcAddrLo = s.srcAddrLo := rfl
@[simp] theorem storeByte_srcAddrHi (a : BitVec 64) (b : Byte) :
    (storeByte a b s).srcAddrHi = s.srcAddrHi := rfl
@[simp] theorem storeByte_bufLenLo (a : BitVec 64) (b : Byte) :
    (storeByte a b s).bufLenLo = s.bufLenLo := rfl
@[simp] theorem storeByte_bufLenHi (a : BitVec 64) (b : Byte) :
    (storeByte a b s).bufLenHi = s.bufLenHi := rfl
@[simp] theorem storeByte_offsetLo (a : BitVec 64) (b : Byte) :
    (storeByte a b s).offsetLo = s.offsetLo := rfl
@[simp] theorem storeByte_offsetHi (a : BitVec 64) (b : Byte) :
    (storeByte a b s).offsetHi = s.offsetHi := rfl
@[simp] theorem storeByte_lengthLo (a : BitVec 64) (b : Byte) :
    (storeByte a b s).lengthLo = s.lengthLo := rfl
@[simp] theorem storeByte_lengthHi (a : BitVec 64) (b : Byte) :
    (storeByte a b s).lengthHi = s.lengthHi := rfl
@[simp] theorem storeByte_digest (a : BitVec 64) (b : Byte) :
    (storeByte a b s).digest = s.digest := rfl
@[simp] theorem storeByte_hout (a : BitVec 64) (b : Byte) : (storeByte a b s).hout = s.hout := rfl
@[simp] theorem storeByte_hreg (a : BitVec 64) (b : Byte) : (storeByte a b s).hreg = s.hreg := rfl
@[simp] theorem storeByte_mreg (a : BitVec 64) (b : Byte) : (storeByte a b s).mreg = s.mreg := rfl
@[simp] theorem storeByte_pst (a : BitVec 64) (b : Byte) : (storeByte a b s).pst = s.pst := rfl
@[simp] theorem storeByte_qst (a : BitVec 64) (b : Byte) : (storeByte a b s).qst = s.qst := rfl
@[simp] theorem storeByte_rdNext (a : BitVec 64) (b : Byte) :
    (storeByte a b s).rdNext = s.rdNext := rfl
@[simp] theorem storeByte_rdLeft (a : BitVec 64) (b : Byte) :
    (storeByte a b s).rdLeft = s.rdLeft := rfl
@[simp] theorem storeByte_pending (a : BitVec 64) (b : Byte) :
    (storeByte a b s).pending = s.pending := rfl
@[simp] theorem storeByte_rdData (a : BitVec 64) (b : Byte) :
    (storeByte a b s).rdData = s.rdData := rfl
@[simp] theorem storeByte_failed (a : BitVec 64) (b : Byte) :
    (storeByte a b s).failed = s.failed := rfl
@[simp] theorem storeByte_stored (a : BitVec 64) (b : Byte) :
    (storeByte a b s).stored = if s.busy then insertAddr a.toNat s.stored else s.stored := rfl
@[simp] theorem storeByte_inReset (a : BitVec 64) (b : Byte) :
    (storeByte a b s).inReset = s.inReset := rfl
@[simp] theorem storeByte_memRsp (a : BitVec 64) (b : Byte) :
    (storeByte a b s).memRsp = s.memRsp := rfl
@[simp] theorem storeByte_memEvents (a : BitVec 64) (b : Byte) :
    (storeByte a b s).memEvents = s.memEvents := rfl
@[simp] theorem storeByte_regRsp (a : BitVec 64) (b : Byte) :
    (storeByte a b s).regRsp = s.regRsp := rfl
@[simp] theorem storeByte_mem (a : BitVec 64) (b : Byte) :
    (storeByte a b s).mem = Memory.write s.mem a.toNat b := rfl
@[simp] theorem storeByte_sideEffects (a : BitVec 64) (b : Byte) :
    (storeByte a b s).sideEffects = s.sideEffects := rfl
@[simp] theorem storeByte_memAnswers (a : BitVec 64) (b : Byte) :
    (storeByte a b s).memAnswers = s.memAnswers := rfl
@[simp] theorem storeByte_cut (a : BitVec 64) (b : Byte) : (storeByte a b s).cut = s.cut := rfl
@[simp] theorem storeByte_draws (a : BitVec 64) (b : Byte) :
    (storeByte a b s).draws = s.draws := rfl
@[simp] theorem storeByte_host (a : BitVec 64) (b : Byte) : (storeByte a b s).host = s.host := rfl
@[simp] theorem storeByte_schedule (a : BitVec 64) (b : Byte) :
    (storeByte a b s).schedule = s.schedule := rfl

/-! ### hostGoto -/

@[simp] theorem hostGoto_ie (p : Nat) : (hostGoto p s).ie = s.ie := rfl
@[simp] theorem hostGoto_busy (p : Nat) : (hostGoto p s).busy = s.busy := rfl
@[simp] theorem hostGoto_done (p : Nat) : (hostGoto p s).done = s.done := rfl
@[simp] theorem hostGoto_valid (p : Nat) : (hostGoto p s).valid = s.valid := rfl
@[simp] theorem hostGoto_wbusy (p : Nat) : (hostGoto p s).wbusy = s.wbusy := rfl
@[simp] theorem hostGoto_err (p : Nat) : (hostGoto p s).err = s.err := rfl
@[simp] theorem hostGoto_cmd (p : Nat) : (hostGoto p s).cmd = s.cmd := rfl
@[simp] theorem hostGoto_srcAddrLo (p : Nat) : (hostGoto p s).srcAddrLo = s.srcAddrLo := rfl
@[simp] theorem hostGoto_srcAddrHi (p : Nat) : (hostGoto p s).srcAddrHi = s.srcAddrHi := rfl
@[simp] theorem hostGoto_bufLenLo (p : Nat) : (hostGoto p s).bufLenLo = s.bufLenLo := rfl
@[simp] theorem hostGoto_bufLenHi (p : Nat) : (hostGoto p s).bufLenHi = s.bufLenHi := rfl
@[simp] theorem hostGoto_offsetLo (p : Nat) : (hostGoto p s).offsetLo = s.offsetLo := rfl
@[simp] theorem hostGoto_offsetHi (p : Nat) : (hostGoto p s).offsetHi = s.offsetHi := rfl
@[simp] theorem hostGoto_lengthLo (p : Nat) : (hostGoto p s).lengthLo = s.lengthLo := rfl
@[simp] theorem hostGoto_lengthHi (p : Nat) : (hostGoto p s).lengthHi = s.lengthHi := rfl
@[simp] theorem hostGoto_digest (p : Nat) : (hostGoto p s).digest = s.digest := rfl
@[simp] theorem hostGoto_hout (p : Nat) : (hostGoto p s).hout = s.hout := rfl
@[simp] theorem hostGoto_hreg (p : Nat) : (hostGoto p s).hreg = s.hreg := rfl
@[simp] theorem hostGoto_mreg (p : Nat) : (hostGoto p s).mreg = s.mreg := rfl
@[simp] theorem hostGoto_pst (p : Nat) : (hostGoto p s).pst = s.pst := rfl
@[simp] theorem hostGoto_qst (p : Nat) : (hostGoto p s).qst = s.qst := rfl
@[simp] theorem hostGoto_rdNext (p : Nat) : (hostGoto p s).rdNext = s.rdNext := rfl
@[simp] theorem hostGoto_rdLeft (p : Nat) : (hostGoto p s).rdLeft = s.rdLeft := rfl
@[simp] theorem hostGoto_pending (p : Nat) : (hostGoto p s).pending = s.pending := rfl
@[simp] theorem hostGoto_rdData (p : Nat) : (hostGoto p s).rdData = s.rdData := rfl
@[simp] theorem hostGoto_failed (p : Nat) : (hostGoto p s).failed = s.failed := rfl
@[simp] theorem hostGoto_stored (p : Nat) : (hostGoto p s).stored = s.stored := rfl
@[simp] theorem hostGoto_inReset (p : Nat) : (hostGoto p s).inReset = s.inReset := rfl
@[simp] theorem hostGoto_memRsp (p : Nat) : (hostGoto p s).memRsp = s.memRsp := rfl
@[simp] theorem hostGoto_memEvents (p : Nat) : (hostGoto p s).memEvents = s.memEvents := rfl
@[simp] theorem hostGoto_regRsp (p : Nat) : (hostGoto p s).regRsp = s.regRsp := rfl
@[simp] theorem hostGoto_mem (p : Nat) : (hostGoto p s).mem = s.mem := rfl
@[simp] theorem hostGoto_sideEffects (p : Nat) : (hostGoto p s).sideEffects = s.sideEffects := rfl
@[simp] theorem hostGoto_memAnswers (p : Nat) : (hostGoto p s).memAnswers = s.memAnswers := rfl
@[simp] theorem hostGoto_cut (p : Nat) : (hostGoto p s).cut = s.cut := rfl
@[simp] theorem hostGoto_draws (p : Nat) : (hostGoto p s).draws = s.draws := rfl
@[simp] theorem hostGoto_host (p : Nat) : (hostGoto p s).host = { s.host with pos := p } := rfl
@[simp] theorem hostGoto_schedule (p : Nat) : (hostGoto p s).schedule = s.schedule := rfl

/-! ### hostLatch -/

@[simp] theorem hostLatch_ie (v : Word) : (hostLatch v s).ie = s.ie := rfl
@[simp] theorem hostLatch_busy (v : Word) : (hostLatch v s).busy = s.busy := rfl
@[simp] theorem hostLatch_done (v : Word) : (hostLatch v s).done = s.done := rfl
@[simp] theorem hostLatch_valid (v : Word) : (hostLatch v s).valid = s.valid := rfl
@[simp] theorem hostLatch_wbusy (v : Word) : (hostLatch v s).wbusy = s.wbusy := rfl
@[simp] theorem hostLatch_err (v : Word) : (hostLatch v s).err = s.err := rfl
@[simp] theorem hostLatch_cmd (v : Word) : (hostLatch v s).cmd = s.cmd := rfl
@[simp] theorem hostLatch_srcAddrLo (v : Word) : (hostLatch v s).srcAddrLo = s.srcAddrLo := rfl
@[simp] theorem hostLatch_srcAddrHi (v : Word) : (hostLatch v s).srcAddrHi = s.srcAddrHi := rfl
@[simp] theorem hostLatch_bufLenLo (v : Word) : (hostLatch v s).bufLenLo = s.bufLenLo := rfl
@[simp] theorem hostLatch_bufLenHi (v : Word) : (hostLatch v s).bufLenHi = s.bufLenHi := rfl
@[simp] theorem hostLatch_offsetLo (v : Word) : (hostLatch v s).offsetLo = s.offsetLo := rfl
@[simp] theorem hostLatch_offsetHi (v : Word) : (hostLatch v s).offsetHi = s.offsetHi := rfl
@[simp] theorem hostLatch_lengthLo (v : Word) : (hostLatch v s).lengthLo = s.lengthLo := rfl
@[simp] theorem hostLatch_lengthHi (v : Word) : (hostLatch v s).lengthHi = s.lengthHi := rfl
@[simp] theorem hostLatch_digest (v : Word) : (hostLatch v s).digest = s.digest := rfl
@[simp] theorem hostLatch_hout (v : Word) : (hostLatch v s).hout = s.hout := rfl
@[simp] theorem hostLatch_hreg (v : Word) : (hostLatch v s).hreg = s.hreg := rfl
@[simp] theorem hostLatch_mreg (v : Word) : (hostLatch v s).mreg = s.mreg := rfl
@[simp] theorem hostLatch_pst (v : Word) : (hostLatch v s).pst = s.pst := rfl
@[simp] theorem hostLatch_qst (v : Word) : (hostLatch v s).qst = s.qst := rfl
@[simp] theorem hostLatch_rdNext (v : Word) : (hostLatch v s).rdNext = s.rdNext := rfl
@[simp] theorem hostLatch_rdLeft (v : Word) : (hostLatch v s).rdLeft = s.rdLeft := rfl
@[simp] theorem hostLatch_pending (v : Word) : (hostLatch v s).pending = s.pending := rfl
@[simp] theorem hostLatch_rdData (v : Word) : (hostLatch v s).rdData = s.rdData := rfl
@[simp] theorem hostLatch_failed (v : Word) : (hostLatch v s).failed = s.failed := rfl
@[simp] theorem hostLatch_stored (v : Word) : (hostLatch v s).stored = s.stored := rfl
@[simp] theorem hostLatch_inReset (v : Word) : (hostLatch v s).inReset = s.inReset := rfl
@[simp] theorem hostLatch_memRsp (v : Word) : (hostLatch v s).memRsp = s.memRsp := rfl
@[simp] theorem hostLatch_memEvents (v : Word) : (hostLatch v s).memEvents = s.memEvents := rfl
@[simp] theorem hostLatch_regRsp (v : Word) : (hostLatch v s).regRsp = s.regRsp := rfl
@[simp] theorem hostLatch_mem (v : Word) : (hostLatch v s).mem = s.mem := rfl
@[simp] theorem hostLatch_sideEffects (v : Word) :
    (hostLatch v s).sideEffects = s.sideEffects := rfl
@[simp] theorem hostLatch_memAnswers (v : Word) : (hostLatch v s).memAnswers = s.memAnswers := rfl
@[simp] theorem hostLatch_cut (v : Word) : (hostLatch v s).cut = s.cut := rfl
@[simp] theorem hostLatch_draws (v : Word) : (hostLatch v s).draws = s.draws := rfl
@[simp] theorem hostLatch_host (v : Word) :
    (hostLatch v s).host = { s.host with t := v, reads := s.host.reads ++ [v] } := rfl
@[simp] theorem hostLatch_schedule (v : Word) : (hostLatch v s).schedule = s.schedule := rfl

end Sys2Proof.Machine
end

