-- ==== Sys2Proof/Laws/Ops.lean ====
section
/-! SUPPORT. Once for each shared operation, everything it can do: proofs cite these instead of
unfolding the operation. -/

namespace Sys2Proof.Machine

@[simp] theorem finish_eq (s : State) : finish s = .next (complete .none false s) := rfl

@[simp] theorem raiseError_none (s : State) : raiseError .none s = complete .none false s := rfl

@[simp] theorem raiseError_illegal (s : State) :
    raiseError .illegal s = complete .illegal false s := rfl

@[simp] theorem raiseError_badRnd (s : State) :
    raiseError .badRnd s = complete .badRnd false s := rfl

@[simp] theorem raiseError_range (s : State) :
    raiseError .range s = complete .range false (zeroResults s) := rfl

@[simp] theorem raiseError_bus (s : State) :
    raiseError .bus s = complete .bus false (abandonWindows (zeroResults s)) := rfl

/-- A round-indexed command either completes with its effect or ends in BADRND. -/
theorem withRound_cases (r : BitVec 4) (s t : State) :
    (roundLegal r = true ∧ withRound r s t = .next (complete .none false t)) ∨
    (roundLegal r = false ∧ withRound r s t = .next (complete .badRnd false s)) := by
  unfold withRound
  cases h : roundLegal r <;> simp

theorem writeIfIdle_idle {s : State} (t : State) (h : s.busy = false) : writeIfIdle t s = t := by
  simp [writeIfIdle, h]

theorem writeIfIdle_busy {s : State} (t : State) (h : s.busy = true) :
    writeIfIdle t s = setWbusy s := by
  simp [writeIfIdle, h]

theorem readWindow_idle {s : State} (v : Word) (h : s.busy = false) :
    readWindow v s = (v, s) := by
  simp [readWindow, h]

theorem readWindow_busy {s : State} (v : Word) (h : s.busy = true) :
    readWindow v s = (Config.busyWindowRead s.draws, countDraw s) := by
  simp [readWindow, h]

/-- A read changes at most the count of free values drawn. -/
theorem readReg_state (r : Reg) (s : State) :
    (readReg r s).2 = s ∨ (readReg r s).2 = countDraw s := by
  cases r <;> cases h : s.busy <;> simp [readReg, readWindow, h]

/-- While BUSY = 1 a register write changes nothing but IE, DONE and WBUSY. -/
theorem writeReg_busy {r : Reg} {v : Word} {s : State} (h : s.busy = true) :
    writeReg r v s = s ∨ writeReg r v s = setWbusy s ∨ writeReg r v s = writeCtrl v s
      ∨ writeReg r v s = writeStatus v s := by
  cases r <;> simp [writeReg, writeIfIdle, h]

/-- While BUSY = 0 a register write does nothing, writes CTRL or STATUS, accepts a command, replaces
one half of a range register, or replaces one word of a writable window. -/
theorem writeReg_idle {r : Reg} {v : Word} {s : State} (h : s.busy = false) :
    writeReg r v s = s ∨ writeReg r v s = writeCtrl v s ∨ writeReg r v s = writeStatus v s
      ∨ writeReg r v s = accept v s
      ∨ (∃ a b c d e f g i : Word, writeReg r v s = { s with
          srcAddrLo := a, srcAddrHi := b, bufLenLo := c, bufLenHi := d,
          offsetLo := e, offsetHi := f, lengthLo := g, lengthHi := i })
      ∨ ∃ a b c d : Block, writeReg r v s = { s with hreg := a, mreg := b, pst := c, qst := d } := by
  cases r <;> simp only [writeReg, writeIfIdle, h, Bool.false_eq_true, if_false]
  case id | version | digest | hout | reserved => exact .inl trivial
  case ctrl => exact .inr (.inl trivial)
  case status => exact .inr (.inr (.inl trivial))
  case cmd => exact .inr (.inr (.inr (.inl trivial)))
  case hreg | mreg | pst | qst =>
    exact .inr (.inr (.inr (.inr (.inr ⟨_, _, _, _, rfl⟩))))
  all_goals exact .inr (.inr (.inr (.inr (.inl ⟨_, _, _, _, _, _, _, _, rfl⟩))))

/-- An access is refused with no effect, or reads a register, or writes one. -/
theorem access_cases (q : RegReq) (s : State) :
    (portRefuses q = true ∧ access q s = ({ rdata := 0, err := true }, s)) ∨
    (portRefuses q = false ∧ q.write = true ∧
      access q s = ({ rdata := 0, err := false }, writeReg (regAt q.addr.toNat) q.wdata s)) ∨
    (portRefuses q = false ∧ q.write = false ∧
      access q s = ({ rdata := (readReg (regAt q.addr.toNat) s).1, err := false },
        (readReg (regAt q.addr.toNat) s).2)) := by
  unfold access
  cases portRefuses q <;> cases q.write <;> simp

/-- An access answers the same whether or not the turn has been taken off the schedule. -/
theorem access_popTurn_response (q : RegReq) (s : State) :
    (access q (popTurn s)).1 = (access q s).1 := by
  unfold access readReg
  cases portRefuses q <;> cases q.write <;> simp
  cases regAt q.addr.toNat <;> simp [readWindow] <;>
    first | rfl | (by_cases hb : s.busy = true <;> simp [hb])

/-- An access leaves the host program as it was. -/
theorem access_host (q : RegReq) (s : State) : (access q s).2.host = s.host := by
  rcases access_cases q s with ⟨_, e⟩ | ⟨_, _, e⟩ | ⟨_, _, e⟩ <;> rw [e]
  · cases regAt q.addr.toNat <;> simp [writeReg, writeIfIdle]
    all_goals split <;> rfl
  · rcases readReg_state (regAt q.addr.toNat) s with e | e <;> simp [e]

/-- A response moves the message forward by its bytes, or marks the command as failed; both record the
event. -/
theorem receiveResponse_cases (q : MemReq) (rsp : MemRsp) (s : State) :
    (∃ bs, rsp = .ok bs ∧ receiveResponse q rsp s = receiveBytes q bs s) ∨
    (rsp = .buserr ∧ receiveResponse q rsp s = receiveError q s) := by
  cases rsp with
  | ok bs => exact .inl ⟨bs, rfl, rfl⟩
  | buserr => exact .inr ⟨rfl, rfl⟩

/-- An answer is the bytes of the whole request, or an error. -/
theorem memAnswer_cases (c : MemChoice) (q : MemReq) (s : State) :
    (∃ bs, c = .data ∧ readBytes s q.addr q.len = some bs ∧ memAnswer c q s = .ok bs) ∨
    ((c = .error ∨ readBytes s q.addr q.len = none) ∧ memAnswer c q s = .buserr) := by
  cases c with
  | error => exact .inr ⟨.inl rfl, rfl⟩
  | data =>
    cases h : readBytes s q.addr q.len with
    | none => exact .inr ⟨.inr rfl, by simp [memAnswer, h]⟩
    | some bs => exact .inl ⟨bs, rfl, rfl, by simp [memAnswer, h]⟩

/-- Everything one core step of a hash command can do. -/
theorem hashCommand_cases (effect : List Byte → State → State) (s : State) :
    (rangeOk s = false ∧
      hashCommand effect s = .next (complete .range false (zeroResults s))) ∨
    (rangeOk s = true ∧ rangeHasSideEffects s = true ∧
      hashCommand effect s = .refused .sideEffectMemory) ∨
    (rangeOk s = true ∧ rangeHasSideEffects s = false ∧
      ((∃ q rsp, s.pending = some q ∧ s.memRsp = some rsp ∧
          hashCommand effect s = .next (receiveResponse q rsp s)) ∨
       (∃ q, s.pending = some q ∧ s.memRsp = none ∧ hashCommand effect s = .next s) ∨
       (s.pending = none ∧ s.failed = true ∧
          hashCommand effect s
            = .next (complete .bus false (abandonWindows (zeroResults s)))) ∨
       (s.pending = none ∧ s.failed = false ∧ s.rdLeft = 0 ∧
          hashCommand effect s = .next (complete .none true (effect s.rdData s))) ∨
       (s.pending = none ∧ s.failed = false ∧ s.rdLeft ≠ 0 ∧
          hashCommand effect s = issueRequest s))) := by
  unfold hashCommand
  cases rangeOk s <;> cases rangeHasSideEffects s <;> cases s.pending <;> cases s.memRsp <;>
    cases s.failed <;> by_cases h : s.rdLeft = 0 <;> simp [h]

/-- Issuing makes the next request outstanding, or faults past the address space. -/
theorem issueRequest_cases (s : State) :
    (s.rdNext + requestLen s.cut s.rdLeft ≤ 2 ^ 64 ∧
      issueRequest s = .next (setRequest (nextRequest s) s)) ∨
    (2 ^ 64 < s.rdNext + requestLen s.cut s.rdLeft ∧
      issueRequest s = .fault .outsideAddressSpace) := by
  unfold issueRequest
  split
  · rename_i h; exact .inl ⟨h, rfl⟩
  · rename_i h; exact .inr ⟨by omega, rfl⟩

theorem requestLen_pos (cut : Nat) {left : Nat} (h : left ≠ 0) : 1 ≤ requestLen cut left := by
  unfold requestLen Config.memMaxReq
  split <;> omega

theorem requestLen_le_left (cut : Nat) {left : Nat} (h : left ≠ 0) :
    requestLen cut left ≤ left := by
  unfold requestLen
  split <;> omega

theorem requestLen_le_max (cut : Nat) {left : Nat} : requestLen cut left ≤ Config.memMaxReq := by
  unfold requestLen Config.memMaxReq
  split <;> omega

/-- A memory turn answers the request that awaits it, is ignored in reset, or is refused as stray. -/
theorem memoryTurn_cases (c : MemChoice) (s : State) :
    (s.inReset = true ∧ memoryTurn c s = .next s) ∨
    (s.inReset = false ∧ s.memRsp = none ∧ ∃ q, s.pending = some q ∧
      memoryTurn c s = .next (countDraw (setMemRsp (memAnswer c q s) s))) ∨
    (s.inReset = false ∧ (s.pending = none ∨ s.memRsp.isSome = true) ∧
      memoryTurn c s = .refused .strayResponse) := by
  unfold memoryTurn
  cases s.inReset <;> cases s.pending <;> cases s.memRsp <;> simp

/-- The core does nothing in reset or while idle; else it runs what CMD decodes to. -/
theorem coreStep_cases (s : State) :
    ((s.inReset = true ∨ s.busy = false) ∧ coreStep s = .next s) ∨
    (s.inReset = false ∧ s.busy = true ∧
      ((∃ i, decode s.cmd = .legal i ∧ coreStep s = exec i s) ∨
       (decode s.cmd = .illegal ∧ coreStep s = .next (complete .illegal false s)) ∨
       (decode s.cmd = .badRound ∧ coreStep s = .next (complete .badRnd false s)))) := by
  unfold coreStep
  cases s.inReset <;> cases s.busy <;> cases decode s.cmd <;> simp

/-- A reset turn changes nothing, or resets the core. -/
theorem driveReset_cases (level : Bool) (s : State) :
    (level = true ∧ s.inReset = false ∧ driveReset level s = s) ∨
    driveReset level s = resetCore level s := by
  unfold driveReset
  cases level <;> cases s.inReset <;> simp

/-- Every port address is that of its own offset. -/
@[simp] theorem portAddress?_toNat (a : BitVec 12) : portAddress? a.toNat = some a := by
  simp [portAddress?, regSpace, show a.toNat < 4096 from a.isLt]

/-- Outside register space there is no port address. -/
theorem portAddress?_eq_none {off : Nat} (h : regSpace ≤ off) : portAddress? off = none := by
  simp [portAddress?, Nat.not_lt.mpr h]

/-- A host program's access is made at the port address that is the offset, exactly, or faults
outside register space. -/
theorem atPort_cases (off : Nat) (f : BitVec 12 → State) :
    (∃ a : BitVec 12, a.toNat = off ∧ atPort off f = .next (f a)) ∨
    (regSpace ≤ off ∧ atPort off f = .fault .outsideRegisterSpace) := by
  rcases Nat.lt_or_ge off regSpace with h | h
  · have e : (BitVec.ofNat 12 off).toNat = off := Nat.mod_eq_of_lt h
    exact .inl ⟨BitVec.ofNat 12 off, e, by simp [atPort, portAddress?, h]⟩
  · exact .inr ⟨h, by simp [atPort, portAddress?_eq_none h]⟩

/-- The host program's turn is one of the host's steps, or nothing. -/
theorem programTurn_cases (s : State) :
    programTurn s = .next s ∨ ∃ op, s.inReset = false ∧ hostOp? s = some op ∧
      programTurn s = runHostOp op s := by
  unfold programTurn
  cases h : s.inReset <;> cases h' : hostOp? s <;> simp

/-- `steps` runs the machine as the host's `Core.run` does. -/
theorem steps_eq_run (k : Nat) (s : State) : steps k s = Host.Core.run Sys2Proof.core k s := by
  induction k generalizing s with
  | zero => rfl
  | succ k ih =>
    have h : Sys2Proof.core.step s = step s := rfl
    simp only [steps, Host.Core.run, h]
    cases step s with
    | next t => exact ih t
    | fault r => rfl
    | refused r => rfl

end Sys2Proof.Machine
end

