-- ==== Sys2Proof/Tests/Slice0.lean ====
section
/-! SUPPORT. Tests on fixed values, and a witness for the hypotheses of every statement. Expected values
come from spec/: the encoding of 30_encoding.md and the vectors V<n> of 95_test_vectors.md. -/

open Sys2Proof Sys2Proof.Machine

-- one theorem at a time: each elaboration thread reserves its whole stack
set_option Elab.async false

/-! ### Well-formed commands: each check refuses an ill-formed term (30_encoding.md R113, V44 to V47) -/

theorem test_wf_refuses_arcP_14 : (Instr.arcP 14).wf = false := by decide
theorem test_wf_refuses_arcQ_15 : (Instr.arcQ 15).wf = false := by decide
theorem test_wf_refuses_rndP_14 : (Instr.rndP 14).wf = false := by decide
theorem test_wf_refuses_rndQ_15 : (Instr.rndQ 15).wf = false := by decide
theorem test_wf_admits_rndQ_13 : (Instr.rndQ 13).wf = true := by decide

/-! ### Decoding: a word of every command, RSV, RND and OP written out (R110, R115) -/

theorem test_decode_nop : decode 0x00000000 = .legal .nop := by decide
theorem test_decode_hash2 : decode 0x00000001 = .legal .hash2 := by decide
theorem test_decode_hash1 : decode 0x00000002 = .legal .hash1 := by decide
theorem test_decode_arcP : decode 0b00000000000000000000_1101_00010000 = .legal (.arcP 13) := by
  decide
theorem test_decode_arcQ : decode 0b00000000000000000000_0001_00010001 = .legal (.arcQ 1) := by
  decide
theorem test_decode_subP : decode 0x00000012 = .legal .subP := by decide
theorem test_decode_subQ : decode 0x00000013 = .legal .subQ := by decide
theorem test_decode_shbP : decode 0x00000014 = .legal .shbP := by decide
theorem test_decode_shbQ : decode 0x00000015 = .legal .shbQ := by decide
theorem test_decode_mixP : decode 0x00000016 = .legal .mixP := by decide
theorem test_decode_mixQ : decode 0x00000017 = .legal .mixQ := by decide
theorem test_decode_rndP : decode 0b00000000000000000000_0110_00011000 = .legal (.rndP 6) := by
  decide
theorem test_decode_rndQ : decode 0b00000000000000000000_1011_00011001 = .legal (.rndQ 11) := by
  decide
theorem test_decode_permP : decode 0x0000001A = .legal .permP := by decide
theorem test_decode_permQ : decode 0x0000001B = .legal .permQ := by decide
theorem test_decode_init : decode 0x00000020 = .legal .init := by decide
theorem test_decode_loadpq : decode 0x00000021 = .legal .loadpq := by decide
theorem test_decode_fold : decode 0x00000022 = .legal .fold := by decide
theorem test_decode_comp : decode 0x00000023 = .legal .comp := by decide
theorem test_decode_outld : decode 0x00000024 = .legal .outld := by decide
theorem test_decode_outx : decode 0x00000025 = .legal .outx := by decide
theorem test_decode_omega : decode 0x00000026 = .legal .omega := by decide
theorem test_decode_chain : decode 0x00000027 = .legal .chain := by decide
theorem test_decode_trunc : decode 0x00000028 = .legal .trunc := by decide

/-- V104 to V107: the checks of R117 in their order. -/
theorem test_decode_rejects :
    decode 0x00000E10 = .badRound ∧ decode 0x00000F19 = .badRound
      ∧ decode 0x00001010 = .illegal ∧ decode 0x0000FF10 = .illegal := by decide

/-- V108 to V114. -/
theorem test_decode_illegal :
    ([0x00000128, 0x00000029, 0x0000001C, 0x000000FF, 0x80000000, 0x80000001, 0x00000E01,
      0x00000003, 0x00000E12] : List Word).map decode = List.replicate 9 .illegal := by decide

theorem test_encode_rndQ : encode (.rndQ 13) = 0x00000D19 := by decide

/-- R122: the written form of a command and of a word that is none. -/
theorem test_disassemble :
    disassemble 0x00000D19 = "RND.Q 13" ∧ disassemble 0x0000FF10 = ".word 0x0000FF10" := by
  decide +kernel

/-! ### States the tests start from -/

/-- The state after the step that runs a command word. -/
def Test.after (w : Nat) (s : State) : State :=
  match step (s.withFetchWord 32 w) with
  | .next t => t
  | .fault _ => s
  | .refused _ => s

/-- `I[k] = k` (95_test_vectors.md). -/
def Test.stateI : Block := tabulate 128 (BitVec.ofNat 8)

/-- Reset, with both lanes at I. -/
def Test.lanesI : State := { State.reset with pst := Test.stateI, qst := Test.stateI }

/-- Reset, with the range registers and "xxabcxx" at 0x2000 (V4). -/
def Test.ranged (buf off len : Word) : State :=
  { State.reset with
    srcAddrLo := 0x2000, bufLenLo := buf, offsetLo := off, lengthLo := len
    mem := [(0x2000, 0x78), (0x2001, 0x78), (0x2002, 0x61), (0x2003, 0x62), (0x2004, 0x63),
      (0x2005, 0x78), (0x2006, 0x78)] }

/-- HASH2 of "abc" accepted (V4). -/
def Test.hashing : State := accept (encode .hash2) (Test.ranged 7 2 3)

/-- The same, with its first byte requested, and a response on the port or not. -/
def Test.requested (rsp : Option MemRsp) : State :=
  { Test.hashing with pending := some { addr := 0x2002, len := 1 }, memRsp := rsp }

/-- A command word running, from reset. -/
def Test.running (w : Word) : State := accept w State.reset

/-! ### The permutation core -/

/-- V13. -/
theorem test_arcP : byteAt (Test.after 0x010 State.reset).pst 8 = 0x10
    ∧ byteAt (Test.after 0x010 State.reset).pst 9 = 0 := by decide +kernel

/-- V17. -/
theorem test_arcQ : byteAt (Test.after 0xD11 State.reset).qst 15 = 0xE2
    ∧ byteAt (Test.after 0xD11 State.reset).qst 14 = 0xFF := by decide +kernel

/-- V18. -/
theorem test_subP : byteAt (Test.after 0x012 State.reset).pst 127 = 0x63 := by decide +kernel

/-- V19. -/
theorem test_subQ : byteAt (Test.after 0x013 Test.lanesI).qst 126 = 0xF3
    ∧ byteAt (Test.after 0x013 Test.lanesI).pst 126 = 126 := by decide +kernel

/-- V21. -/
theorem test_shbP : byteAt (Test.after 0x014 Test.lanesI).pst 7 = 0x5F
    ∧ byteAt (Test.after 0x014 Test.lanesI).pst 15 = 0x67 := by decide +kernel

/-- V22. -/
theorem test_shbQ : byteAt (Test.after 0x015 Test.lanesI).qst 3 = 0x5B
    ∧ byteAt (Test.after 0x015 Test.lanesI).qst 127 = 0x2F := by decide +kernel

/-- V23: U is 1 in byte 0, so the column is the matrix's first column. -/
theorem test_mixP :
    let t := Test.after 0x016 { State.reset with pst := Vector.set (zeros 128) 0 1 }
    (List.range 9).map (byteAt t.pst) = [2, 7, 5, 3, 5, 4, 3, 2, 0] := by decide +kernel

/-- V24. -/
theorem test_mixQ : byteAt (Test.after 0x017 Test.lanesI).qst 127 = 0x8D := by decide +kernel

/-- V28. -/
theorem test_rndP : byteAt (Test.after 0xD18 Test.lanesI).pst 1 = 0xEE
    ∧ byteAt (Test.after 0xD18 Test.lanesI).pst 127 = 0xF9 := by decide +kernel

/-- V27. -/
theorem test_rndQ : byteAt (Test.after 0x019 State.reset).qst 1 = 0xEE
    ∧ byteAt (Test.after 0x019 State.reset).qst 8 = 0x1A := by decide +kernel

/-- V30, the whole state. -/
theorem test_permP : permP (zeros 128) = ofHex 128 0x81d4faab784698489b5d870bf1f9536f7efa25c79240e474ac31f149c9a8ed37bf3dd9bf40c668711cd8b8c89dc48df9f6d86e33578f7f11ac180bb2ed29dad4e215b297aa1ceb32369f618a1dfbd27f6e96f2c1a3324d0439dfb549ee2e86901e0133376ed25265cc73c2963ad7e6c2cb8873d0516d11440d9461e7f3727133 := by
  rw [← unpack_packBytes (zeros 128), permP_unpack, ofHex_eq_unpack]
  exact congrArg (unpack 128) (by decide +kernel)

/-- V33, the whole state. -/
theorem test_permQ : permQ Test.stateI = ofHex 128 0x77d455288d76fa64ea5c0bbffad756f1e0a25a2a84c3487857a593e3016028457910cb46bf0e67c2f885c00cbe73214fddabc3578fa8314887393ea47d1c1305f946287d61daf79610dff50d1192803e0b50b66707412ebc3bc2a0e0dffde69827a4ea54a0bec03224bb2d017867207b4c7492b6b16a715bc0c3f2be5dfc082e := by
  rw [← unpack_packBytes Test.stateI, permQ_unpack, ofHex_eq_unpack]
  exact congrArg (unpack 128) (by decide +kernel)

/-- PERM.P and PERM.Q complete, each leaving the other lane (R162). -/
theorem test_perm_commands :
    statusWord (Test.after 0x01A Test.lanesI) = 2 ∧ statusWord (Test.after 0x01B Test.lanesI) = 2
      ∧ byteAt (Test.after 0x01A Test.lanesI).qst 127 = 127
      ∧ byteAt (Test.after 0x01B Test.lanesI).pst 127 = 127 := by decide +kernel

/-! ### Compression and chaining -/

/-- V52. -/
theorem test_init : byteAt (Test.after 0x020 State.reset).hreg 126 = 0x02
    ∧ byteAt (Test.after 0x020 State.reset).hreg 127 = 0 := by decide +kernel

/-- V53, with pad("") in MREG by LoadBlock. -/
theorem test_loadpq :
    let t := Test.after 0x021 { State.reset with hreg := iv512, mreg := loadBlock [] 0 }
    [0, 126, 127].map (byteAt t.pst) = [0x80, 0x02, 0x01]
      ∧ [0, 126, 127].map (byteAt t.qst) = [0x80, 0, 0x01] := by decide +kernel

/-- V67, and a byte where the lanes differ. -/
theorem test_fold :
    let t := Test.after 0x022 { Test.lanesI with hreg := Test.stateI, qst := zeros 128 }
    byteAt t.hreg 127 = 0
      ∧ byteAt (Test.after 0x022 { Test.lanesI with hreg := Test.stateI }).hreg 127 = 127 := by
  decide +kernel

/-- V56, the value COMP leaves in HREG (V65). -/
theorem test_compress : compress iv512 (loadBlock [] 0) = ofHex 128 0x0505d7276726ade240948625dd9fcc879b2f3b47639de9d7869541dae8a36aea62a1e5569085fcd0b08944a37b337735cf4713a3cc4e17c11f31bf356a3c4263d3dc80d1b0df468fbe607616140972f2f04756d37244703cffaf0899c246f3f73ce8f552cf31a5310f8f26a870f4b4868c0b1edd749135c130b087ea2e2d8f7b := by
  rw [← unpack_packBytes iv512, ← unpack_packBytes (loadBlock [] 0), compress_unpack,
    ofHex_eq_unpack]
  exact congrArg (unpack 128) (by decide +kernel)

/-- COMP completes and keeps MREG (V65). -/
theorem test_comp :
    let t := Test.after 0x023 { State.reset with hreg := iv512, mreg := loadBlock [] 0 }
    byteAt t.mreg 0 = 0x80 ∧ statusWord t = 2 := by decide +kernel

/-- V57. -/
theorem test_outld : byteAt (Test.after 0x024 { State.reset with hreg := iv512 }).pst 126 = 0x02 := by
  decide +kernel

/-- V68, and PST alone. -/
theorem test_outx :
    byteAt (Test.after 0x025 { Test.lanesI with hreg := Test.stateI }).hout 63 = 0
      ∧ byteAt (Test.after 0x025 Test.lanesI).hout 63 = 127 := by decide +kernel

/-- V69, the value OMEGA leaves in HOUT. -/
theorem test_outputTransform : outputTransform iv512 = ofHex 64 0x596cacd2b5804118c280854876de444324b579b715031e945cb742d9450c2b1482897dbc34f36446715e0a4e82d38371ef2b264064244715b4744d48e4e03823 := by
  rw [← unpack_packBytes iv512, outputTransform_unpack, ofHex_eq_unpack]
  exact congrArg (unpack 64) (by decide +kernel)

/-- OMEGA completes and keeps HREG (V69). -/
theorem test_omega :
    let t := Test.after 0x026 { State.reset with hreg := iv512 }
    byteAt t.hreg 126 = 0x02 ∧ statusWord t = 2 := by decide +kernel

/-- V70. -/
theorem test_chain :
    let t := Test.after 0x027 { State.reset with hout := slice Test.stateI 64 64 }
    [0, 63, 64, 65, 126, 127].map (byteAt t.mreg) = [64, 127, 0x80, 0, 0, 1] := by decide +kernel

/-- V71: DIGEST is HOUT's first half. -/
theorem test_trunc :
    let t := Test.after 0x028 { State.reset with hout := slice Test.stateI 64 64 }
    [0, 31].map (byteAt t.digest) = [64, 95] := by decide +kernel

/-! ### The hash commands -/

/-- The padding table of 95_test_vectors.md section 5. -/
theorem test_padding_table :
    [0, 1, 55, 63, 64, 118, 119, 120, 127, 128, 247, 248, 255, 256].map nblocks
      = [1, 1, 1, 1, 1, 1, 1, 2, 2, 2, 2, 3, 3, 3]
    ∧ [0, 1, 55, 63, 64, 118, 119, 120, 127, 128, 247, 248, 255, 256].map fillBytes
      = [119, 118, 64, 56, 55, 1, 0, 127, 120, 119, 0, 127, 120, 119] := by decide +kernel

/-- The value V1 gives. -/
def Test.v1 : Bytes 64 :=
  ofHex 64 0x6d3ad29d279110eef3adbd66de2a0345a77baede1557f5d099fce0c03d6dc2ba8e6d4a6633dfbd66053c20faa87d1a11f39a7fbe4a6c2f009801370308fc4ad8

/-- V1: Groestl-512 of the empty message. -/
theorem test_groestl512_empty : groestl512 [] = Test.v1 := by
  have h1 : groestl512 [] = outputTransform (compress iv512 (blockOf (pad []) 0)) := by
    simp [groestl512, nblocks, List.range_succ]
  rw [h1, ← unpack_packBytes iv512, ← unpack_packBytes (blockOf (pad []) 0), compress_unpack,
    outputTransform_unpack, Test.v1, ofHex_eq_unpack]
  exact congrArg (unpack 64) (by decide +kernel)

/-- V63: the second pass over the block CHAIN forms from V1. -/
theorem test_second_pass :
    outputTransform (compress iv512 (chainBlock Test.v1))
      = ofHex 64 0xfdfb14d386c6dff85715c50efb826c43e04205b18410497aa47f121eceb3a65e36a4671c728176311b4341d1d8d1d335822b9ed4b12a26e9c907557b4fcb385e := by
  rw [← unpack_packBytes iv512, ← unpack_packBytes (chainBlock Test.v1), compress_unpack,
    outputTransform_unpack, ofHex_eq_unpack]
  exact congrArg (unpack 64) (by decide +kernel)

/-- V7: HASH2 of the empty range makes no request and completes with DONE and VALID. -/
theorem test_hash2_empty :
    statusWord (Test.after 1 State.reset) = 6 ∧ (Test.after 1 State.reset).pending = none := by
  decide +kernel

/-- V11: HASH1 of the empty range; DIGEST is zero. -/
theorem test_hash1_empty :
    statusWord (Test.after 2 State.reset) = 6 ∧ (Test.after 2 State.reset).digest = zeros 32 := by
  decide +kernel

/-- V93: the first request of HASH2 over "abc", one byte at a time. -/
theorem test_hash2_request :
    (Test.after 1 (Test.ranged 7 2 3)).pending = some { addr := 0x2002, len := 1 }
      ∧ statusWord (Test.after 1 (Test.ranged 7 2 3)) = 1 := by decide +kernel

/-- V9: OFFSET + LENGTH past BUF_LEN. -/
theorem test_hash2_range :
    statusWord (Test.after 1 (Test.ranged 7 5 3)) = 0x102
      ∧ (Test.after 1 (Test.ranged 7 5 3)).hout = zeros 64 := by decide +kernel

/-- V83, V82: OFFSET just past the buffer, and at its end. -/
theorem test_range_edges :
    rangeOk (Test.ranged 7 8 0) = false ∧ rangeOk (Test.ranged 7 7 0) = true := by decide +kernel

/-- V86, V87: the last address of the space, and one past it. -/
theorem test_range_top :
    let s := { State.reset with srcAddrLo := 0xFFFFFFFF, srcAddrHi := 0xFFFFFFFF }
    rangeOk { s with bufLenLo := 1, lengthLo := 1 } = true
      ∧ rangeOk { s with bufLenLo := 2, lengthLo := 2 } = false := by decide +kernel

/-- V10, V88: a negative LENGTH, a negative OFFSET. -/
theorem test_range_negative :
    rangeOk { Test.ranged 7 0 0 with lengthLo := 0xFFFFFFFF, lengthHi := 0xFFFFFFFF } = false
      ∧ rangeOk { Test.ranged 7 0 1 with
          bufLenLo := 0xFFFFFFFF, bufLenHi := 0xFFFFFFFF, offsetHi := 0x80000000 } = false := by
  decide +kernel

/-- A response with data: the byte "a" is read and the position moves (20_memory.md R93). -/
theorem test_hash2_receives :
    ∃ t, exec .hash2 (Test.requested (some (.ok [0x61]))) = .next t ∧ t.rdData = [0x61]
      ∧ t.rdNext = 0x2003 ∧ t.rdLeft = 2
      ∧ t.memEvents = [{ req := { addr := 0x2002, len := 1 }, answer := .ok [0x61] }] :=
  ⟨_, rfl, rfl, rfl, rfl, rfl⟩

/-- The memory system answers the request with the byte memory holds (20_memory.md R92). -/
theorem test_memory_answers :
    ∃ t, memoryTurn .data (Test.requested none) = .next t ∧ t.memRsp = some (.ok [0x61]) :=
  ⟨_, rfl, rfl⟩

/-- V96: an error response, and the next core step. -/
def Test.failed : State :=
  { Test.hashing with
    cmd := 2, failed := true
    memEvents := [{ req := { addr := 0x2002, len := 1 }, answer := .buserr }] }

/-- V95: an error response is received and recorded; the command is still running. -/
theorem test_hash1_receives_error :
    ∃ t, exec .hash1 (Test.requested (some .buserr)) = .next t ∧ statusWord t = 1
      ∧ t.failed = true ∧ t.memEvents = Test.failed.memEvents := ⟨_, rfl, by decide +kernel, rfl, rfl⟩

/-- V95: the step after it completes with BUS. -/
theorem test_hash1_bus :
    ∃ t, exec .hash1 Test.failed = .next t ∧ statusWord t = 0x402 ∧ t.hout = zeros 64
      ∧ t.failed = false := ⟨_, rfl, by decide +kernel, rfl, rfl⟩

/-! ### NOP, decode errors and the register port -/

/-- V98. -/
theorem test_nop : statusWord (Test.after 0 Test.lanesI) = 2
    ∧ byteAt (Test.after 0 Test.lanesI).pst 127 = 127 := by decide +kernel

/-- V101, V104: the word stays in CMD. -/
theorem test_rejected :
    statusWord (Test.after 0x003 State.reset) = 0x202 ∧ (Test.after 0x003 State.reset).cmd = 3
      ∧ statusWord (Test.after 0xE10 State.reset) = 0x302 := by decide +kernel

/-- V115, V116. -/
theorem test_port_reads :
    [0x000, 0x004, 0x00C, 0x010, 0x100].map
        (fun o => (access (readRequest o) State.reset).1.rdata)
      = [0x47523531, 0x00010000, 0, 0, 0] := by decide +kernel

/-- V117, V118, V120: reserved bits, a reserved offset, a read-only window. -/
theorem test_port_ignored_writes :
    (access (readRequest 0x008) (access (writeRequest 0x008 0xFFFFFFFF) State.reset).2).1.rdata = 1
      ∧ (access (readRequest 0x014) (access (writeRequest 0x014 0x12345678) State.reset).2).1.rdata
        = 0
      ∧ (access (readRequest 0x040) (access (writeRequest 0x040 0xFFFFFFFF) State.reset).2).1.rdata
        = 0 := by decide +kernel

/-- V119. -/
theorem test_port_window :
    let t := (access (writeRequest 0x100 0x03020100) State.reset).2
    (List.range 5).map (byteAt t.hreg) = [0, 1, 2, 3, 0]
      ∧ (access (readRequest 0x100) t).1.rdata = 0x03020100 := by decide +kernel

/-- V121, V122. -/
theorem test_port_refuses :
    (access (readRequest 0x002) State.reset).1 = { rdata := 0, err := true }
      ∧ (access { write := true, addr := 0x008, be := 0b0001, wdata := 1 } State.reset).1.err = true
      ∧ (access { write := true, addr := 0x008, be := 0b0001, wdata := 1 } State.reset).2.ie = false
      := by decide +kernel

/-- V123, V124: the interrupt rises with DONE and falls with the write to STATUS. -/
theorem test_irq :
    let t := Test.after 0 { State.reset with ie := true }
    irq t = true ∧ irq (access (writeRequest 0x00C 2) t).2 = false
      ∧ statusWord (access (writeRequest 0x00C 2) t).2 = 0
      ∧ irq (access (writeRequest 0x008 0) t).2 = false := by decide +kernel

/-- V127. -/
theorem test_status_write :
    statusWord (access (writeRequest 0x00C 0xFFFFFFFF) (Test.after 3 State.reset)).2 = 0x200 := by
  decide +kernel

/-- P6, the busy outcome: the write is dropped and recorded. -/
theorem test_busy_write :
    let t := (access (writeRequest 0x030 4) Test.hashing).2
    t.lengthLo = 3 ∧ statusWord t = 9 := by decide +kernel

/-- One step of a host program: BCLR branches on a clear bit (R123). -/
theorem test_host_branch :
    let s := { State.reset with
      host := { prog := [.bclr 1 5], pos := 0, t := 0xFFFFFFFD, reads := [] } }
    ∃ t, programTurn s = .next t ∧ t.host.pos = 5 := ⟨_, rfl, rfl⟩

/-- Sums of offsets are exact (R15, R124): past 0xFFF they do not come back to ID, VERSION and CTRL. -/
theorem test_expansions_do_not_wrap :
    wr64 0xFFC 0x200000001 = [.wr 0xFFC 1, .wr 0x1000 2]
      ∧ wrwin 0xFFC [1, 0, 0, 0, 2, 0, 0, 0] = [.wr 0xFFC 1, .wr 0x1000 2]
      ∧ rdwin 0xFF8 12 = [.rd 0xFF8, .rd 0xFFC, .rd 0x1000] := by decide

/-- R84: a transfer puts its response on the register port. -/
theorem test_host_turn :
    ∃ t, step { State.reset with schedule := [.host (readRequest 0x000)] } = .next t
      ∧ t.regRsp = some { rdata := 0x47523531, err := false } ∧ t.schedule = [] := ⟨_, rfl, rfl, rfl⟩

/-! ### Witnesses: states and operands that meet the hypotheses of the statements -/

theorem witness_DecodeOfEncode :
    (Instr.arcP 13).WellFormed ∧ (Instr.rndQ 0).WellFormed ∧ Instr.nop.WellFormed := by decide

theorem witness_LegalWordsAreTheEncodings : ∃ i, decode 0x00000D19 = .legal i := ⟨_, rfl⟩

/-- A legal command runs: PERM.P, on the core's turn. -/
theorem witness_StepRunsDecodedCommand :
    (Test.running 0x1A).inReset = false ∧ (Test.running 0x1A).busy = true
      ∧ nextTurn (Test.running 0x1A) = .core 1 ∧ decode (Test.running 0x1A).cmd = .legal .permP := by
  decide +kernel

/-- Both kinds of rejected word, at the edges of their ranges. -/
theorem witness_RejectedWordsComplete :
    let s := fun w => Test.running w
    (∀ b : Bool, let w : Word := if b then 0x003 else 0xF19
      (s w).inReset = false ∧ (s w).busy = true ∧ nextTurn (s w) = .core 1)
    ∧ decode (s 0x003).cmd = .illegal ∧ decode (s 0xF19).cmd = .badRound := by decide +kernel

theorem witness_IdleCoreWaits :
    State.reset.busy = false ∧ nextTurn State.reset = .core 1 := by decide

/-- Each turn, with reset released and with reset held, and both kinds of memory turn. -/
theorem witness_TurnsOfOtherAgents :
    let turn := fun (x : Turn) (s : State) => { s with schedule := [x] }
    let held := driveReset false State.reset
    (∀ x : Turn, nextTurn (turn x State.reset) = x ∧ nextTurn (turn x held) = x
        ∧ nextTurn (turn x (Test.requested none)) = x)
      ∧ held.inReset = true ∧ State.reset.inReset = false ∧ State.reset.pending = none
      ∧ (Test.requested none).inReset = false
      ∧ (Test.requested none).pending = some { addr := 0x2002, len := 1 }
      ∧ readBytes (Test.requested none) 0x2002 1 = some [0x61]
      ∧ (Test.requested none).memRsp = none ∧ (Test.requested (some (.ok [0x61]))).memRsp ≠ none :=
  ⟨fun _ => ⟨rfl, rfl, rfl⟩, by decide +kernel⟩

/-- A request for an address just past the memory that `Test.ranged` lists. -/
def Test.pastMemory : State :=
  { accept (encode .hash1) (Test.ranged 8 7 1) with
    pending := some { addr := 0x2007, len := 1 }, schedule := [.memory .data] }

/-- The clause over a byte the platform answers with an error, on a platform that does so. -/
theorem witness_TurnsOfOtherAgents_platform (h : Config.unmappedByte 0x2007 = none) :
    nextTurn Test.pastMemory = .memory .data ∧ Test.pastMemory.inReset = false
      ∧ Test.pastMemory.pending = some { addr := 0x2007, len := 1 }
      ∧ Test.pastMemory.memRsp = none ∧ readBytes Test.pastMemory 0x2007 1 = none := by
  have e : readByte Test.pastMemory 0x2007 = Config.unmappedByte 0x2007 := rfl
  exact ⟨rfl, rfl, rfl, rfl, by simp [readBytes, e, h]⟩

/-- A host program with a step of each kind. -/
def Test.hosting (pos : Nat) (t : Word) : State :=
  { State.reset with
    host := { prog := [.wr 0x008 1, .rd 0x00C, .bclr 31 0, .bset 0 5, .halt], pos, t, reads := [] } }

/-- A host program at the last offset of register space and at the first past it. -/
def Test.edgeHost (pos : Nat) : HostAgent :=
  { prog := [.wr 0xFFF 0, .rd 0xFFF, .wr 0x1000 0, .rd 0x1000], pos, t := 0, reads := [] }

/-- Each kind of step, a branch bit clear and set at both ends of `t`, the end of the program, and
the offsets at the end of register space. -/
theorem witness_HostProgramSteps :
    (∀ pos < 4, nextTurn (Test.hosting pos 1) = .program)
      ∧ (∀ pos < 6, nextTurn { Test.hosting pos 1 with schedule := [.program] } = .program)
      ∧ (driveReset false (Test.hosting 0 1)).inReset = true ∧ (Test.hosting 0 1).inReset = false
      ∧ (Test.hosting 0 1).host.prog[0]? = some (.wr (0x008 : BitVec 12).toNat 1)
      ∧ (Test.hosting 0 1).host.prog[1]? = some (.rd (0x00C : BitVec 12).toNat)
      ∧ (Test.hosting 0 1).host.prog[2]? = some (.bclr 31 0)
      ∧ (Test.hosting 0 1).host.prog[3]? = some (.bset 0 5)
      ∧ (Test.hosting 0 1).host.prog[4]? = some .halt ∧ (Test.hosting 0 1).host.prog[5]? = none
      ∧ (0x1 : Word).getLsbD 0 = true ∧ (0x1 : Word).getLsbD 31 = false
      ∧ (∀ pos < 4, nextTurn { State.reset with host := Test.edgeHost pos } = .program)
      ∧ (Test.edgeHost 0).prog[0]? = some (.wr (0xFFF : BitVec 12).toNat 0)
      ∧ (Test.edgeHost 1).prog[1]? = some (.rd (0xFFF : BitVec 12).toNat)
      ∧ (Test.edgeHost 2).prog[2]? = some (.wr 0x1000 0)
      ∧ (Test.edgeHost 3).prog[3]? = some (.rd 0x1000)
      ∧ (0x80000000 : Word).getLsbD 0 = false ∧ (0x80000000 : Word).getLsbD 31 = true := by
  decide +kernel

theorem witness_SboxIsInverseThenAffine : (0x53 : Byte) ≠ 0 ∧ gmul 0x53 0xCA = 1 := by decide

/-- The legal round indices at both ends. -/
theorem witness_ArcCommands : (0 : BitVec 4).toNat ≤ 13 ∧ (13 : BitVec 4).toNat ≤ 13 := by decide

theorem witness_RndCommands : (0 : BitVec 4).toNat ≤ 13 ∧ (13 : BitVec 4).toNat ≤ 13 := by decide

theorem witness_RoundsAndPermutationsAreTheirSteps : (13 : BitVec 4).toNat ≤ 13 := by decide

theorem witness_BadRoundIndexEndsInBadRnd :
    13 < (14 : BitVec 4).toNat ∧ 13 < (15 : BitVec 4).toNat := by decide

/-- A message of two blocks, and a place in each. -/
theorem witness_PadByteAgreesWithPad :
    0 < nblocks (List.replicate 120 (0 : Byte)).length
      ∧ 1 < nblocks (List.replicate 120 (0 : Byte)).length ∧ 127 < 128 := by decide +kernel

/-- The edges of every clause. -/
theorem witness_BlockCounts :
    119 ≤ 119 ∧ (120 ≤ 120 ∧ 120 ≤ 247) ∧ (120 ≤ 247 ∧ 247 ≤ 247)
      ∧ (1 ≤ 3 ∧ 128 * 3 ≤ 248 + 136 ∧ 248 + 9 ≤ 128 * 3)
      ∧ (1 ≤ 3 ∧ 128 * 3 ≤ 375 + 136 ∧ 375 + 9 ≤ 128 * 3) ∧ 2 ^ 64 - 1 < 2 ^ 64
      ∧ rangeOk (Test.ranged 7 2 3) = true := by decide +kernel

theorem witness_InvalidRangeEndsInRange : rangeOk (Test.ranged 7 5 3) = false := by decide +kernel

/-- HASH2 and HASH1 accepted, nothing read. -/
theorem witness_HashIssuesNextPiece :
    let s := Test.hashing
    rangeOk s = true ∧ rangeHasSideEffects s = false ∧ s.pending = none ∧ s.failed = false ∧ s.rdLeft ≠ 0
      ∧ s.rdNext + s.rdLeft ≤ 2 ^ 64 := by decide +kernel

/-- A response is awaited; the memory system never answers. -/
theorem witness_HashWaitsForResponse :
    let s := { Test.requested none with memAnswers := false }
    rangeOk s = true ∧ rangeHasSideEffects s = false ∧ s.pending = some { addr := 0x2002, len := 1 }
      ∧ s.memRsp = none ∧ s.inReset = false ∧ s.busy = true ∧ decode s.cmd = .legal .hash2
      ∧ s.memAnswers = false ∧ s.schedule = [] ∧ hostOp? s = none := by decide +kernel

/-- A response with the byte "a"; and the answer of two addresses one of which was stored to. -/
theorem witness_HashReceivesBytes :
    (let s := Test.requested (some (.ok [0x61]));
      rangeOk s = true ∧ rangeHasSideEffects s = false
        ∧ s.pending = some { addr := 0x2002, len := 1 } ∧ s.memRsp = some (.ok [0x61]))
    ∧ readBytes (storeByte 0x2002 0xFF Test.hashing) 0x2002 2
      = some [Config.racyByte 0 0x2002, 0x62] :=
  ⟨by decide +kernel, rfl⟩

/-- An address stored to while busy, one not stored to that memory holds, one that nothing holds, and
a busy state. -/
theorem witness_RacedBytesAreFree :
    let s := storeByte 0x2003 0xFF Test.hashing
    0x2003 ∈ s.stored ∧ 0x2002 ∉ s.stored ∧ Memory.read s.mem 0x2002 = some 0x61
      ∧ 0x2007 ∉ s.stored ∧ Memory.read s.mem 0x2007 = none
      ∧ s.busy = true := by decide +kernel

/-- An error response on the port, and the state after its receipt. -/
theorem witness_BusErrorEndsInBus :
    (let s := Test.requested (some .buserr);
      rangeOk s = true ∧ rangeHasSideEffects s = false
        ∧ s.pending = some { addr := 0x2002, len := 1 } ∧ s.memRsp = some .buserr)
    ∧ rangeOk Test.failed = true ∧ rangeHasSideEffects Test.failed = false
    ∧ Test.failed.pending = none ∧ Test.failed.failed = true := by decide +kernel

/-- HASH2 of "abc" with every byte read. -/
def Test.read : State := { Test.hashing with rdNext := 0x2005, rdLeft := 0, rdData := [0x61, 0x62, 0x63] }

theorem witness_Hash2CompletesWithDoubleHash :
    rangeOk Test.read = true ∧ rangeHasSideEffects Test.read = false ∧ Test.read.pending = none
      ∧ Test.read.failed = false ∧ Test.read.rdLeft = 0 := by decide +kernel

theorem witness_Hash1CompletesWithSinglePass :
    let s := { Test.read with cmd := 2 }
    rangeOk s = true ∧ rangeHasSideEffects s = false ∧ s.pending = none ∧ s.failed = false
      ∧ s.rdLeft = 0 := by
  decide +kernel

/-- A region with read side effects that holds the range's last byte. -/
theorem witness_SideEffectMemoryIsRefused :
    let g : Region := { base := 0x2004, size := 1 }
    let s := { Test.hashing with sideEffects := [g] }
    rangeOk s = true ∧ g ∈ s.sideEffects ∧ g.base ≤ 0x2004 ∧ 0x2004 < g.base + g.size
      ∧ rangeBase s ≤ 0x2004 ∧ 0x2004 < rangeBase s + s.msgLen.toNat := by decide +kernel

/-- "abc" in memory, the range set, the core idle. -/
theorem witness_Hash2RunsToItsDigest :
    let s := Test.ranged 7 2 3
    let msg : List Byte := [0x61, 0x62, 0x63]
    s.inReset = false ∧ s.busy = false ∧ s.schedule = [] ∧ s.memAnswers = true ∧ rangeOk s = true
      ∧ rangeHasSideEffects s = false ∧ msg.length = s.msgLen.toNat
      ∧ ∀ p < msg.length, Memory.read s.mem (rangeBase s + p) = some (msg.getD p 0) := by
  decide +kernel

/-- The empty message at the end of the buffer (V8). -/
theorem witness_Hash1RunsToItsHash :
    let s := Test.ranged 7 7 0
    s.inReset = false ∧ s.busy = false ∧ s.schedule = [] ∧ s.memAnswers = true ∧ rangeOk s = true
      ∧ rangeHasSideEffects s = false ∧ ([] : List Byte).length = s.msgLen.toNat := by
  decide +kernel

/-- V6: "abc" inside the buffer, and a copy of it at 0x3000. -/
theorem witness_SubrangeHashEqualsCopy :
    let s := Test.ranged 7 2 3
    let c := { State.reset with
      srcAddrLo := 0x3000, bufLenLo := 3, lengthLo := 3
      mem := [(0x3000, 0x61), (0x3001, 0x62), (0x3002, 0x63)] }
    let msg : List Byte := [0x61, 0x62, 0x63]
    (s.inReset = false ∧ s.busy = false ∧ s.schedule = [] ∧ s.memAnswers = true
      ∧ rangeOk s = true ∧ rangeHasSideEffects s = false)
    ∧ (c.inReset = false ∧ c.busy = false ∧ c.schedule = [] ∧ c.memAnswers = true
      ∧ rangeOk c = true ∧ rangeHasSideEffects c = false)
    ∧ msg.length = s.msgLen.toNat ∧ c.msgLen = s.msgLen ∧ c.offset = 0 ∧ c.bufLen = c.msgLen
    ∧ (∀ p < msg.length, Memory.read s.mem (rangeBase s + p) = some (msg.getD p 0))
    ∧ ∀ p < msg.length, Memory.read c.mem (c.srcAddr.toNat + p) = some (msg.getD p 0) := by
  decide +kernel

/-- Both ends of a hash command: with VALID, and with an error. -/
theorem witness_NoPartialHashResult :
    (Test.read.done = false ∧ ∃ t, exec .hash2 Test.read = .next t ∧ t.done = true
      ∧ t.valid = true) ∧
    (Test.hashing.done = false ∧ ∃ t, exec .hash1 { Test.hashing with bufLenLo := 4 } = .next t
      ∧ t.done = true ∧ t.err = .range) :=
  ⟨⟨rfl, _, rfl, rfl, rfl⟩, rfl, _, rfl, rfl, rfl⟩

/-- The invariant holds in the middle of a hash, with a response on the port. -/
theorem witness_Inv : Inv (Test.requested (some (.ok [0x61]))) where
  memory := by decide +kernel
  stored := by decide +kernel
  notBoth := by decide +kernel
  validResult := by decide +kernel
  runsWithoutError := by decide +kernel
  idle := by decide +kernel
  held := fun h => absurd h (by decide +kernel)
  response := fun rsp h => ⟨{ addr := 0x2002, len := 1 }, rfl, fun bs hb => by
    have e : rsp = .ok [0x61] := (Option.some.inj h).symm
    rw [e] at hb
    exact congrArg List.length (MemRsp.ok.inj hb).symm⟩
  noMoreRequests := by decide +kernel
  progress := fun _ => by
    have h : willRead (Test.requested (some (.ok [0x61]))).cmd (Test.requested (some (.ok [0x61]))) = true := by
      decide +kernel
    rw [Progress, if_pos h]
    decide +kernel
  request := fun q hq => by
    have h : q = { addr := 0x2002, len := 1 } := by
      have := hq.symm.trans (show _ = some { addr := 0x2002, len := 1 } from rfl)
      simpa using this
    subst h
    refine ⟨by decide +kernel, by decide, ?_, by decide +kernel⟩
    simp [Config.memMaxReq]

/-- The machine after reset with a host program. -/
def Test.atRest (h : HostAgent) : State := { State.reset with host := h }

/-- The first half of `Test.edgeHost`, within register space. -/
def Test.lastOffset : HostAgent :=
  { prog := [.wr 0xFFF 0, .rd 0xFFF], pos := 1, t := 0, reads := [] }

theorem witness_atRest (h : HostAgent) : Inv (Test.atRest h) := by
  constructor <;> simp [Test.atRest, State.reset, Memory.wf]

theorem witness_InvariantIsKept :
    Inv (Test.requested (some (.ok [0x61]))) ∧ ∃ t, step (Test.requested (some (.ok [0x61]))) = .next t :=
  ⟨witness_Inv, _, rfl⟩

/-- The invariant in the middle of a hash, and at rest with a host program at the last offset of
register space, whose step is the next, and at the first past it. -/
theorem witness_InvariantExcludesFaults :
    Inv (Test.requested (some (.ok [0x61]))) ∧ Inv (Test.atRest (Test.edgeHost 2))
      ∧ Inv (Test.atRest Test.lastOffset) ∧ HostOffsetsFit (Test.atRest Test.lastOffset)
      ∧ ¬HostOffsetsFit (Test.atRest (Test.edgeHost 2))
      ∧ ∃ t, step (Test.atRest Test.lastOffset) = .next t :=
  ⟨witness_Inv, witness_atRest _, witness_atRest _, by unfold HostOffsetsFit; decide +kernel,
    by unfold HostOffsetsFit; decide +kernel, _, rfl⟩

/-- A step in which another agent's store changes a byte of memory. -/
theorem witness_CoreNeverWritesMemory :
    (∃ t, exec .subP State.reset = .next t) ∧
    ∃ t, step { State.reset with schedule := [.store 0x10 0xAB] } = .next t
      ∧ Memory.read t.mem 0x10 ≠ Memory.read State.reset.mem 0x10 :=
  ⟨⟨_, rfl⟩, _, rfl, by decide +kernel⟩

theorem witness_CommandsKeepRangeAndControl : ∃ t, exec .permP State.reset = .next t := ⟨_, rfl⟩

theorem witness_OnlyHashSetsValid :
    Test.read.valid = false ∧ ∃ t, step Test.read = .next t ∧ t.valid = true := ⟨rfl, _, rfl, rfl⟩

/-- The edges of the reserved ranges of the register map. -/
theorem witness_ControlReadsAreExact :
    ∀ off ∈ ([0x038, 0x03C, 0x060, 0x07C, 0x0C0, 0x0FC, 0x300, 0xFFC] : List Nat),
      off % 4 = 0 ∧ ((0x038 ≤ off ∧ off < 0x040) ∨ (0x060 ≤ off ∧ off < 0x080)
        ∨ (0x0C0 ≤ off ∧ off < 0x100) ∨ (0x300 ≤ off ∧ off < 0x1000)) := by decide

/-- The edges of the windows, and a busy and an idle state. -/
theorem witness_WindowReads :
    (∀ off ∈ ([0x040, 0x05C, 0x080, 0x0BC, 0x100, 0x17C, 0x180, 0x2FC] : List Nat),
      off % 4 = 0 ∧ ((0x040 ≤ off ∧ off < 0x060) ∨ (0x080 ≤ off ∧ off < 0x0C0)
        ∨ (0x100 ≤ off ∧ off < 0x300)))
    ∧ Test.hashing.busy = true ∧ State.reset.busy = false := by decide +kernel

/-- The edges of the writable ranges, and an idle state. -/
theorem witness_IdleWritesReplaceRegisters :
    (∀ off ∈ ([0x018, 0x034, 0x100, 0x2FC] : List Nat),
      off % 4 = 0 ∧ ((0x018 ≤ off ∧ off < 0x038) ∨ (0x100 ≤ off ∧ off < 0x300)))
    ∧ State.reset.busy = false := by decide

/-- The edges of the guarded ranges, and a busy state. -/
theorem witness_BusyWritesAreDropped :
    (∀ off ∈ ([0x010, 0x018, 0x034, 0x100, 0x2FC] : List Nat),
      off % 4 = 0 ∧ (off = 0x010 ∨ (0x018 ≤ off ∧ off < 0x038) ∨ (0x100 ≤ off ∧ off < 0x300)))
    ∧ Test.hashing.busy = true := by decide +kernel

/-- The edges of the ranges that ignore writes. -/
theorem witness_ReadOnlyAndReservedWritesIgnored :
    ∀ off ∈ ([0x000, 0x004, 0x014, 0x038, 0x0FC, 0x300, 0xFFC] : List Nat),
      off % 4 = 0 ∧ (off < 0x008 ∨ off = 0x014 ∨ (0x038 ≤ off ∧ off < 0x100) ∨ 0x300 ≤ off) := by
  decide

/-- A misaligned offset, a write without all byte enables, and a request that is neither. -/
theorem witness_PortRefusesBadRequests :
    (readRequest 0xFFF).addr.toNat % 4 ≠ 0
      ∧ (∃ q : RegReq, q.write = true ∧ q.be ≠ 0b1111 ∧ q.addr.toNat % 4 = 0)
      ∧ (writeRequest 0xFFC 0).addr.toNat % 4 = 0
      ∧ ((writeRequest 0xFFC 0).write = true → (writeRequest 0xFFC 0).be = 0b1111) :=
  ⟨by decide, ⟨{ write := true, addr := 0x008, be := 0b0111, wdata := 0 }, by decide⟩, by decide,
    by decide⟩

theorem witness_CmdWriteAccepts :
    (Test.ranged 7 2 3).busy = false ∧ decode 0x00000001 = .legal .hash2
      ∧ decode 0x00000002 = .legal .hash1 ∧ rangeOk (Test.ranged 7 2 3) = true := by decide +kernel

theorem witness_InterruptLine :
    State.reset.inReset = false ∧ State.reset.busy = false ∧ (0x2 : Word).getLsbD 1 = true
      ∧ (0x2 : Word).getLsbD 0 = false ∧ (0x1 : Word).getLsbD 0 = true := by decide

/-- A reset held low, and a released core. -/
theorem witness_ResetLeavesResetValues :
    (driveReset false Test.hashing).inReset = true ∧ Test.hashing.inReset = false := by
  decide +kernel
end

section
/-! The register space word by word (10_state.md R32, R54 to R56, R60, R62): which register an offset
names, what a register holds, and what a write to it leaves of the others. -/

namespace Sys2Proof.Machine

/-! ### Words and bits -/

/-- The byte lanes of a word, put together again, are the word (R54). -/
theorem wordOfBytes_byteLanes (x : Word) :
    wordOfBytes (byteLane x 0) (byteLane x 1) (byteLane x 2) (byteLane x 3) = x := by
  rw [wordOfBytes, byteLane, byteLane, byteLane, byteLane,
    BitVec.extractLsb'_append_extractLsb'_eq_extractLsb' (by rfl),
    BitVec.extractLsb'_append_extractLsb'_eq_extractLsb' (by rfl),
    BitVec.extractLsb'_append_extractLsb'_eq_extractLsb' (by rfl), BitVec.extractLsb'_eq_self]

theorem wordAt_setWord_same {n : Nat} (v : Bytes n) {w : Nat} (x : Word) (h : 4 * w + 3 < n) :
    wordAt (setWord v w x) w = x := by
  have lane : ∀ j < 4, byteAt (setWord v w x) (4 * w + j) = byteLane x j := fun j hj => by
    rw [byteAt_setWord v w x (by omega), if_pos (by omega), Nat.mul_add_mod, Nat.mod_eq_of_lt hj]
  have lane0 := lane 0 (by omega)
  rw [Nat.add_zero] at lane0
  rw [wordAt, lane0, lane 1 (by omega), lane 2 (by omega), lane 3 (by omega),
    wordOfBytes_byteLanes]

theorem wordAt_setWord_other {n : Nat} (v : Bytes n) {w w' : Nat} (x : Word) (h : w' ≠ w) :
    wordAt (setWord v w x) w' = wordAt v w' := by
  have kept : ∀ k, k / 4 = w' → byteAt (setWord v w x) k = byteAt v k := fun k hk => by
    by_cases hn : k < n
    · rw [byteAt_setWord v w x hn, if_neg (by omega)]
    · rw [byteAt_of_le _ (Nat.le_of_not_lt hn), byteAt_of_le _ (Nat.le_of_not_lt hn)]
  simp only [wordAt]
  rw [kept (4 * w') (by omega), kept (4 * w' + 1) (by omega), kept (4 * w' + 2) (by omega),
    kept (4 * w' + 3) (by omega)]

theorem getLsbD_bitAt (b : Bool) (i : Nat) {k : Nat} (hk : k < 32) :
    (bitAt b i).getLsbD k = (decide (k = i) && b) := by
  by_cases h : k = i
  · simp [bitAt, h, h ▸ hk]
  · by_cases hi : k < i
    · simp [bitAt, h, hi]
    · simp [bitAt, h, hk, BitVec.getLsbD_ofBool, show k - i ≠ 0 by omega]

/-- The field ERR of STATUS, bits 11:8 (R36). -/
theorem getLsbD_errField (c : BitVec 4) {k : Nat} (hk : k < 32) :
    (c.setWidth 32 <<< 8 : Word).getLsbD k = (decide (8 ≤ k ∧ k < 12) && c.getLsbD (k - 8)) := by
  by_cases hlo : k < 8
  · simp [hlo, show ¬8 ≤ k by omega]
  · by_cases hhi : k < 12
    · simp [hk, hhi, show 8 ≤ k by omega]
    · simp [hk, hhi, BitVec.getLsbD_of_ge c (k - 8) (by omega)]

theorem getLsbD_ctrlWord (s : State) {k : Nat} (hk : k < 32) :
    (ctrlWord s).getLsbD k = (decide (k = 0) && s.ie) := getLsbD_bitAt s.ie 0 hk

theorem getLsbD_statusWord (s : State) {k : Nat} (hk : k < 32) :
    (statusWord s).getLsbD k =
      if k = 0 then s.busy else if k = 1 then s.done else if k = 2 then s.valid
      else if k = 3 then s.wbusy else (decide (8 ≤ k ∧ k < 12) && s.err.code.getLsbD (k - 8)) := by
  simp only [statusWord, BitVec.getLsbD_or, getLsbD_bitAt _ _ hk, getLsbD_errField _ hk]
  split_ifs with h0 h1 h2 h3
  · simp [h0]
  · simp [h1]
  · simp [h2]
  · simp [h3]
  · simp [h0, h1, h2, h3]

/-! ### The register map -/

/-- The registers R60 lets a read return exactly while BUSY = 1: all but the words of windows. -/
def Reg.isControl : Reg → Bool
  | .digest _ | .hout _ | .hreg _ | .mreg _ | .pst _ | .qst _ => false
  | .id | .version | .ctrl | .status | .cmd | .srcAddrLo | .srcAddrHi | .bufLenLo | .bufLenHi
  | .offsetLo | .offsetHi | .lengthLo | .lengthHi | .reserved => true

/-- The registers R62 lets an idle write replace: the halves of the range registers, and the words of
HREG, MREG, PST and QST. -/
def Reg.isOperand : Reg → Bool
  | .srcAddrLo | .srcAddrHi | .bufLenLo | .bufLenHi | .offsetLo | .offsetHi | .lengthLo
  | .lengthHi => true
  | .hreg w | .mreg w | .pst w | .qst w => decide (w < 32)
  | .id | .version | .ctrl | .status | .cmd | .digest _ | .hout _ | .reserved => false

/-- The rows of R32: the register `r` stands at offset `off`; the gaps are R55's. -/
def Reg.StandsAt (r : Reg) (off : Nat) : Prop :=
  match r with
  | .id => off = 0x000
  | .version => off = 0x004
  | .ctrl => off = 0x008
  | .status => off = 0x00C
  | .cmd => off = 0x010
  | .srcAddrLo => off = 0x018
  | .srcAddrHi => off = 0x01C
  | .bufLenLo => off = 0x020
  | .bufLenHi => off = 0x024
  | .offsetLo => off = 0x028
  | .offsetHi => off = 0x02C
  | .lengthLo => off = 0x030
  | .lengthHi => off = 0x034
  | .digest w => w < 8 ∧ off = 0x040 + 4 * w
  | .hout w => w < 16 ∧ off = 0x080 + 4 * w
  | .hreg w => w < 32 ∧ off = 0x100 + 4 * w
  | .mreg w => w < 32 ∧ off = 0x180 + 4 * w
  | .pst w => w < 32 ∧ off = 0x200 + 4 * w
  | .qst w => w < 32 ∧ off = 0x280 + 4 * w
  | .reserved => off = 0x014 ∨ (0x038 ≤ off ∧ off < 0x040) ∨ (0x060 ≤ off ∧ off < 0x080)
      ∨ (0x0C0 ≤ off ∧ off < 0x100) ∨ 0x300 ≤ off

/-- What the register map answers for an aligned offset stands there; the branches of `regAt` are
walked here only. -/
theorem regAt_standsAt {off : Nat} (ha : off % 4 = 0) : (regAt off).StandsAt off := by
  unfold regAt
  repeat' refine iteInduction (motive := (Reg.StandsAt · off)) (fun _ => ?_) fun _ => ?_
  all_goals
    simp only [Reg.StandsAt]
    omega

/-- Every register but the reserved one stands at one offset. -/
theorem Reg.StandsAt.unique {r : Reg} {o off : Nat} (ho : r.StandsAt o) (hoff : r.StandsAt off)
    (h : r ≠ .reserved) : o = off := by
  cases r
  case reserved => exact absurd rfl h
  all_goals
    simp only [Reg.StandsAt] at ho hoff
    omega

/-- Two aligned offsets name the same register only where both are reserved. -/
theorem regAt_ne_of_ne {o off : Nat} (ho : o % 4 = 0) (ha : off % 4 = 0)
    (h : regAt off ≠ .reserved) (hne : o ≠ off) : regAt o ≠ regAt off := fun e =>
  hne ((e ▸ regAt_standsAt ho : (regAt off).StandsAt o).unique (regAt_standsAt ha) h)

/-- The guarded ranges of the map (R61, R62), CMD apart, hold operands only. -/
theorem isOperand_regAt {off : Nat} (ha : off % 4 = 0)
    (h : (0x018 ≤ off ∧ off < 0x038) ∨ (0x100 ≤ off ∧ off < 0x300)) :
    (regAt off).isOperand = true := by
  have place := regAt_standsAt ha
  cases hr : regAt off <;> rw [hr] at place <;> simp only [Reg.StandsAt] at place
  case hreg | mreg | pst | qst => exact decide_eq_true place.1
  case id | version | ctrl | status | cmd | digest | hout | reserved => omega
  all_goals rfl

/-- The gaps of the map are reserved (R55). -/
theorem regAt_reserved {off : Nat} (ha : off % 4 = 0) (h : Reg.reserved.StandsAt off) :
    regAt off = .reserved := by
  have place := regAt_standsAt ha
  simp only [Reg.StandsAt] at h
  cases hr : regAt off <;> rw [hr] at place <;> simp only [Reg.StandsAt] at place
  all_goals omega

/-! ### Reads -/

/-- What a register holds: what it reads as, but for the free values of a window while BUSY = 1. -/
def Reg.value (r : Reg) (s : State) : Word :=
  match r with
  | .id => idWord
  | .version => versionWord
  | .ctrl => ctrlWord s
  | .status => statusWord s
  | .cmd => s.cmd
  | .srcAddrLo => s.srcAddrLo
  | .srcAddrHi => s.srcAddrHi
  | .bufLenLo => s.bufLenLo
  | .bufLenHi => s.bufLenHi
  | .offsetLo => s.offsetLo
  | .offsetHi => s.offsetHi
  | .lengthLo => s.lengthLo
  | .lengthHi => s.lengthHi
  | .digest w => wordAt s.digest w
  | .hout w => wordAt s.hout w
  | .hreg w => wordAt s.hreg w
  | .mreg w => wordAt s.mreg w
  | .pst w => wordAt s.pst w
  | .qst w => wordAt s.qst w
  | .reserved => 0

/-- A read of a register outside the windows is exact, busy or not (R60). -/
theorem readReg_control {r : Reg} (hr : r.isControl = true) (s : State) :
    readReg r s = (r.value s, s) := by
  cases r
  case digest | hout | hreg | mreg | pst | qst => cases hr
  all_goals rfl

/-- While BUSY = 0 every register reads what it holds, and the read changes nothing (R54). -/
theorem readReg_idle (r : Reg) {s : State} (h : s.busy = false) :
    readReg r s = (r.value s, s) := by
  cases r
  case digest | hout | hreg | mreg | pst | qst => exact readWindow_idle _ h
  all_goals rfl

/-- The port answers an aligned read, whatever its byte enables, with the register's reading (R83). -/
theorem access_read {off : BitVec 12} (ha : off.toNat % 4 = 0) (be : BitVec 4) (d : Word)
    (s : State) :
    access { write := false, addr := off, be := be, wdata := d } s
      = ({ rdata := (readReg (regAt off.toNat) s).1, err := false },
          (readReg (regAt off.toNat) s).2) := by
  simp [access, portRefuses, ha]

theorem access_read_control {off : BitVec 12} (ha : off.toNat % 4 = 0)
    (hr : (regAt off.toNat).isControl = true) (be : BitVec 4) (d : Word) (s : State) :
    access { write := false, addr := off, be := be, wdata := d } s
      = ({ rdata := (regAt off.toNat).value s, err := false }, s) := by
  rw [access_read ha, readReg_control hr]

theorem access_readRequest_idle {off : BitVec 12} (ha : off.toNat % 4 = 0) {s : State}
    (h : s.busy = false) :
    access (readRequest off) s = ({ rdata := (regAt off.toNat).value s, err := false }, s) := by
  rw [readRequest, access_read ha, readReg_idle _ h]

/-! ### Writes -/

/-- The port answers an aligned full write with zero data and writes the register (R83). -/
theorem access_writeRequest {off : BitVec 12} (ha : off.toNat % 4 = 0) (v : Word) (s : State) :
    access (writeRequest off v) s
      = ({ rdata := 0, err := false }, writeReg (regAt off.toNat) v s) := by
  simp [access, portRefuses, writeRequest, ha]

/-- An idle write to an operand replaces range registers and writable windows, no other field. -/
theorem writeReg_operand {r : Reg} (hr : r.isOperand = true) (v : Word) {s : State}
    (h : s.busy = false) :
    ∃ (a b c d e f g i : Word) (hr mr p q : Block), writeReg r v s = { s with
      srcAddrLo := a, srcAddrHi := b, bufLenLo := c, bufLenHi := d, offsetLo := e, offsetHi := f,
      lengthLo := g, lengthHi := i, hreg := hr, mreg := mr, pst := p, qst := q } := by
  cases r
  case id | version | ctrl | status | cmd | digest | hout | reserved => cases hr
  all_goals exact ⟨_, _, _, _, _, _, _, _, _, _, _, _, writeIfIdle_idle _ h⟩

/-- An idle write to an operand is read back (R62). -/
theorem value_writeReg_same {r : Reg} (hr : r.isOperand = true) (v : Word) {s : State}
    (h : s.busy = false) : r.value (writeReg r v s) = v := by
  cases r
  case id | version | ctrl | status | cmd | digest | hout | reserved => cases hr
  case hreg w | mreg w | pst w | qst w =>
    have hw : w < 32 := of_decide_eq_true hr
    simp only [writeReg, writeIfIdle_idle _ h, Reg.value]
    exact wordAt_setWord_same _ v (by omega)
  all_goals simp only [writeReg, writeIfIdle_idle _ h, Reg.value]

/-- An idle write to an operand leaves what every other register holds (R62). -/
theorem value_writeReg_other {r r' : Reg} (hr : r.isOperand = true) (hne : r' ≠ r) (v : Word)
    {s : State} (h : s.busy = false) : r'.value (writeReg r v s) = r'.value s := by
  cases r
  case id | version | ctrl | status | cmd | digest | hout | reserved => cases hr
  all_goals
    simp only [writeReg, writeIfIdle_idle _ h]
    cases r'
  case hreg.hreg | mreg.mreg | pst.pst | qst.qst =>
    exact wordAt_setWord_other _ v fun e => hne (by rw [e])
  case srcAddrLo.srcAddrLo | srcAddrHi.srcAddrHi | bufLenLo.bufLenLo | bufLenHi.bufLenHi
    | offsetLo.offsetLo | offsetHi.offsetHi | lengthLo.lengthLo | lengthHi.lengthHi =>
    exact absurd rfl hne
  all_goals rfl

/-! ### The statements -/

/-- Settles O53: the offset names an operand, the write is its idle write, and the map is injective
where it is not reserved. -/
theorem idleWritesReplaceRegisters : Obligations.IdleWritesReplaceRegisters := by
  intro s off v hidle ha hoff
  have hop : (regAt off.toNat).isOperand = true := isOperand_regAt ha hoff
  have hres : regAt off.toNat ≠ .reserved := fun e => by rw [e] at hop; cases hop
  obtain ⟨_, _, _, _, _, _, _, _, _, _, _, _, ht⟩ := writeReg_operand hop v hidle
  have hidle' : (writeReg (regAt off.toNat) v s).busy = false := by rw [ht]; exact hidle
  refine ⟨writeReg (regAt off.toNat) v s, access_writeRequest ha v s, ?_, fun o ho hne => ?_, ?_⟩
  · rw [access_readRequest_idle ha hidle', value_writeReg_same hop v hidle]
  · have hreg : regAt o.toNat ≠ regAt off.toNat :=
      regAt_ne_of_ne ho ha hres fun e => hne (BitVec.eq_of_toNat_eq e)
    rw [access_readRequest_idle ho hidle', access_readRequest_idle ho hidle,
      value_writeReg_other hop hreg v hidle]
  · rw [ht]
    exact ⟨⟨rfl, rfl, rfl, rfl, rfl, rfl⟩, ⟨rfl, rfl, rfl, rfl, rfl, rfl, rfl⟩,
      ⟨rfl, rfl, fun _ => rfl, rfl, rfl, rfl, rfl, rfl⟩, rfl, rfl⟩

/-- Settles O51: none of the named offsets is a window's, and the gaps of the map read 0. -/
theorem controlReadsAreExact : Obligations.ControlReadsAreExact := by
  intro s
  constructor
  · intro p hp be d
    fin_cases hp <;> dsimp only <;> exact access_read_control rfl rfl be d s
  · intro off ha hoff
    have hres : regAt off.toNat = .reserved :=
      regAt_reserved ha (hoff.imp_left (congrArg BitVec.toNat))
    rw [readRequest, access_read_control ha (by rw [hres]; rfl), hres]
    rfl

/-- Settles O56: each word bit by bit, and the two writes, which no rule guards by BUSY. -/
theorem controlAndStatusWords : Obligations.ControlAndStatusWords := fun s v =>
  ⟨fun _ hk => getLsbD_ctrlWord s hk, fun _ hk => getLsbD_statusWord s hk,
    access_writeRequest rfl v s, access_writeRequest rfl v s⟩

end Sys2Proof.Machine
end

section
/-! Memory and the two ports (20_memory.md R83, R96): what the register port refuses, everything a
core step of a command can do to the state, and that no turn but another agent's store moves a
byte. -/

namespace Sys2Proof.Machine

/-! ### Requests the register port refuses -/

/-- The port refuses a misaligned offset, and a write without all byte enables, and no other request
(R83). -/
theorem portRefuses_iff (q : RegReq) :
    portRefuses q = true ↔ q.addr.toNat % 4 ≠ 0 ∨ (q.write = true ∧ q.be ≠ 0b1111) := by
  simp [portRefuses]

theorem access_refused {q : RegReq} (h : portRefuses q = true) (s : State) :
    access q s = ({ rdata := 0, err := true }, s) := if_pos h

/-- An access reports an error exactly where the port refuses it. -/
theorem access_err (q : RegReq) (s : State) : (access q s).1.err = portRefuses q := by
  rcases access_cases q s with ⟨h, e⟩ | ⟨h, _, e⟩ | ⟨h, _, e⟩ <;> rw [e, h]

/-! ### What a core step of a command can do -/

/-- From `s` to `t` only the six windows and the model's count of draws may differ. -/
def OnlyWindowsDiffer (s t : State) : Prop :=
  ∃ (d : Bytes 32) (o : Bytes 64) (h m p q : Block) (n : Nat), t = { s with
    digest := d, hout := o, hreg := h, mreg := m, pst := p, qst := q, draws := n }

theorem OnlyWindowsDiffer.refl (s : State) : OnlyWindowsDiffer s s := ⟨_, _, _, _, _, _, _, rfl⟩

theorem OnlyWindowsDiffer.trans {s t u : State} (hst : OnlyWindowsDiffer s t)
    (htu : OnlyWindowsDiffer t u) : OnlyWindowsDiffer s u := by
  obtain ⟨_, _, _, _, _, _, _, rfl⟩ := hst
  obtain ⟨_, _, _, _, _, _, _, rfl⟩ := htu
  exact ⟨_, _, _, _, _, _, _, rfl⟩

theorem OnlyWindowsDiffer.mem_eq {s t : State} (h : OnlyWindowsDiffer s t) : t.mem = s.mem := by
  obtain ⟨_, _, _, _, _, _, _, rfl⟩ := h
  rfl

theorem initEffect_onlyWindows (s : State) : OnlyWindowsDiffer s (initEffect s) :=
  ⟨_, _, _, _, _, _, _, rfl⟩

theorem compEffect_onlyWindows (s : State) : OnlyWindowsDiffer s (compEffect s) :=
  ⟨_, _, _, _, _, _, _, rfl⟩

theorem omegaEffect_onlyWindows (s : State) : OnlyWindowsDiffer s (omegaEffect s) :=
  ⟨_, _, _, _, _, _, _, rfl⟩

theorem chainEffect_onlyWindows (s : State) : OnlyWindowsDiffer s (chainEffect s) :=
  ⟨_, _, _, _, _, _, _, rfl⟩

theorem truncEffect_onlyWindows (s : State) : OnlyWindowsDiffer s (truncEffect s) :=
  ⟨_, _, _, _, _, _, _, rfl⟩

theorem absorbBlocks_onlyWindows (msg : List Byte) (count k : Nat) (s : State) :
    OnlyWindowsDiffer s (absorbBlocks msg count k s) := by
  induction count generalizing k s with
  | zero => exact .refl s
  | succ n ih =>
    have loaded : OnlyWindowsDiffer s { s with mreg := loadBlock msg k } :=
      ⟨_, _, _, _, _, _, _, rfl⟩
    exact (loaded.trans (compEffect_onlyWindows _)).trans (ih (k + 1) _)

theorem passFromMemory_onlyWindows (msg : List Byte) (s : State) :
    OnlyWindowsDiffer s (passFromMemory msg s) :=
  initEffect_onlyWindows s
    |>.trans (absorbBlocks_onlyWindows msg _ 0 _)
    |>.trans (omegaEffect_onlyWindows _)

/-- HASH2's writes, in the order of 42_pipeline.md R246. -/
theorem hash2Effect_onlyWindows (msg : List Byte) (s : State) :
    OnlyWindowsDiffer s (hash2Effect msg s) :=
  passFromMemory_onlyWindows msg s
    |>.trans (chainEffect_onlyWindows _)
    |>.trans (initEffect_onlyWindows _)
    |>.trans (compEffect_onlyWindows _)
    |>.trans (omegaEffect_onlyWindows _)
    |>.trans (truncEffect_onlyWindows _)

theorem hash1Effect_onlyWindows (msg : List Byte) (s : State) :
    OnlyWindowsDiffer s (hash1Effect msg s) :=
  (passFromMemory_onlyWindows msg s).trans ⟨_, _, _, _, _, _, _, rfl⟩

/-- A core step of a command, from `s` to `t`: it completes with windows written, issues a request,
receives a response, or waits for one (20_memory.md R99). -/
inductive CommandStep (s : State) : State → Prop where
  | completes {u : State} (e : ErrCode) (v : Bool) (writes : OnlyWindowsDiffer s u) :
      CommandStep s (complete e v u)
  | issues : CommandStep s (setRequest (nextRequest s) s)
  | receives (q : MemReq) (rsp : MemRsp) : CommandStep s (receiveResponse q rsp s)
  | waits : CommandStep s s

theorem commandStep_of_hashCommand {effect : List Byte → State → State} {s t : State}
    (writes : ∀ msg, OnlyWindowsDiffer s (effect msg s)) (h : hashCommand effect s = .next t) :
    CommandStep s t := by
  rcases hashCommand_cases effect s with ⟨_, e⟩ | ⟨_, _, e⟩ |
    ⟨_, _, ⟨q, rsp, _, _, e⟩ | ⟨_, _, _, e⟩ | ⟨_, _, e⟩ | ⟨_, _, _, e⟩ | ⟨_, _, _, e⟩⟩ <;>
    rw [e] at h
  · cases h; exact .completes _ _ ⟨_, _, _, _, _, _, _, rfl⟩
  · cases h
  · cases h; exact .receives q rsp
  · cases h; exact .waits
  · cases h; exact .completes _ _ ⟨_, _, _, _, _, _, _, rfl⟩
  · cases h; exact .completes _ _ (writes _)
  · rcases issueRequest_cases s with ⟨_, e⟩ | ⟨_, e⟩ <;> rw [e] at h <;> cases h
    exact .issues

theorem commandStep_of_withRound {r : BitVec 4} {s t u : State} (writes : OnlyWindowsDiffer s u)
    (h : withRound r s u = .next t) : CommandStep s t := by
  rcases withRound_cases r s u with ⟨_, e⟩ | ⟨_, e⟩ <;> rw [e] at h <;> cases h
  · exact .completes _ _ writes
  · exact .completes _ _ (.refl s)

/-- HASH1 and HASH2 read, the round-indexed commands check their index, and every other command
completes at once. -/
theorem commandStep_of_exec {i : Instr} {s t : State} (h : exec i s = .next t) :
    CommandStep s t := by
  cases i
  case hash2 => exact commandStep_of_hashCommand (fun msg => hash2Effect_onlyWindows msg s) h
  case hash1 => exact commandStep_of_hashCommand (fun msg => hash1Effect_onlyWindows msg s) h
  case arcP | arcQ | rndP | rndQ =>
    exact commandStep_of_withRound ⟨_, _, _, _, _, _, _, rfl⟩ h
  all_goals
    cases h
    exact .completes _ _ ⟨_, _, _, _, _, _, _, rfl⟩

/-! ### No turn but a store moves a byte of memory -/

@[simp] theorem receiveResponse_mem (q : MemReq) (rsp : MemRsp) (s : State) :
    (receiveResponse q rsp s).mem = s.mem := by
  cases rsp <;> rfl

theorem exec_keeps_mem {i : Instr} {s t : State} (h : exec i s = .next t) : t.mem = s.mem := by
  cases commandStep_of_exec h with
  | completes e v writes => exact writes.mem_eq
  | issues => rfl
  | receives q rsp => exact receiveResponse_mem q rsp s
  | waits => rfl

theorem coreStep_keeps_mem {s t : State} (h : coreStep s = .next t) : t.mem = s.mem := by
  rcases coreStep_cases s with ⟨_, e⟩ | ⟨_, _, ⟨_, _, e⟩ | ⟨_, e⟩ | ⟨_, e⟩⟩ <;> rw [e] at h
  case inr.inl => exact exec_keeps_mem h
  all_goals
    cases h
    rfl

theorem memoryTurn_keeps_mem {c : MemChoice} {s t : State} (h : memoryTurn c s = .next t) :
    t.mem = s.mem := by
  rcases memoryTurn_cases c s with ⟨_, e⟩ | ⟨_, _, _, _, e⟩ | ⟨_, _, e⟩ <;> rw [e] at h <;> cases h
  all_goals rfl

@[simp] theorem writeReg_mem (r : Reg) (v : Word) (s : State) : (writeReg r v s).mem = s.mem := by
  cases hb : s.busy
  · rcases writeReg_idle (r := r) (v := v) hb with e | e | e | e | ⟨_, _, _, _, _, _, _, _, e⟩ |
      ⟨_, _, _, _, e⟩ <;> rw [e] <;> rfl
  · rcases writeReg_busy (r := r) (v := v) hb with e | e | e | e <;> rw [e] <;> rfl

@[simp] theorem access_mem (q : RegReq) (s : State) : (access q s).2.mem = s.mem := by
  rcases access_cases q s with ⟨_, e⟩ | ⟨_, _, e⟩ | ⟨_, _, e⟩ <;> rw [e]
  · exact writeReg_mem _ _ s
  · rcases readReg_state (regAt q.addr.toNat) s with e | e <;> simp [e]

@[simp] theorem accessPort_mem (q : RegReq) (s : State) : (accessPort q s).mem = s.mem :=
  access_mem q s

@[simp] theorem hostTurn_mem (q : RegReq) (s : State) : (hostTurn q s).mem = s.mem := by
  unfold hostTurn
  split
  · rfl
  · exact accessPort_mem q s

theorem atPort_keeps_mem {off : Nat} {f : BitVec 12 → State} {s t : State}
    (hf : ∀ a, (f a).mem = s.mem) (h : atPort off f = .next t) : t.mem = s.mem := by
  rcases atPort_cases off f with ⟨a, _, e⟩ | ⟨_, e⟩ <;> rw [e] at h <;> cases h
  exact hf a

theorem runHostOp_keeps_mem {op : HostOp} {s t : State} (h : runHostOp op s = .next t) :
    t.mem = s.mem := by
  cases op
  case wr | rd => exact atPort_keeps_mem (fun _ => by simp) h
  case bclr | bset | halt =>
    cases h
    rfl

theorem programTurn_keeps_mem {s t : State} (h : programTurn s = .next t) : t.mem = s.mem := by
  rcases programTurn_cases s with e | ⟨op, _, _, e⟩ <;> rw [e] at h
  · cases h; rfl
  · exact runHostOp_keeps_mem h

@[simp] theorem driveReset_mem (level : Bool) (s : State) : (driveReset level s).mem = s.mem := by
  rcases driveReset_cases level s with ⟨_, _, e⟩ | e
  · rw [e]
  · rw [e]; rfl

/-- A turn leaves memory as it was, unless it is another agent's store (R96, R97). -/
theorem runTurn_mem_cases {turn : Turn} {s t : State} (h : runTurn turn s = .next t) :
    t.mem = s.mem ∨ ∃ x b, turn = .store x b ∧ t.mem = Memory.write s.mem x.toNat b := by
  cases turn with
  | core c => exact .inl (coreStep_keeps_mem (s := setCut c s) h)
  | memory c => exact .inl (memoryTurn_keeps_mem h)
  | host q => cases h; exact .inl (hostTurn_mem q s)
  | program => exact .inl (programTurn_keeps_mem h)
  | store x b => cases h; exact .inr ⟨x, b, rfl, rfl⟩
  | rst level => cases h; exact .inl (driveReset_mem level s)

/-! ### The statements -/

/-- Settles O48: every turn but a store keeps memory, and a store keeps every other address. -/
theorem coreNeverWritesMemory : Obligations.CoreNeverWritesMemory := by
  refine ⟨fun i s t h a => by rw [exec_keeps_mem h], fun s t h a changed => ?_⟩
  rcases runTurn_mem_cases h with kept | ⟨x, b, hturn, written⟩
  · rw [kept, popTurn_mem] at changed
    exact absurd rfl changed
  · refine ⟨x, b, hturn, by_contra fun other => changed ?_⟩
    rw [written, popTurn_mem, Memory_read_write_other _ _ other]

/-- Settles O57: the refused requests are those the port refuses, and only those report an error. -/
theorem portRefusesBadRequests : Obligations.PortRefusesBadRequests := by
  intro s q
  refine ⟨fun bad => access_refused ((portRefuses_iff q).2 bad) s, fun aligned full => ?_⟩
  have accepted : portRefuses q ≠ true := fun refused => by
    rcases (portRefuses_iff q).1 refused with misaligned | ⟨write, notFull⟩
    · exact misaligned aligned
    · exact notFull (full write)
  rw [access_err, Bool.eq_false_of_not_eq_true accepted]

end Sys2Proof.Machine
end

section
/-! The permutation core's commands (40_permutation_core.md R141 to R147, R150 to R162): each round
step byte by byte, and what a command that completes in one core step leaves behind. -/

namespace Sys2Proof.Machine

/-! ### The round steps byte by byte -/

theorem byteAt_subBytes (S : Block) {k : Nat} (hk : k < 128) :
    byteAt (subBytes S) k = sbox (byteAt S k) :=
  byteAt_tabulate_of_lt _ hk

/-- The column's number and the round's share no bit, so that their xor is a sum (R142, R143). -/
theorem roundConst_eq_add (r : BitVec 4) {j : Nat} (hj : j < 16) :
    roundConst r j = BitVec.ofNat 8 (16 * j + r.toNat) := by
  interval_cases j <;> revert r <;> decide

theorem byteAt_arcP_row0 (S : Block) (r : BitVec 4) {j : Nat} (hj : j < 16) :
    byteAt (arcP S r) (8 * j) = byteAt S (8 * j) ^^^ BitVec.ofNat 8 (16 * j + r.toNat) := by
  rw [arcP, byteAt_tabulate_of_lt _ (by omega), if_pos (by omega),
    show 8 * j / 8 = j by omega, roundConst_eq_add r hj]

theorem byteAt_arcP_other (S : Block) (r : BitVec 4) {i j : Nat} (hi : 1 ≤ i) (hi' : i < 8)
    (hj : j < 16) : byteAt (arcP S r) (8 * j + i) = byteAt S (8 * j + i) := by
  rw [arcP, byteAt_tabulate_of_lt _ (by omega), if_neg (by omega)]

theorem byteAt_arcQ_row7 (S : Block) (r : BitVec 4) {j : Nat} (hj : j < 16) :
    byteAt (arcQ S r) (8 * j + 7)
      = byteAt S (8 * j + 7) ^^^ (0xFF ^^^ BitVec.ofNat 8 (16 * j + r.toNat)) := by
  rw [arcQ, byteAt_tabulate_of_lt _ (by omega), if_pos (by omega),
    show (8 * j + 7) / 8 = j by omega, roundConst_eq_add r hj]

theorem byteAt_arcQ_other (S : Block) (r : BitVec 4) {i j : Nat} (hi : i < 7) (hj : j < 16) :
    byteAt (arcQ S r) (8 * j + i) = byteAt S (8 * j + i) ^^^ 0xFF := by
  rw [arcQ, byteAt_tabulate_of_lt _ (by omega), if_neg (by omega)]

theorem byteAt_shiftBytes (S : Block) (sigma : List Nat) {i j : Nat} (hi : i < 8) (hj : j < 16) :
    byteAt (shiftBytes S sigma) (8 * j + i)
      = byteAt S (8 * ((j + sigma.getD i 0) % 16) + i) := by
  rw [shiftBytes, byteAt_tabulate_of_lt _ (by omega), show (8 * j + i) / 8 = j by omega,
    show (8 * j + i) % 8 = i by omega]

/-- A byte of MixBytes as the row of the circulant matrix that R145 gives: both sides are sums of
the column's bytes, doubled at most twice. -/
theorem byteAt_mixBytes (S : Block) : ∀ i < 8, ∀ j < 16,
    let a := fun d => byteAt S (8 * j + (i + d) % 8)
    byteAt (mixBytes S) (8 * j + i) = gmul 0x02 (a 0) ^^^ gmul 0x02 (a 1) ^^^ gmul 0x03 (a 2)
      ^^^ gmul 0x04 (a 3) ^^^ gmul 0x05 (a 4) ^^^ gmul 0x03 (a 5) ^^^ gmul 0x05 (a 6)
      ^^^ gmul 0x07 (a 7) := by
  intro i hi j hj a
  rw [mixBytes, byteAt_tabulate_of_lt _ (by omega), show (8 * j + i) / 8 = j by omega,
    show (8 * j + i) % 8 = i by omega, mixByte_eq S j hi]
  simp only [BitVec.ofNat_eq_ofNat, gmul_two, gmul_three, gmul_four, gmul_five, gmul_seven,
    xtime_xor, a]
  ac_rfl

/-- The fourteen round indices, in increasing order (R147). -/
theorem foldl_rounds {α : Type} (f : α → BitVec 4 → α) (a : α) :
    rounds.foldl f a = f (f (f (f (f (f (f (f (f (f (f (f (f (f a 0) 1) 2) 3) 4) 5) 6) 7) 8) 9)
      10) 11) 12) 13 := rfl

/-! ### What a command that completes leaves -/

theorem completed_complete (e : ErrCode) (v : Bool) {s u : State} (writes : OnlyWindowsDiffer s u) :
    Completed e v s (complete e v u) := by
  obtain ⟨_, _, _, _, _, _, _, rfl⟩ := writes
  constructor <;> rfl

theorem commandFrame_complete (e : ErrCode) (v : Bool) {but : List Window} {s u : State}
    (writes : OnlyWindowsDiffer s u) (draws : u.draws = s.draws) (kept : WindowsKept but s u) :
    CommandFrame but s (complete e v u) := by
  obtain ⟨_, _, _, _, _, _, _, rfl⟩ := writes
  exact ⟨kept, ⟨rfl, rfl, rfl, rfl, rfl⟩, ⟨rfl, rfl, fun _ => rfl, rfl, rfl, rfl, rfl, rfl⟩, rfl,
    draws⟩

/-- A command whose core step writes the windows `but` and completes without error. -/
theorem runs_of_completes {i : Instr} {but : List Window} {s u : State} {post : State → Prop}
    (step : exec i s = .next (complete .none false u)) (writes : OnlyWindowsDiffer s u)
    (draws : u.draws = s.draws) (kept : WindowsKept but s u)
    (result : post (complete .none false u)) : Runs i s but post :=
  ⟨_, step, completed_complete _ _ writes, commandFrame_complete _ _ writes draws kept, result⟩

/-- A command of the P lane writes PST alone (R150). -/
theorem runs_of_setPst {i : Instr} {s : State} {v : Block} {post : State → Prop}
    (step : exec i s = .next (complete .none false (setPst v s)))
    (result : post (complete .none false (setPst v s))) : Runs i s [.pst] post :=
  runs_of_completes step ⟨_, _, _, _, _, _, _, rfl⟩ rfl (by simp [WindowsKept]) result

/-- A command of the Q lane writes QST alone (R151). -/
theorem runs_of_setQst {i : Instr} {s : State} {v : Block} {post : State → Prop}
    (step : exec i s = .next (complete .none false (setQst v s)))
    (result : post (complete .none false (setQst v s))) : Runs i s [.qst] post :=
  runs_of_completes step ⟨_, _, _, _, _, _, _, rfl⟩ rfl (by simp [WindowsKept]) result

/-- A legal round index lets the command complete with its effect (R150, R151, R158, R159). -/
theorem withRound_legal {r : BitVec 4} (hr : r.toNat ≤ 13) (s t : State) :
    withRound r s t = .next (complete .none false t) :=
  if_pos (decide_eq_true hr)

/-! ### The statements -/

/-- Settles O13: P's constants go into row 0, Q's into row 7 and 0xFF into its other rows. -/
theorem arcCommands : Obligations.ArcCommands := by
  intro s r hr
  constructor
  · refine runs_of_setPst (withRound_legal hr s _) fun j hj => ⟨?_, fun i hi hi' => ?_⟩
    · exact byteAt_arcP_row0 s.pst r hj
    · exact byteAt_arcP_other s.pst r hi hi' hj
  · refine runs_of_setQst (withRound_legal hr s _) fun j hj => ⟨?_, fun i hi => ?_⟩
    · exact byteAt_arcQ_row7 s.qst r hj
    · exact byteAt_arcQ_other s.qst r hi hj

/-- Settles O15: each lane's bytes go through the S-box. -/
theorem subCommands : Obligations.SubCommands := fun s =>
  ⟨runs_of_setPst rfl fun _ hk => byteAt_subBytes s.pst hk,
    runs_of_setQst rfl fun _ hk => byteAt_subBytes s.qst hk⟩

/-- Settles O16: each lane's rows rotate by the lane's own sigma. -/
theorem shbCommands : Obligations.ShbCommands := fun s =>
  ⟨runs_of_setPst rfl fun _ hi _ hj => byteAt_shiftBytes s.pst sigmaP hi hj,
    runs_of_setQst rfl fun _ hi _ hj => byteAt_shiftBytes s.qst sigmaQ hi hj⟩

/-- Settles O17: the coefficients of MixBytes, taken cyclically from the byte's own row. -/
theorem mixCommands : Obligations.MixCommands := fun s =>
  ⟨runs_of_setPst rfl (byteAt_mixBytes s.pst), runs_of_setQst rfl (byteAt_mixBytes s.qst)⟩

/-- Settles O18: a round is its four steps, in order. -/
theorem rndCommands : Obligations.RndCommands := fun s _ hr =>
  ⟨runs_of_setPst (withRound_legal hr s _) rfl, runs_of_setQst (withRound_legal hr s _) rfl⟩

/-- Settles O19: a permutation folds its lane's round over the indices 0 to 13. -/
theorem permCommands : Obligations.PermCommands := fun s =>
  ⟨runs_of_setPst rfl (foldl_rounds roundP s.pst), runs_of_setQst rfl (foldl_rounds roundQ s.qst)⟩

end Sys2Proof.Machine
end

section
/-! The chaining layer (41_compression_and_chaining.md R190 to R198, R210 to R222): the padded message
byte by byte, how many blocks it has, and what each chaining command writes. -/

namespace Sys2Proof.Machine

/-! ### How many blocks (R193, R194) -/

/-- The message, the marker, the fill and the count are whole blocks: the fill never runs short. -/
theorem length_add_fillBytes (L : Nat) : L + 9 + fillBytes L = 128 * nblocks L := by
  unfold fillBytes nblocks
  omega

/-- The blocks are the fewest that hold the message and nine bytes more. -/
theorem nblocks_eq_iff {n L : Nat} :
    nblocks L = n ↔ 128 * n ≤ L + 136 ∧ L + 9 ≤ 128 * n := by
  unfold nblocks
  omega

/-- A message that fits the address space has far fewer than 2^64 blocks. -/
theorem nblocks_le_of_lt {L : Nat} (h : L < 2 ^ 64) : nblocks L ≤ 2 ^ 57 + 1 := by
  unfold nblocks
  omega

/-- The sign test of a valid range bounds LENGTH (R241). -/
theorem msgLen_lt_of_rangeOk {s : State} (h : rangeOk s = true) : s.msgLen.toNat < 2 ^ 63 := by
  have nonneg : s.msgLen.msb = false := by
    simp only [rangeOk, Bool.and_eq_true, Bool.not_eq_true'] at h
    obtain ⟨⟨⟨-, length⟩, -⟩, -⟩ := h
    rwa [BitVec.msb_eq_getLsbD_last]
  exact BitVec.toNat_lt_of_msb_false nonneg

/-! ### The padded message byte by byte (R193, R195) -/

theorem length_pad (msg : List Byte) : (pad msg).length = 128 * nblocks msg.length := by
  rw [← length_add_fillBytes]
  simp [pad]
  omega

theorem pad_getElem?_message (msg : List Byte) {p : Nat} (h : p < msg.length) :
    (pad msg)[p]? = some (msg.getD p 0) := by
  simp [pad, List.getElem?_append_left h, h]

theorem pad_getElem?_marker (msg : List Byte) : (pad msg)[msg.length]? = some 0x80 := by
  simp [pad]

/-- Past the marker stand the fill and the count. -/
theorem pad_getElem?_afterMarker (msg : List Byte) (q : Nat) :
    (pad msg)[msg.length + 1 + q]?
      = (List.replicate (fillBytes msg.length) 0 ++ (be64 (nblocks msg.length)).toList)[q]? := by
  rw [pad, List.getElem?_append_right (by omega),
    show msg.length + 1 + q - msg.length = q + 1 by omega, List.getElem?_cons_succ]

theorem pad_getElem?_fill (msg : List Byte) {p : Nat} (after : msg.length < p)
    (before : p < 128 * nblocks msg.length - 8) : (pad msg)[p]? = some 0 := by
  obtain ⟨q, rfl⟩ := Nat.exists_eq_add_of_le (Nat.succ_le_of_lt after)
  have whole := length_add_fillBytes msg.length
  have inFill : q < fillBytes msg.length := by omega
  rw [Nat.succ_eq_add_one, pad_getElem?_afterMarker, List.getElem?_append_left (by simpa)]
  simp [inFill]

theorem pad_getElem?_count (msg : List Byte) {t : Nat} (ht : t < 8) :
    (pad msg)[128 * nblocks msg.length - 8 + t]? = some (byteAt (be64 (nblocks msg.length)) t) := by
  have place : 128 * nblocks msg.length - 8 + t
      = msg.length + 1 + (fillBytes msg.length + t) := by
    have whole := length_add_fillBytes msg.length
    omega
  rw [place, pad_getElem?_afterMarker, List.getElem?_append_right (by simp)]
  simp [byteAt, ht]

/-- R195's four cases are the four parts of the padded message. -/
theorem pad_getElem?_eq_padByte (msg : List Byte) {k t : Nat} (hk : k < nblocks msg.length)
    (ht : t < 128) : (pad msg)[128 * k + t]? = some (padByte msg k t) := by
  simp only [padByte]
  split_ifs with message marker fill
  · exact pad_getElem?_message msg message
  · rw [marker, pad_getElem?_marker]
  · exact pad_getElem?_fill msg (by omega) fill
  · rw [← pad_getElem?_count msg (by omega)]
    congr 1
    omega

/-! ### One block of the padded message (R195 to R197) -/

/-- LoadBlock reads the block of the padded message that the hash function reads. -/
theorem loadBlock_eq_blockOf_pad (msg : List Byte) {k : Nat} (hk : k < nblocks msg.length) :
    loadBlock msg k = blockOf (pad msg) k :=
  tabulate_congr fun t ht => by
    rw [List.getD_eq_getElem?_getD, pad_getElem?_eq_padByte msg hk ht, Option.getD_some]

/-- A string of one block is its block 0. -/
theorem toList_blockOf_zero {l : List Byte} (h : l.length = 128) : (blockOf l 0).toList = l := by
  refine List.ext_getElem (by simp [h]) fun t _ ht => ?_
  simp [blockOf, ht]

/-- The 64 bytes of a first pass are padded to one block. -/
theorem nblocks_sixtyFour : nblocks 64 = 1 := rfl

theorem chainBlock_eq_loadBlock (h : Bytes 64) : chainBlock h = loadBlock h.toList 0 :=
  tabulate_congr fun t ht => by
    simp only [padByte, length_toList, nblocks_sixtyFour, getD_toList, Nat.mul_zero, Nat.zero_add,
      Nat.mul_one, Nat.reduceSub]

theorem toList_chainBlock (h : Bytes 64) : (chainBlock h).toList = pad h.toList := by
  have oneBlock : nblocks h.toList.length = 1 := by rw [length_toList, nblocks_sixtyFour]
  rw [chainBlock_eq_loadBlock, loadBlock_eq_blockOf_pad _ (by omega),
    toList_blockOf_zero (by rw [length_pad, oneBlock])]

/-! ### The fixed blocks byte by byte (R190, R197) -/

/-- 512 = 0x200: the last byte but one of the output length. -/
theorem byteAt_be64_outputLength : ∀ k < 8, byteAt (be64 512) k = if k = 6 then 0x02 else 0 := by
  decide

theorem byteAt_be64_one : ∀ k < 8, byteAt (be64 1) k = if k = 7 then 0x01 else 0 := by decide

theorem byteAt_iv512 {k : Nat} (hk : k < 128) :
    byteAt iv512 k = if k = 126 then 0x02 else 0 := by
  rw [iv512, byteAt_tabulate_of_lt _ hk]
  by_cases head : k < 120
  · rw [if_pos head, if_neg (by omega)]
  · rw [if_neg head, byteAt_be64_outputLength _ (by omega)]
    exact if_congr (by omega) rfl rfl

theorem byteAt_chainBlock_head (h : Bytes 64) {k : Nat} (hk : k < 64) :
    byteAt (chainBlock h) k = byteAt h k := by
  rw [chainBlock, byteAt_tabulate_of_lt _ (by omega), if_pos hk]

theorem byteAt_chainBlock_marker (h : Bytes 64) : byteAt (chainBlock h) 64 = 0x80 :=
  byteAt_tabulate_of_lt _ (by omega)

/-- After the marker only the last byte of the block count is not 0. -/
theorem byteAt_chainBlock_tail (h : Bytes 64) {k : Nat} (after : 65 ≤ k) (hk : k < 128) :
    byteAt (chainBlock h) k = if k = 127 then 0x01 else 0 := by
  rw [chainBlock, byteAt_tabulate_of_lt _ hk, if_neg (by omega), if_neg (by omega)]
  by_cases fill : k < 120
  · rw [if_pos fill, if_neg (by omega)]
  · rw [if_neg fill, byteAt_be64_one _ (by omega)]
    exact if_congr (by omega) rfl rfl

/-- The output transformation byte by byte, as OUTX forms HOUT (R192, R215). -/
theorem byteAt_outputTransform (h : Block) {k : Nat} (hk : k < 64) :
    byteAt (outputTransform h) k = byteAt (permP h) (64 + k) ^^^ byteAt h (64 + k) := by
  rw [outputTransform, byteAt_slice _ _ _ hk, byteAt_xorBytes]

theorem byteAt_trunc256 (h : Bytes 64) {k : Nat} (hk : k < 32) :
    byteAt (trunc256 h) k = byteAt h k := by
  rw [trunc256, byteAt_slice _ _ _ hk, Nat.zero_add]

/-! ### What the chaining commands write -/

theorem loadpqEffect_onlyWindows (s : State) : OnlyWindowsDiffer s (loadpqEffect s) :=
  ⟨_, _, _, _, _, _, _, rfl⟩

theorem outldEffect_onlyWindows (s : State) : OnlyWindowsDiffer s (outldEffect s) :=
  ⟨_, _, _, _, _, _, _, rfl⟩

theorem outxEffect_onlyWindows (s : State) : OnlyWindowsDiffer s (outxEffect s) :=
  ⟨_, _, _, _, _, _, _, rfl⟩

theorem byteAt_outxEffect_hout (s : State) {k : Nat} (hk : k < 64) :
    byteAt (outxEffect s).hout k = byteAt s.pst (64 + k) ^^^ byteAt s.hreg (64 + k) := by
  rw [outxEffect_hout, byteAt_tabulate_of_lt _ hk]

/-- OMEGA leaves in HOUT the output transformation of HREG (R216). -/
theorem omegaEffect_hout_eq (s : State) : (omegaEffect s).hout = outputTransform s.hreg :=
  bytes_ext fun k hk => by
    rw [byteAt_outputTransform _ hk]
    exact byteAt_outxEffect_hout _ hk

/-! ### The statements -/

/-- Settles O28: the length is the fill's, and each byte lies in one of the message's four parts. -/
theorem padByteAgreesWithPad : Obligations.PadByteAgreesWithPad := fun msg =>
  ⟨length_pad msg, fun _ hk _ ht => pad_getElem?_eq_padByte msg hk ht⟩

/-- Settles O30: the chaining block is the one block of the padded message, and 64 bytes leave 55
bytes of fill and the count 1. -/
theorem chainBlockIsPadding : Obligations.ChainBlockIsPadding := by
  refine fun h => ⟨toList_chainBlock h, ?_⟩
  have fill : fillBytes h.toList.length = 55 := by rw [length_toList]; rfl
  have count : (be64 (nblocks h.toList.length)).toList = [0, 0, 0, 0, 0, 0, 0, 1] := by
    rw [length_toList]; rfl
  rw [pad, fill, count, List.append_assoc, List.append_assoc]
  rfl

/-- Settles O21: INIT writes IV512, LOADPQ the inputs of P and Q, OUTLD the input of P. -/
theorem loadCommands : Obligations.LoadCommands := fun s =>
  ⟨runs_of_completes rfl (initEffect_onlyWindows s) rfl (by simp [WindowsKept])
      fun _ hk => byteAt_iv512 hk,
    runs_of_completes rfl (loadpqEffect_onlyWindows s) rfl (by simp [WindowsKept])
      ⟨rfl, fun k _ => byteAt_xorBytes s.hreg s.mreg k⟩,
    runs_of_completes rfl (outldEffect_onlyWindows s) rfl (by simp [WindowsKept]) rfl⟩

/-- Settles O24: OUTX forms HOUT from PST and HREG; OMEGA first puts P of HREG into PST. -/
theorem outputCommands : Obligations.OutputCommands := fun s =>
  ⟨runs_of_completes rfl (outxEffect_onlyWindows s) rfl (by simp [WindowsKept])
      fun _ hk => byteAt_outxEffect_hout s hk,
    runs_of_completes rfl (omegaEffect_onlyWindows s) rfl (by simp [WindowsKept])
      ⟨rfl, omegaEffect_hout_eq s, fun _ hk => byteAt_outxEffect_hout _ hk⟩⟩

/-- Settles O26: CHAIN writes the chaining block of HOUT, TRUNC the first half of HOUT. -/
theorem chainAndTruncCommands : Obligations.ChainAndTruncCommands := fun s =>
  ⟨runs_of_completes rfl (chainEffect_onlyWindows s) rfl (by simp [WindowsKept])
      ⟨fun _ hk => byteAt_chainBlock_head s.hout hk, byteAt_chainBlock_marker s.hout,
        fun _ after hk => (byteAt_chainBlock_tail s.hout after (by omega)).trans
          (if_neg (by omega)),
        byteAt_chainBlock_tail s.hout (by omega) (by omega)⟩,
    runs_of_completes rfl (truncEffect_onlyWindows s) rfl (by simp [WindowsKept])
      fun _ hk => byteAt_trunc256 s.hout hk⟩

/-- Settles O29: the first three clauses are one characterisation of the number of blocks. -/
theorem blockCounts : Obligations.BlockCounts := by
  refine ⟨fun L h => ?_, fun L h h' => ?_, fun n L _ h h' => ?_, fun L h => ?_,
    fun _ h => msgLen_lt_of_rangeOk h, nblocks_sixtyFour, rfl⟩
  · exact nblocks_eq_iff.2 (by omega)
  · exact nblocks_eq_iff.2 (by omega)
  · exact nblocks_eq_iff.2 ⟨h, h'⟩
  · have few := nblocks_le_of_lt h
    exact ⟨few, by omega⟩

end Sys2Proof.Machine
end

section
/-! Errors, dropped writes and the interrupt line (60_exceptions.md R294, R298, R299, R302, R310,
R311). -/

namespace Sys2Proof.Machine

/-! ### An invalid range -/

/-- The range check comes before any request (R298), so a hash command's first core step with an
invalid range is its completion. -/
theorem hashCommand_invalidRange (effect : List Byte → State → State) {s : State}
    (invalid : rangeOk s = false) :
    hashCommand effect s = .next (complete .range false (zeroResults s)) := by
  rcases hashCommand_cases effect s with ⟨_, e⟩ | ⟨valid, _⟩ | ⟨valid, _⟩
  · exact e
  all_goals cases invalid.symm.trans valid

theorem zeroResults_onlyWindows (s : State) : OnlyWindowsDiffer s (zeroResults s) :=
  ⟨_, _, _, _, _, _, _, rfl⟩

/-- Settles O32: the step is the completion with RANGE after HOUT and DIGEST are zeroed. -/
theorem invalidRangeEndsInRange : Obligations.InvalidRangeEndsInRange := by
  intro s i hash invalid
  have step : exec i s = .next (complete .range false (zeroResults s)) := by
    rcases hash with rfl | rfl
    · exact hashCommand_invalidRange hash1Effect invalid
    · exact hashCommand_invalidRange hash2Effect invalid
  exact ⟨_, step, completed_complete _ _ (zeroResults_onlyWindows s), rfl,
    commandFrame_complete _ _ (zeroResults_onlyWindows s) rfl (by simp [WindowsKept]),
    fun k => byteAt_zeros 64 k, fun k => byteAt_zeros 32 k⟩

/-! ### Writes while a command runs -/

/-- While BUSY = 1 a write to a guarded register is dropped and recorded in WBUSY (R40, R61). -/
theorem writeReg_guarded_busy {r : Reg} (guarded : r = .cmd ∨ r.isOperand = true) (v : Word)
    {s : State} (h : s.busy = true) : writeReg r v s = setWbusy s := by
  rcases guarded with rfl | operand
  · exact writeIfIdle_busy _ h
  · cases r
    case id | version | ctrl | status | cmd | digest | hout | reserved => cases operand
    all_goals exact writeIfIdle_busy _ h

/-- Settles O54: each offset named holds CMD or an operand, and all of these are guarded. -/
theorem busyWritesAreDropped : Obligations.BusyWritesAreDropped := by
  intro s off v busy aligned place
  have guarded : regAt off.toNat = .cmd ∨ (regAt off.toNat).isOperand = true := by
    rcases place with rfl | operand
    · exact .inl rfl
    · exact .inr (isOperand_regAt aligned operand)
  rw [access_writeRequest aligned, writeReg_guarded_busy guarded v busy, setWbusy]

/-! ### The interrupt line -/

/-- With reset released the line is IE AND DONE (R310). -/
theorem irq_of_released {s : State} (released : s.inReset = false) :
    irq s = (s.ie && s.done) := by
  rw [irq, released, Bool.not_false, Bool.true_and]

theorem irq_eq_false_of_masked {s : State} (h : s.ie = false) : irq s = false := by
  rw [irq, h, Bool.and_false, Bool.false_and]

theorem irq_eq_false_of_not_done {s : State} (h : s.done = false) : irq s = false := by
  rw [irq, h, Bool.and_false]

theorem access_writeRequest_ctrl (v : Word) (s : State) :
    (access (writeRequest 0x008 v) s).2 = writeCtrl v s :=
  congrArg Prod.snd (access_writeRequest rfl v s)

theorem access_writeRequest_status (v : Word) (s : State) :
    (access (writeRequest 0x00C v) s).2 = writeStatus v s :=
  congrArg Prod.snd (access_writeRequest rfl v s)

/-- A write to CMD while idle is the acceptance of a command (R100). -/
theorem access_writeRequest_cmd (w : Word) {s : State} (idle : s.busy = false) :
    (access (writeRequest 0x010 w) s).2 = accept w s :=
  (congrArg Prod.snd (access_writeRequest rfl w s)).trans (writeIfIdle_idle _ idle)

/-- Settles O59: the writes to STATUS and CMD clear DONE, a write to CTRL moves IE alone, and a
completion sets DONE. -/
theorem interruptLine : Obligations.InterruptLine := by
  intro s v w released
  rw [access_writeRequest_status, access_writeRequest_ctrl]
  refine ⟨irq_of_released released, fun clears => ?_, fun masks => ?_, fun unmasks => ?_,
    fun idle => ?_, fun e b => ?_⟩
  · exact irq_eq_false_of_not_done (by simp [clears])
  · exact ⟨irq_eq_false_of_masked masks, writeCtrl_done s v⟩
  · rw [irq_of_released ((writeCtrl_inReset s v).trans released), writeCtrl_ie, unmasks, writeCtrl_done, Bool.true_and]
  · rw [access_writeRequest_cmd w idle]
    exact irq_eq_false_of_not_done (accept_done s w)
  · rw [irq_of_released ((complete_inReset s e b).trans released), complete_ie, complete_done, Bool.and_true]

end Sys2Proof.Machine
end

section
/-! The command word (30_encoding.md R110 to R119): its three fields, what each word decodes to, and
that encoding and decoding are inverse to each other. -/

namespace Sys2Proof

/-! ### The fields of a word -/

/-- A command word put together from its fields (R110). -/
def wordOfFields (rnd : BitVec 4) (op : BitVec 8) : Word := (0 : BitVec 20) ++ rnd ++ op

theorem opField_wordOfFields (rnd : BitVec 4) (op : BitVec 8) :
    opField (wordOfFields rnd op) = op :=
  BitVec.extractLsb'_append_eq_right

theorem rndField_wordOfFields (rnd : BitVec 4) (op : BitVec 8) :
    rndField (wordOfFields rnd op) = rnd := by
  rw [rndField, wordOfFields, BitVec.extractLsb'_append_eq_of_le (by decide)]
  exact BitVec.extractLsb'_append_eq_right

theorem rsvField_wordOfFields (rnd : BitVec 4) (op : BitVec 8) :
    rsvField (wordOfFields rnd op) = 0 := by
  rw [rsvField, wordOfFields, BitVec.extractLsb'_append_eq_of_le (by decide)]
  exact BitVec.extractLsb'_append_eq_left

/-- A word whose reserved bits are 0 is made of its RND and OP. -/
theorem wordOfFields_fields {w : Word} (rsv : rsvField w = 0) :
    wordOfFields (rndField w) (opField w) = w := by
  rw [wordOfFields, ← rsv, rsvField, rndField, opField,
    BitVec.extractLsb'_append_extractLsb'_eq_extractLsb' (by rfl),
    BitVec.extractLsb'_append_extractLsb'_eq_extractLsb' (by rfl), BitVec.extractLsb'_eq_self]

/-! ### The opcode map -/

theorem opcodeMap_opcodeOf (i : Instr) : opcodeMap (opcodeOf i) (i.round?.getD 0) = some i := by
  cases i <;> rfl

/-- A row of the opcode map: the command's opcode, and its round operand, where it takes one, is the
field. -/
theorem opcodeOf_of_opcodeMap {op : BitVec 8} {r : BitVec 4} {i : Instr}
    (h : opcodeMap op r = some i) :
    opcodeOf i = op ∧ (i.round? = some r ∨ i.round? = none) := by
  unfold opcodeMap at h
  split at h
  case h_25 => cases h
  all_goals
    rename_i place
    cases h
    exact ⟨BitVec.eq_of_toNat_eq place.symm, by simp [Instr.round?]⟩

/-- The unassigned opcodes (R118). -/
theorem opcodeMap_eq_none_iff (op : BitVec 8) (r : BitVec 4) :
    opcodeMap op r = none ↔ (0x03 ≤ op.toNat ∧ op.toNat ≤ 0x0F)
      ∨ (0x1C ≤ op.toNat ∧ op.toNat ≤ 0x1F) ∨ 0x29 ≤ op.toNat := by
  unfold opcodeMap
  generalize op.toNat = n
  split
  case h_25 =>
    simp only [imp_false] at *
    exact iff_of_true trivial (by omega)
  all_goals simp

/-- The opcodes of the four round-indexed commands (R113, R115). -/
theorem round?_isSome_iff (i : Instr) :
    i.round?.isSome = true ↔ (opcodeOf i).toNat ∈ [0x10, 0x11, 0x18, 0x19] := by
  cases i <;> simp [Instr.round?, opcodeOf]

theorem wellFormed_iff (i : Instr) : i.WellFormed ↔ ∀ r ∈ i.round?, roundLegal r = true := by
  cases i <;> simp [Instr.WellFormed, Instr.wf, Instr.round?]

/-! ### The decoder -/

/-- The decoder by the word's fields (R117). -/
theorem decode_eq {w : Word} (rsv : rsvField w = 0) {i : Instr}
    (row : opcodeMap (opField w) (rndField w) = some i) :
    decode w = if i.round?.isSome then
        if roundLegal (rndField w) then .legal i else .badRound
      else if rndField w ≠ 0 then .illegal else .legal i := by
  simp [decode, rsv, row]

theorem decode_of_rsv {w : Word} (rsv : rsvField w ≠ 0) : decode w = .illegal := if_pos rsv

theorem decode_of_unassigned {w : Word} (row : opcodeMap (opField w) (rndField w) = none) :
    decode w = .illegal := by
  simp [decode, row]

/-- The operand check of R117: a command that takes a round index wants a legal one, any other wants
RND to be 0. -/
def roundFits (i : Instr) (r : BitVec 4) : Bool :=
  if i.round?.isSome then roundLegal r else decide (r = 0)

/-- A word is legal when its reserved bits are 0, its OP is assigned and its RND fits (R117). -/
theorem decode_eq_legal_iff (w : Word) (i : Instr) :
    decode w = .legal i ↔ rsvField w = 0 ∧ opcodeMap (opField w) (rndField w) = some i ∧
      roundFits i (rndField w) = true := by
  by_cases rsv : rsvField w = 0
  · cases row : opcodeMap (opField w) (rndField w) with
    | none => simp [decode_of_unassigned row]
    | some j =>
      have fits : decode w = .legal j ↔ roundFits j (rndField w) = true := by
        rw [decode_eq rsv row, roundFits]
        split_ifs <;> simp_all
      have only : decode w = .legal i → j = i := by
        rw [decode_eq rsv row]
        split_ifs <;> simp
      constructor
      · intro h
        obtain rfl := only h
        exact ⟨rsv, rfl, fits.1 h⟩
      · rintro ⟨-, row', h⟩
        obtain rfl := Option.some.inj row'
        exact fits.2 h
  · rw [decode_of_rsv rsv]
    exact iff_of_false (by simp) fun h => rsv h.1

/-- A word is a BadRound when its OP is that of a round-indexed command and its RND no round index
(R119). -/
theorem decode_eq_badRound_iff (w : Word) :
    decode w = .badRound ↔ rsvField w = 0 ∧ ∃ i, opcodeMap (opField w) (rndField w) = some i ∧
      i.round?.isSome = true ∧ roundLegal (rndField w) = false := by
  by_cases rsv : rsvField w = 0
  · cases row : opcodeMap (opField w) (rndField w) with
    | none => simp [decode_of_unassigned row]
    | some j =>
      rw [decode_eq rsv row]
      split_ifs <;> simp_all
  · rw [decode_of_rsv rsv]
    exact iff_of_false (by simp) fun h => rsv h.1

/-- A word is Illegal when a reserved bit is set, its OP is unassigned, or its RND is not 0 where
the command takes none (R118). -/
theorem decode_eq_illegal_iff (w : Word) :
    decode w = .illegal ↔ rsvField w ≠ 0 ∨ opcodeMap (opField w) (rndField w) = none ∨
      ∃ i, opcodeMap (opField w) (rndField w) = some i ∧ i.round?.isSome = false ∧
        rndField w ≠ 0 := by
  by_cases rsv : rsvField w = 0
  · cases row : opcodeMap (opField w) (rndField w) with
    | none => simp [decode_of_unassigned row]
    | some j =>
      rw [decode_eq rsv row]
      split_ifs <;> simp_all [Option.isSome_iff_ne_none]
  · exact iff_of_true (decode_of_rsv rsv) (.inl rsv)

/-! ### Encoding and decoding -/

theorem encode_eq (i : Instr) : encode i = wordOfFields (i.round?.getD 0) (opcodeOf i) := rfl

theorem roundFits_of_wellFormed {i : Instr} (h : i.WellFormed) :
    roundFits i (i.round?.getD 0) = true := by
  rw [wellFormed_iff] at h
  cases operand : i.round? with
  | none => simp [roundFits, operand]
  | some r => simpa [roundFits, operand] using h r operand

/-- The command of a row of the opcode map is well-formed when RND fits it, and its word has that
row's fields. -/
theorem fields_of_row {op : BitVec 8} {r : BitVec 4} {i : Instr} (row : opcodeMap op r = some i)
    (fits : roundFits i r = true) : i.WellFormed ∧ i.round?.getD 0 = r ∧ opcodeOf i = op := by
  obtain ⟨opcode, operand | operand⟩ := opcodeOf_of_opcodeMap row
  · have legal : roundLegal r = true := by simpa [roundFits, operand] using fits
    exact ⟨(wellFormed_iff i).2 (by simp [operand, legal]), by simp [operand], opcode⟩
  · have zero : r = 0 := by simpa [roundFits, operand] using fits
    exact ⟨(wellFormed_iff i).2 (by simp [operand]), by simp [operand, zero], opcode⟩

/-- Settles O1: the fields of the encoding are the command's opcode and round operand, whose row of
the opcode map is the command. -/
theorem decodeOfEncode : Obligations.DecodeOfEncode := by
  intro i wf
  rw [decode_eq_legal_iff, encode_eq, rsvField_wordOfFields, rndField_wordOfFields,
    opField_wordOfFields]
  exact ⟨rfl, opcodeMap_opcodeOf i, roundFits_of_wellFormed wf⟩

theorem encode_of_decode {w : Word} {i : Instr} (h : decode w = .legal i) :
    i.WellFormed ∧ encode i = w := by
  obtain ⟨rsv, row, fits⟩ := (decode_eq_legal_iff w i).1 h
  obtain ⟨wf, operand, opcode⟩ := fields_of_row row fits
  exact ⟨wf, by rw [encode_eq, operand, opcode, wordOfFields_fields rsv]⟩

/-- The commands with a legal word: twenty that take no round index, and four with each of fourteen
(R116). -/
def legalCommands : List Instr :=
  [.nop, .hash2, .hash1, .subP, .subQ, .shbP, .shbQ, .mixP, .mixQ, .permP, .permQ, .init, .loadpq,
    .fold, .comp, .outld, .outx, .omega, .chain, .trunc]
  ++ ((List.range 14).map (BitVec.ofNat 4)).flatMap fun r => [.arcP r, .arcQ r, .rndP r, .rndQ r]

theorem mem_legalCommands (i : Instr) : i ∈ legalCommands ↔ i.WellFormed := by
  cases i
  case arcP r | arcQ r | rndP r | rndQ r =>
    revert r
    decide
  all_goals exact iff_of_true (by decide) rfl

/-- Settles O2: decoding is inverse to encoding, so the legal words are the encodings of the
well-formed commands, one each. -/
theorem legalWordsAreTheEncodings : Obligations.LegalWordsAreTheEncodings := by
  refine ⟨fun w i => encode_of_decode, legalCommands.map encode, ?_, rfl, fun w => ?_⟩
  · refine List.Nodup.map_on (fun i hi j hj same => ?_) (by decide)
    have di := decodeOfEncode i ((mem_legalCommands i).1 hi)
    rw [same, decodeOfEncode j ((mem_legalCommands j).1 hj)] at di
    exact (Decoded.legal.inj di).symm
  · rw [List.mem_map]
    constructor
    · rintro ⟨i, hi, rfl⟩
      exact ⟨i, decodeOfEncode i ((mem_legalCommands i).1 hi)⟩
    · rintro ⟨i, hi⟩
      obtain ⟨wf, word⟩ := encode_of_decode hi
      exact ⟨i, (mem_legalCommands i).2 wf, word⟩

theorem opField_toNat (w : Word) : (opField w).toNat = w.toNat % 256 := by
  simp [opField]

/-- The two round indices that are none (R119). -/
theorem roundLegal_eq_false_iff (r : BitVec 4) : roundLegal r = false ↔ r = 14 ∨ r = 15 := by
  revert r
  decide

/-- Where OP is assigned, the command takes a round index by its opcode. -/
theorem takesRound_iff {w : Word} {i : Instr} (row : opcodeMap (opField w) (rndField w) = some i) :
    i.round?.isSome = true ↔ w.toNat % 256 ∈ [0x10, 0x11, 0x18, 0x19] := by
  rw [round?_isSome_iff, (opcodeOf_of_opcodeMap row).1, opField_toNat]

/-- An OP with a RND that it does not take is the last way to be Illegal; an unassigned OP takes
none, so the clause needs no premise that OP is assigned. -/
theorem illegal_by_row_iff (w : Word) :
    (opcodeMap (opField w) (rndField w) = none ∨
      ∃ i, opcodeMap (opField w) (rndField w) = some i ∧ i.round?.isSome = false ∧ rndField w ≠ 0)
    ↔ opcodeMap (opField w) (rndField w) = none ∨
      (w.toNat % 256 ∉ [0x10, 0x11, 0x18, 0x19] ∧ rndField w ≠ 0) := by
  cases row : opcodeMap (opField w) (rndField w) with
  | none => simp
  | some i =>
    rw [← takesRound_iff row, Bool.not_eq_true]
    simp

/-- The words of the four round-indexed opcodes with RND = 14 or 15 (R119). -/
theorem mem_badRoundWords_iff (w : Word) :
    w ∈ ([0x00000E10, 0x00000F10, 0x00000E11, 0x00000F11, 0x00000E18, 0x00000F18, 0x00000E19,
        0x00000F19] : List Word) ↔
      rsvField w = 0 ∧ w.toNat % 256 ∈ [0x10, 0x11, 0x18, 0x19] ∧
        (rndField w = 14 ∨ rndField w = 15) := by
  constructor
  · intro h
    fin_cases h <;> decide
  · rintro ⟨rsv, op, rnd⟩
    have opcode : opField w = 0x10 ∨ opField w = 0x11 ∨ opField w = 0x18 ∨ opField w = 0x19 := by
      simpa [← BitVec.toNat_inj, opField_toNat] using op
    rw [← wordOfFields_fields rsv]
    rcases opcode with op | op | op | op <;> rcases rnd with rnd | rnd <;> rw [op, rnd] <;> decide

/-- Settles O3: an Illegal word fails one of the first three checks of R117, a BadRound word only
the last. -/
theorem illegalAndBadRoundWords : Obligations.IllegalAndBadRoundWords := by
  refine fun w => ⟨?_, ?_⟩
  · rw [decode_eq_illegal_iff, illegal_by_row_iff, opcodeMap_eq_none_iff, opField_toNat]
    simp only [or_assoc, rsvField, rndField]
  · rw [decode_eq_badRound_iff, mem_badRoundWords_iff, ← roundLegal_eq_false_iff]
    refine and_congr_right fun _ => ⟨?_, ?_⟩
    · rintro ⟨i, row, takes, bad⟩
      exact ⟨(takesRound_iff row).1 takes, bad⟩
    · rintro ⟨op, bad⟩
      cases row : opcodeMap (opField w) (rndField w) with
      | none =>
        rw [opcodeMap_eq_none_iff, opField_toNat] at row
        have opcodes : w.toNat % 256 = 0x10 ∨ w.toNat % 256 = 0x11 ∨ w.toNat % 256 = 0x18
            ∨ w.toNat % 256 = 0x19 := by simpa using op
        omega
      | some i => exact ⟨i, rfl, (takesRound_iff row).2 op, bad⟩

/-- Settles O4: each word is put through the checks of R117. -/
theorem sampleWordsDecode : Obligations.SampleWordsDecode := by
  unfold Obligations.SampleWordsDecode
  decide

end Sys2Proof
end

section
/-! What one turn can do (20_memory.md R99): every next state of a step, with what held before it,
and every way to fault. The invariants are proved from these cases. -/

namespace Sys2Proof.Machine

/-! ### A core step of a command -/

/-- HASH1 and HASH2 are one protocol with two effects (R246, R247). -/
theorem exec_of_reads {i : Instr} (reads : readsMemory i = true) (s : State) :
    ∃ effect : List Byte → State → State, exec i s = hashCommand effect s ∧
      ∀ msg, OnlyWindowsDiffer s (effect msg s) := by
  cases i
  case hash2 => exact ⟨hash2Effect, rfl, fun msg => hash2Effect_onlyWindows msg s⟩
  case hash1 => exact ⟨hash1Effect, rfl, fun msg => hash1Effect_onlyWindows msg s⟩
  all_goals cases reads

theorem withRound_completes (r : BitVec 4) {s u : State} (writes : OnlyWindowsDiffer s u) :
    ∃ e w, withRound r s u = .next (complete e false w) ∧ OnlyWindowsDiffer s w := by
  rcases withRound_cases r s u with ⟨_, e⟩ | ⟨_, e⟩
  · exact ⟨_, _, e, writes⟩
  · exact ⟨_, _, e, .refl s⟩

/-- Every other command completes at once, without VALID (R296). -/
theorem exec_of_not_reads {i : Instr} (reads : readsMemory i = false) (s : State) :
    ∃ e u, exec i s = .next (complete e false u) ∧ OnlyWindowsDiffer s u := by
  cases i
  case hash2 | hash1 => cases reads
  case arcP | arcQ | rndP | rndQ =>
    exact withRound_completes _ ⟨_, _, _, _, _, _, _, rfl⟩
  all_goals exact ⟨_, _, rfl, _, _, _, _, _, _, _, rfl⟩

/-- A core step of the command `i`, with what it needs: as `CommandStep`, and VALID only from a hash
command without error (R39), a request only where bytes are left (R93), a receipt only of an
answer. -/
inductive ExecStep (i : Instr) (s : State) : State → Prop where
  | completes {u : State} (e : ErrCode) (v : Bool) (writes : OnlyWindowsDiffer s u)
      (result : v = true → e = .none ∧ readsMemory i = true) : ExecStep i s (complete e v u)
  | issues (free : s.pending = none) (healthy : s.failed = false) (left : s.rdLeft ≠ 0) :
      ExecStep i s (setRequest (nextRequest s) s)
  | receives (q : MemReq) (rsp : MemRsp) (outstanding : s.pending = some q)
      (answered : s.memRsp = some rsp) : ExecStep i s (receiveResponse q rsp s)
  | waits : ExecStep i s s

theorem execStep_of_hashCommand {i : Instr} (reads : readsMemory i = true)
    {effect : List Byte → State → State} {s t : State}
    (writes : ∀ msg, OnlyWindowsDiffer s (effect msg s)) (h : hashCommand effect s = .next t) :
    ExecStep i s t := by
  rcases hashCommand_cases effect s with ⟨_, e⟩ | ⟨_, _, e⟩ |
    ⟨_, _, ⟨q, rsp, hq, hrsp, e⟩ | ⟨_, _, _, e⟩ | ⟨_, _, e⟩ | ⟨_, _, _, e⟩ |
      ⟨free, healthy, left, e⟩⟩ <;>
    rw [e] at h
  · cases h; exact .completes _ _ (zeroResults_onlyWindows s) nofun
  · cases h
  · cases h; exact .receives q rsp hq hrsp
  · cases h; exact .waits
  · cases h; exact .completes _ _ ⟨_, _, _, _, _, _, _, rfl⟩ nofun
  · cases h; exact .completes _ _ (writes _) fun _ => ⟨rfl, reads⟩
  · rcases issueRequest_cases s with ⟨_, e⟩ | ⟨_, e⟩ <;> rw [e] at h <;> cases h
    exact .issues free healthy left

theorem execStep_of_exec {i : Instr} {s t : State} (h : exec i s = .next t) : ExecStep i s t := by
  cases reads : readsMemory i
  · obtain ⟨e, u, he, writes⟩ := exec_of_not_reads reads s
    rw [he] at h
    cases h
    exact .completes e false writes nofun
  · obtain ⟨effect, he, writes⟩ := exec_of_reads reads s
    exact execStep_of_hashCommand reads writes (he ▸ h)

/-- A command faults only where a hash command with a valid range would request past the end of the
address space (R87). -/
theorem exec_fault {i : Instr} {s : State} {r : Fault} (h : exec i s = .fault r) :
    readsMemory i = true ∧ rangeOk s = true ∧ s.rdLeft ≠ 0 ∧
      2 ^ 64 < s.rdNext + requestLen s.cut s.rdLeft := by
  cases reads : readsMemory i
  · obtain ⟨e, u, he, -⟩ := exec_of_not_reads reads s
    rw [he] at h
    cases h
  · obtain ⟨effect, he, -⟩ := exec_of_reads reads s
    rw [he] at h
    rcases hashCommand_cases effect s with ⟨_, e⟩ | ⟨_, _, e⟩ |
      ⟨valid, _, ⟨_, _, _, _, e⟩ | ⟨_, _, _, e⟩ | ⟨_, _, e⟩ | ⟨_, _, _, e⟩ | ⟨_, _, left, e⟩⟩ <;>
      rw [e] at h
    case inr.inr.inr.inr.inr.inr =>
      rcases issueRequest_cases s with ⟨_, e⟩ | ⟨past, e⟩ <;> rw [e] at h <;> cases h
      exact ⟨rfl, valid, left, past⟩
    all_goals cases h

/-! ### An access of the register port -/

/-- What an access leaves: nothing changed, a free value drawn, CTRL or STATUS written, WBUSY set by
a dropped write, and while BUSY = 0 a command accepted, a range register or a window written. -/
inductive AccessStep (s : State) : State → Prop where
  | nothing : AccessStep s s
  | draws : AccessStep s (countDraw s)
  | ctrl (v : Word) : AccessStep s (writeCtrl v s)
  | status (v : Word) : AccessStep s (writeStatus v s)
  | dropped : AccessStep s (setWbusy s)
  | accepts (idle : s.busy = false) (w : Word) : AccessStep s (accept w s)
  | ranges (idle : s.busy = false) (a b c d e f g i : Word) : AccessStep s { s with
      srcAddrLo := a, srcAddrHi := b, bufLenLo := c, bufLenHi := d, offsetLo := e, offsetHi := f,
      lengthLo := g, lengthHi := i }
  | windows (idle : s.busy = false) (a b c d : Block) : AccessStep s { s with
      hreg := a, mreg := b, pst := c, qst := d }

theorem accessStep_of_writeReg (r : Reg) (v : Word) (s : State) :
    AccessStep s (writeReg r v s) := by
  cases hb : s.busy
  · rcases writeReg_idle (r := r) (v := v) hb with e | e | e | e | ⟨_, _, _, _, _, _, _, _, e⟩ |
      ⟨_, _, _, _, e⟩ <;> rw [e]
    · exact .nothing
    · exact .ctrl v
    · exact .status v
    · exact .accepts hb v
    · exact .ranges hb _ _ _ _ _ _ _ _
    · exact .windows hb _ _ _ _
  · rcases writeReg_busy (r := r) (v := v) hb with e | e | e | e <;> rw [e]
    · exact .nothing
    · exact .dropped
    · exact .ctrl v
    · exact .status v

theorem accessStep_of_access (q : RegReq) (s : State) : AccessStep s (access q s).2 := by
  rcases access_cases q s with ⟨_, e⟩ | ⟨_, _, e⟩ | ⟨_, _, e⟩ <;> rw [e]
  · exact .nothing
  · exact accessStep_of_writeReg _ _ s
  · rcases readReg_state (regAt q.addr.toNat) s with e | e <;> rw [e]
    · exact .nothing
    · exact .draws

/-! ### A turn -/

/-- From `s` to `t` only what the model keeps of the other agents may differ: the last response on
the register port, where the host's program stands, the schedule, the size chosen for a request, the
count of free values drawn. -/
def OnlyAgentsDiffer (s t : State) : Prop :=
  ∃ (rsp : Option RegRsp) (host : HostAgent) (sched : List Turn) (cut draws : Nat),
    t = { s with regRsp := rsp, host := host, schedule := sched, cut := cut, draws := draws } ∧
    host.prog = s.host.prog

theorem OnlyAgentsDiffer.refl (s : State) : OnlyAgentsDiffer s s := ⟨_, _, _, _, _, rfl, rfl⟩

theorem popTurn_onlyAgents (s : State) : OnlyAgentsDiffer s (popTurn s) :=
  ⟨_, _, _, _, _, rfl, rfl⟩

theorem setCut_onlyAgents (c : Nat) (s : State) : OnlyAgentsDiffer s (setCut c s) :=
  ⟨_, _, _, _, _, rfl, rfl⟩

theorem countDraw_onlyAgents (s : State) : OnlyAgentsDiffer s (countDraw s) :=
  ⟨_, _, _, _, _, rfl, rfl⟩

/-- Everything a turn that gives a next state can do (R99). -/
inductive TurnStep (s : State) : State → Prop where
  | idles {t : State} (same : OnlyAgentsDiffer s t) : TurnStep s t
  | executes {t : State} (c : Nat) {i : Instr} (released : s.inReset = false)
      (busy : s.busy = true) (word : decode s.cmd = .legal i) (runs : ExecStep i (setCut c s) t) :
      TurnStep s t
  | rejects (c : Nat) (e : ErrCode) (released : s.inReset = false) :
      TurnStep s (complete e false (setCut c s))
  | answers (c : MemChoice) (q : MemReq) (released : s.inReset = false)
      (outstanding : s.pending = some q) :
      TurnStep s (countDraw (setMemRsp (memAnswer c q s) s))
  | accesses {u t : State} (released : s.inReset = false) (access : AccessStep s u)
      (same : OnlyAgentsDiffer u t) : TurnStep s t
  | stores (a : BitVec 64) (b : Byte) : TurnStep s (storeByte a b s)
  | resets (level : Bool) : TurnStep s (resetCore level s)

theorem turnStep_of_coreStep {c : Nat} {s t : State} (h : coreStep (setCut c s) = .next t) :
    TurnStep s t := by
  rcases coreStep_cases (setCut c s) with ⟨_, e⟩ |
    ⟨released, busy, ⟨i, word, e⟩ | ⟨_, e⟩ | ⟨_, e⟩⟩ <;> rw [e] at h
  · cases h; exact .idles (setCut_onlyAgents c s)
  · exact .executes c released busy word (execStep_of_exec h)
  · cases h; exact .rejects c _ released
  · cases h; exact .rejects c _ released

theorem turnStep_of_memoryTurn {c : MemChoice} {s t : State} (h : memoryTurn c s = .next t) :
    TurnStep s t := by
  rcases memoryTurn_cases c s with ⟨_, e⟩ | ⟨released, _, q, outstanding, e⟩ | ⟨_, _, e⟩ <;>
    rw [e] at h <;> cases h
  · exact .idles (.refl s)
  · exact .answers c q released outstanding

theorem turnStep_of_hostTurn (q : RegReq) (s : State) : TurnStep s (hostTurn q s) := by
  cases released : s.inReset
  · rw [hostTurn, released]
    exact .accesses released (accessStep_of_access q s) ⟨_, _, _, _, _, rfl, rfl⟩
  · rw [hostTurn, released]
    exact .idles (.refl s)

theorem turnStep_of_runHostOp {op : HostOp} {s t : State} (released : s.inReset = false)
    (h : runHostOp op s = .next t) : TurnStep s t := by
  cases op
  case wr off v =>
    rcases atPort_cases off _ with ⟨a, _, e⟩ | ⟨_, e⟩ <;> rw [runHostOp, e] at h <;> cases h
    exact .accesses released (accessStep_of_access (writeRequest a v) s) ⟨_, _, _, _, _, rfl, rfl⟩
  case rd off =>
    rcases atPort_cases off _ with ⟨a, _, e⟩ | ⟨_, e⟩ <;> rw [runHostOp, e] at h <;> cases h
    exact .accesses released (accessStep_of_access (readRequest a) s) ⟨_, _, _, _, _, rfl, rfl⟩
  case bclr | bset | halt =>
    cases h
    exact .idles ⟨_, _, _, _, _, rfl, rfl⟩

theorem turnStep_of_programTurn {s t : State} (h : programTurn s = .next t) : TurnStep s t := by
  rcases programTurn_cases s with e | ⟨op, released, _, e⟩ <;> rw [e] at h
  · cases h; exact .idles (.refl s)
  · exact turnStep_of_runHostOp released h

theorem turnStep_of_driveReset (level : Bool) (s : State) : TurnStep s (driveReset level s) := by
  rcases driveReset_cases level s with ⟨_, _, e⟩ | e <;> rw [e]
  · exact .idles (.refl s)
  · exact .resets level

theorem turnStep_of_runTurn {turn : Turn} {s t : State} (h : runTurn turn s = .next t) :
    TurnStep s t := by
  cases turn with
  | core c => exact turnStep_of_coreStep h
  | memory c => exact turnStep_of_memoryTurn h
  | host q => cases h; exact turnStep_of_hostTurn q s
  | program => exact turnStep_of_programTurn h
  | store a b => cases h; exact .stores a b
  | rst level => cases h; exact turnStep_of_driveReset level s

theorem turnStep_of_step {s t : State} (h : step s = .next t) : TurnStep (popTurn s) t :=
  turnStep_of_runTurn h

/-! ### A fault -/

/-- The program's next step is one of its steps. -/
theorem mem_prog_of_hostOp? {s : State} {op : HostOp} (h : hostOp? s = some op) :
    op ∈ s.host.prog := by
  unfold hostOp? at h
  split at h
  · cases h
  · cases h
  · rename_i place
    cases h
    exact List.mem_of_getElem? place

/-- A turn faults only where a command does, or where the host program reaches past register space
(R82, R87). -/
theorem runTurn_fault {turn : Turn} {s : State} {r : Fault} (h : runTurn turn s = .fault r) :
    (∃ c i, s.busy = true ∧ decode s.cmd = .legal i ∧ exec i (setCut c s) = .fault r) ∨
      (r = .outsideRegisterSpace ∧ ∃ op ∈ s.host.prog, ∃ off ∈ op.offset?, regSpace ≤ off) := by
  cases turn with
  | core c =>
    rcases coreStep_cases (setCut c s) with ⟨_, e⟩ | ⟨_, busy, ⟨i, word, e⟩ | ⟨_, e⟩ | ⟨_, e⟩⟩ <;>
      rw [runTurn, e] at h
    case inr.inl => exact .inl ⟨c, i, busy, word, h⟩
    all_goals cases h
  | memory c =>
    rcases memoryTurn_cases c s with ⟨_, e⟩ | ⟨_, _, _, _, e⟩ | ⟨_, _, e⟩ <;>
      rw [runTurn, e] at h <;> cases h
  | program =>
    rcases programTurn_cases s with e | ⟨op, _, place, e⟩ <;> rw [runTurn, e] at h
    · cases h
    · refine .inr ?_
      have member := mem_prog_of_hostOp? place
      cases op
      case wr off v =>
        rcases atPort_cases off _ with ⟨_, _, e⟩ | ⟨past, e⟩ <;> rw [runHostOp, e] at h <;> cases h
        exact ⟨rfl, _, member, off, rfl, past⟩
      case rd off =>
        rcases atPort_cases off _ with ⟨_, _, e⟩ | ⟨past, e⟩ <;> rw [runHostOp, e] at h <;> cases h
        exact ⟨rfl, _, member, off, rfl, past⟩
      case bclr | bset | halt => cases h
  | host q => cases h
  | store a b => cases h
  | rst level => cases h

end Sys2Proof.Machine
end

section
/-! The invariant of the machine: each kind of turn keeps it (10_state.md R38 to R41, R57;
20_memory.md R87, R93, R95; 60_exceptions.md R295; 70_reset_and_hazards.md R341). -/

namespace Sys2Proof.Machine

/-! ### Reset values -/

/-- A reset leaves every register at its reset value, whatever level drives it (R341). -/
theorem atReset_resetCore (level : Bool) (s : State) : AtReset (resetCore level s) := by
  have status : statusWord State.reset = 0 := by decide
  have wide : (0 : Word) ++ (0 : Word) = (0 : BitVec 64) := by decide
  constructor
  case digest | hout | hreg | mreg | pst | qst => exact byteAt_zeros _
  case status => exact status
  case srcAddr | bufLen | offset | msgLen => exact wide
  case irq => exact irq_eq_false_of_masked rfl
  all_goals rfl

/-- Reset values are those of the registers: what lies outside the core does not touch them. -/
theorem AtReset.of_outside {s : State} (h : AtReset s) (rsp : Option RegRsp) (host : HostAgent)
    (sched : List Turn) (cut draws : Nat) (mem : Memory) (stored : List Nat) :
    AtReset { s with
      regRsp := rsp, host := host, schedule := sched, cut := cut, draws := draws, mem := mem,
      stored := stored } :=
  ⟨h.ctrl, h.status, h.cmd, h.srcAddr, h.bufLen, h.offset, h.msgLen, h.digest, h.hout, h.hreg,
    h.mreg, h.pst, h.qst, h.mode, h.pending, h.irq⟩

/-! ### The invariant while idle and after turns of other agents -/

/-- While nothing runs and nothing is hidden, the invariant asks for little more. -/
theorem inv_of_idle {t : State} (memory : Memory.wf t.mem) (idle : t.busy = false)
    (hidden : t.rdNext = 0 ∧ t.rdLeft = 0 ∧ t.pending = none ∧ t.rdData = [] ∧ t.failed = false
      ∧ t.stored = [])
    (unanswered : t.memRsp = none) (validResult : t.valid = true → t.err = .none)
    (held : t.inReset = true → AtReset t) : Inv t := by
  obtain ⟨-, -, pending, -, -, stored⟩ := id hidden
  exact {
    memory := memory
    stored := by rw [stored]; exact .nil
    notBoth := by simp [idle]
    validResult := fun h => ⟨idle, validResult h⟩
    runsWithoutError := by simp [idle]
    idle := fun _ => hidden
    held := held
    response := by simp [unanswered]
    noMoreRequests := fun _ => pending
    progress := by simp [idle]
    request := by simp [pending] }

/-- While idle no response stands on the memory port: no request awaits one. -/
theorem Inv.unanswered_of_idle {s : State} (h : Inv s) (idle : s.busy = false) :
    s.memRsp = none := by
  obtain ⟨-, -, pending, -⟩ := h.idle idle
  cases answered : s.memRsp with
  | none => rfl
  | some rsp =>
    obtain ⟨q, outstanding, -⟩ := h.response rsp answered
    cases pending.symm.trans outstanding

theorem Inv.of_onlyAgents {s t : State} (h : Inv s) (same : OnlyAgentsDiffer s t) : Inv t := by
  obtain ⟨_, _, _, _, _, rfl, -⟩ := same
  exact ⟨h.memory, h.stored, h.notBoth, h.validResult, h.runsWithoutError, h.idle,
    fun held => (h.held held).of_outside _ _ _ _ _ _ _, h.response, h.noMoreRequests, h.progress,
    h.request⟩

theorem Inv.after_resetCore {s : State} (h : Inv s) (level : Bool) : Inv (resetCore level s) :=
  inv_of_idle h.memory rfl ⟨rfl, rfl, rfl, rfl, rfl, rfl⟩ rfl nofun
    fun _ => atReset_resetCore level s

/-- A store's address lies in the address space, and the hazard window stays in order (R103). -/
theorem Inv.after_storeByte {s : State} (h : Inv s) (a : BitVec 64) (b : Byte) :
    Inv (storeByte a b s) := by
  refine ⟨storeByte_wf a b s h.memory, ?_, h.notBoth, h.validResult, h.runsWithoutError,
    fun idle => ?_, fun held => (h.held held).of_outside _ _ _ _ _ _ _, h.response,
    h.noMoreRequests, h.progress, h.request⟩
  · rw [storeByte_stored]
    split
    · exact insertAddr_pairwise h.stored
    · exact h.stored
  · have kept : (storeByte a b s).stored = s.stored := by
      rw [storeByte_stored, if_neg (by rw [show s.busy = false from idle]; nofun)]
    rw [kept]
    exact h.idle idle

/-! ### Completion -/

theorem Inv.after_complete {s u : State} (h : Inv s) (released : s.inReset = false)
    (writes : OnlyWindowsDiffer s u) (e : ErrCode) (v : Bool) (result : v = true → e = .none) :
    Inv (complete e v u) := by
  obtain ⟨_, _, _, _, _, _, _, rfl⟩ := writes
  exact inv_of_idle h.memory rfl ⟨rfl, rfl, rfl, rfl, rfl, rfl⟩ rfl result
    fun held => by cases released.symm.trans held

/-! ### The memory port -/

/-- A running command with bytes left, or with a request outstanding, is one that reads (R57). -/
theorem Inv.reading {s : State} (h : Inv s) (busy : s.busy = true)
    (reads : s.rdLeft ≠ 0 ∨ s.pending ≠ none) :
    willRead s.cmd s = true ∧ s.rdNext = rangeBase s + s.rdData.length
      ∧ s.rdNext + s.rdLeft = rangeBase s + s.msgLen.toNat := by
  have progress := h.progress busy
  unfold Progress at progress
  split at progress
  · exact ⟨‹_›, progress⟩
  · obtain ⟨-, left, pending, -⟩ := progress
    rcases reads with reads | reads
    · exact absurd left reads
    · exact absurd pending reads

theorem progress_of_reading {t : State} (will : willRead t.cmd t = true)
    (place : t.rdNext = rangeBase t + t.rdData.length)
    (whole : t.rdNext + t.rdLeft = rangeBase t + t.msgLen.toNat) : Progress t := by
  rw [Progress, if_pos will]
  exact ⟨place, whole⟩

/-- A request is outstanding only while a command runs. -/
theorem Inv.busy_of_pending {s : State} (h : Inv s) (outstanding : s.pending ≠ none) :
    s.busy = true := by
  by_contra idle
  obtain ⟨-, -, pending, -⟩ := h.idle (Bool.eq_false_of_not_eq_true idle)
  exact outstanding pending

/-- A command that received an error response issues nothing more (R295). -/
theorem Inv.healthy_of_pending {s : State} (h : Inv s) (outstanding : s.pending ≠ none) :
    s.failed = false :=
  Bool.eq_false_of_not_eq_true fun failed => outstanding (h.noMoreRequests failed)

/-- The request issued is the next piece of the range (R93). -/
theorem Inv.after_setRequest {s : State} (h : Inv s) (released : s.inReset = false)
    (busy : s.busy = true) (healthy : s.failed = false) (left : s.rdLeft ≠ 0) :
    Inv (setRequest (nextRequest s) s) where
  memory := h.memory
  stored := h.stored
  notBoth := h.notBoth
  validResult := h.validResult
  runsWithoutError := h.runsWithoutError
  idle idle := by cases busy.symm.trans idle
  held held := by cases released.symm.trans held
  response := nofun
  noMoreRequests failed := by cases healthy.symm.trans failed
  progress _ := by
    obtain ⟨will, place, whole⟩ := h.reading busy (.inl left)
    exact progress_of_reading will place whole
  request q outstanding := by
    obtain rfl := Option.some.inj outstanding
    exact ⟨rfl, requestLen_pos _ left, requestLen_le_max _, requestLen_le_left _ left⟩

/-- The answer to a request has its length (R87, R92). -/
theorem Inv.after_setMemRsp {s : State} (h : Inv s) (released : s.inReset = false) {q : MemReq}
    (outstanding : s.pending = some q) (c : MemChoice) : Inv (setMemRsp (memAnswer c q s) s) where
  memory := h.memory
  stored := h.stored
  notBoth := h.notBoth
  validResult := h.validResult
  runsWithoutError := h.runsWithoutError
  idle := h.idle
  held held := by cases released.symm.trans held
  response rsp answered := by
    refine ⟨q, outstanding, fun bs bytes => ?_⟩
    obtain rfl := Option.some.inj answered
    rcases memAnswer_cases c q s with ⟨bs', -, read, e⟩ | ⟨-, e⟩ <;> rw [e] at bytes <;> cases bytes
    exact readBytes_length read
  noMoreRequests := h.noMoreRequests
  progress := h.progress
  request := h.request

/-- A receipt moves the read position by what it received (R93). -/
theorem Inv.after_receiveBytes {s : State} (h : Inv s) (released : s.inReset = false) {q : MemReq}
    {bs : List Byte} (outstanding : s.pending = some q) (answered : s.memRsp = some (.ok bs)) :
    Inv (receiveBytes q bs s) := by
  have some_pending : s.pending ≠ none := by simp [outstanding]
  have busy := h.busy_of_pending some_pending
  have healthy := h.healthy_of_pending some_pending
  have length : bs.length = q.len := by
    obtain ⟨q', outstanding', length⟩ := h.response _ answered
    obtain rfl := Option.some.inj (outstanding.symm.trans outstanding')
    exact length bs rfl
  obtain ⟨-, -, -, within⟩ := h.request q outstanding
  exact {
    memory := h.memory
    stored := h.stored
    notBoth := h.notBoth
    validResult := h.validResult
    runsWithoutError := h.runsWithoutError
    idle := fun idle => by cases busy.symm.trans idle
    held := fun held => by cases released.symm.trans held
    response := nofun
    noMoreRequests := fun _ => rfl
    progress := fun _ => by
      obtain ⟨will, place, whole⟩ := h.reading busy (.inr some_pending)
      refine progress_of_reading will ?_ ?_
      · show s.rdNext + q.len = rangeBase s + (s.rdData ++ bs).length
        rw [List.length_append, length, place, Nat.add_assoc]
      · show s.rdNext + q.len + (s.rdLeft - q.len) = rangeBase s + s.msgLen.toNat
        omega
    request := nofun }

theorem Inv.after_receiveError {s : State} (h : Inv s) (released : s.inReset = false) {q : MemReq}
    (outstanding : s.pending = some q) : Inv (receiveError q s) := by
  have some_pending : s.pending ≠ none := by simp [outstanding]
  have busy := h.busy_of_pending some_pending
  exact {
    memory := h.memory
    stored := h.stored
    notBoth := h.notBoth
    validResult := h.validResult
    runsWithoutError := h.runsWithoutError
    idle := fun idle => by cases busy.symm.trans idle
    held := fun held => by cases released.symm.trans held
    response := nofun
    noMoreRequests := fun _ => rfl
    progress := fun _ => by
      obtain ⟨will, place, whole⟩ := h.reading busy (.inr some_pending)
      exact progress_of_reading will place whole
    request := nofun }

/-! ### The register port -/

/-- IE and WBUSY are free, and DONE may be cleared. -/
theorem Inv.of_flags {s : State} (h : Inv s) (released : s.inReset = false) (ie wbusy : Bool)
    {done : Bool} (lowered : done = true → s.done = true) :
    Inv { s with ie := ie, done := done, wbusy := wbusy } :=
  ⟨h.memory, h.stored, fun ⟨busy, d⟩ => h.notBoth ⟨busy, lowered d⟩, h.validResult,
    h.runsWithoutError, h.idle, fun held => absurd held (by simp [released]), h.response,
    h.noMoreRequests, h.progress, h.request⟩

/-- An accepted command has read nothing, and stands at the start of its range (R57, R100). -/
theorem Inv.after_accept {s : State} (h : Inv s) (released : s.inReset = false) (w : Word) :
    Inv (accept w s) where
  memory := h.memory
  stored := .nil
  notBoth := nofun
  validResult := nofun
  runsWithoutError _ := rfl
  idle := nofun
  held held := by cases released.symm.trans held
  response := nofun
  noMoreRequests := nofun
  progress _ := by
    have same : willRead w (accept w s) = willRead w s := rfl
    unfold Progress
    simp only [accept_cmd, same, accept_rdNext, accept_rdLeft]
    split
    · exact ⟨rfl, rfl⟩
    · exact ⟨rfl, rfl, rfl, rfl, rfl⟩
  request := nofun

theorem Inv.after_accessStep {s u : State} (h : Inv s) (released : s.inReset = false)
    (access : AccessStep s u) : Inv u := by
  cases access with
  | nothing => exact h
  | draws => exact h.of_onlyAgents (countDraw_onlyAgents s)
  | ctrl v => exact h.of_flags released _ _ id
  | status v => exact h.of_flags released _ _ fun d => (Bool.and_eq_true_iff.1 d).1
  | dropped => exact h.of_flags released _ _ id
  | accepts _ w => exact h.after_accept released w
  | ranges idle | windows idle =>
    exact inv_of_idle h.memory idle (h.idle idle) (h.unanswered_of_idle idle)
      (fun valid => (h.validResult valid).2) fun held => by cases released.symm.trans held

/-! ### The statements -/

theorem Inv.after_execStep {i : Instr} {s t : State} (h : Inv s) (released : s.inReset = false)
    (busy : s.busy = true) (runs : ExecStep i s t) : Inv t := by
  cases runs with
  | completes e v writes result =>
    exact h.after_complete released writes e v fun valid => (result valid).1
  | issues _ healthy left => exact h.after_setRequest released busy healthy left
  | receives q rsp outstanding answered =>
    cases rsp with
    | ok bs => exact h.after_receiveBytes released outstanding answered
    | buserr => exact h.after_receiveError released outstanding
  | waits => exact h

theorem Inv.after_turnStep {s t : State} (h : Inv s) (turn : TurnStep s t) : Inv t := by
  cases turn with
  | idles same => exact h.of_onlyAgents same
  | executes c released busy _ runs =>
    exact (h.of_onlyAgents (setCut_onlyAgents c s)).after_execStep released busy runs
  | rejects c e released =>
    exact (h.of_onlyAgents (setCut_onlyAgents c s)).after_complete released (.refl _) e false nofun
  | answers c q released outstanding =>
    exact (h.after_setMemRsp released outstanding c).of_onlyAgents (countDraw_onlyAgents _)
  | accesses released access same => exact (h.after_accessStep released access).of_onlyAgents same
  | stores a b => exact h.after_storeByte a b
  | resets level => exact h.after_resetCore level

/-- Settles O45: every kind of turn keeps the invariant. -/
theorem invariantIsKept : Obligations.InvariantIsKept := fun s _ h step =>
  (h.of_onlyAgents (popTurn_onlyAgents s)).after_turnStep (turnStep_of_step step)

/-- Settles O46: the reset state is idle with nothing hidden. -/
theorem invariantAtReset : Obligations.InvariantAtReset :=
  inv_of_idle ⟨.nil, nofun⟩ rfl ⟨rfl, rfl, rfl, rfl, rfl, rfl⟩ rfl nofun nofun

end Sys2Proof.Machine
end

section
/-! What the range check bounds (42_pipeline.md R241), the faults that it excludes together with the
invariant (20_memory.md R87, R95), and what no command changes (10_state.md R39; 60_exceptions.md
R296; 70_reset_and_hazards.md R347). -/

namespace Sys2Proof.Machine

/-! ### The range check -/

/-- A 64-bit register's value is its HI half above its LO half (R43 to R47). -/
theorem toNat_halves (hi lo : Word) : (hi ++ lo).toNat = hi.toNat * 2 ^ 32 + lo.toNat := by
  rw [BitVec.toNat_append, ← Nat.shiftLeft_add_eq_or_of_lt lo.isLt, Nat.shiftLeft_eq]

/-- A clear top bit is the bound 2^63 (R241). -/
theorem getLsbD_top_eq_false_iff (v : BitVec 64) : v.getLsbD 63 = false ↔ v.toNat < 2 ^ 63 := by
  rw [show v.getLsbD 63 = v.msb from (BitVec.msb_eq_getLsbD_last v).symm,
    BitVec.msb_eq_false_iff_two_mul_lt]
  omega

theorem rangeOk_iff (s : State) : rangeOk s = true ↔
    s.offset.toNat < 2 ^ 63 ∧ s.msgLen.toNat < 2 ^ 63
      ∧ s.offset.toNat + s.msgLen.toNat ≤ s.bufLen.toNat
      ∧ s.srcAddr.toNat + s.offset.toNat + s.msgLen.toNat ≤ 2 ^ 64 := by
  simp only [rangeOk, Bool.and_eq_true, Bool.not_eq_true', getLsbD_top_eq_false_iff,
    decide_eq_true_eq, and_assoc]

/-- Settles O31: the 64-bit registers are their halves, and each test is on exact sums. -/
theorem rangeCheckIsExact : Obligations.RangeCheckIsExact := by
  intro s src buf off len
  rw [rangeOk_iff, State.offset, State.msgLen, State.bufLen, State.srcAddr, toNat_halves,
    toNat_halves, toNat_halves, toNat_halves]

/-! ### Faults -/

/-- The range lies in the address space, and so does every piece of it (R87, R95). -/
theorem Inv.exec_ne_fault {s : State} (h : Inv s) (busy : s.busy = true) (i : Instr) (r : Fault) :
    exec i s ≠ .fault r := by
  intro fault
  obtain ⟨-, valid, left, past⟩ := exec_fault fault
  obtain ⟨-, -, whole⟩ := h.reading busy (.inl left)
  obtain ⟨-, -, -, fits⟩ := (rangeOk_iff s).1 valid
  have within := requestLen_le_left s.cut left
  rw [rangeBase] at whole
  omega

/-- From a state that meets the invariant only the host program can make a step fault. -/
theorem Inv.step_fault {s : State} (h : Inv s) {r : Fault} (fault : step s = .fault r) :
    r = .outsideRegisterSpace ∧ ∃ op ∈ s.host.prog, ∃ off ∈ op.offset?, regSpace ≤ off := by
  rcases runTurn_fault fault with ⟨c, i, busy, -, fault⟩ | outside
  · have h' := (h.of_onlyAgents (popTurn_onlyAgents s)).of_onlyAgents (setCut_onlyAgents c _)
    exact absurd fault (h'.exec_ne_fault busy i r)
  · exact outside

theorem onlyWindows_host {s u : State} (h : OnlyWindowsDiffer s u) : u.host = s.host := by
  obtain ⟨_, _, _, _, _, _, _, rfl⟩ := h
  rfl

theorem receiveResponse_host (q : MemReq) (rsp : MemRsp) (s : State) :
    (receiveResponse q rsp s).host = s.host := by
  cases rsp <;> rfl

/-- No turn rewrites the host's program (30_encoding.md R123). -/
theorem TurnStep.prog_eq {s t : State} (h : TurnStep s t) : t.host.prog = s.host.prog := by
  cases h with
  | idles same =>
    obtain ⟨_, _, _, _, _, rfl, prog⟩ := same
    exact prog
  | executes c _ _ _ runs =>
    cases runs with
    | completes e v writes => rw [complete_host, onlyWindows_host writes, setCut_host]
    | issues => rfl
    | receives q rsp => exact congrArg HostAgent.prog (receiveResponse_host q rsp _)
    | waits => rfl
  | accesses _ access same =>
    obtain ⟨_, _, _, _, _, rfl, prog⟩ := same
    rw [prog]
    cases access <;> rfl
  | rejects | answers | stores | resets => rfl

/-- Settles O47: a command's requests lie in its range, a host program's accesses in register space,
and no turn rewrites the program. -/
theorem invariantExcludesFaults : Obligations.InvariantExcludesFaults := by
  refine ⟨fun s h => ⟨fun fault => ?_, fun fits r fault => ?_⟩, fun s t fits next => ?_, nofun⟩
  · cases (h.step_fault fault).1
  · obtain ⟨-, op, member, off, access, past⟩ := h.step_fault fault
    exact absurd (fits op member off access) (Nat.not_lt.2 past)
  · have prog : t.host.prog = s.host.prog := (turnStep_of_step next).prog_eq
    unfold HostOffsetsFit
    rwa [prog]

/-! ### What no command changes -/

/-- Settles O49: a completion writes windows and STATUS, and the other core steps move hidden state
only. -/
theorem commandsKeepRangeAndControl : Obligations.CommandsKeepRangeAndControl := by
  intro i s t next
  cases commandStep_of_exec next with
  | completes e v writes =>
    obtain ⟨_, _, _, _, _, _, _, rfl⟩ := writes
    exact ⟨⟨rfl, rfl, rfl, rfl, rfl⟩, rfl, rfl⟩
  | receives q rsp => cases rsp <;> exact ⟨⟨rfl, rfl, rfl, rfl, rfl⟩, rfl, rfl⟩
  | issues | waits => exact ⟨⟨rfl, rfl, rfl, rfl, rfl⟩, rfl, rfl⟩

theorem readsMemory_iff (i : Instr) : readsMemory i = true ↔ i = .hash1 ∨ i = .hash2 := by
  cases i <;> simp [readsMemory]

theorem receiveResponse_valid (q : MemReq) (rsp : MemRsp) (s : State) :
    (receiveResponse q rsp s).valid = s.valid := by
  cases rsp <;> rfl

theorem AccessStep.valid_of {s u : State} (h : AccessStep s u) (valid : u.valid = true) :
    s.valid = true := by
  cases h with
  | accepts => cases valid
  | nothing | draws | ctrl | status | dropped | ranges | windows => exact valid

/-- A turn that sets VALID completes a hash command (R39). -/
theorem TurnStep.sets_valid {s t : State} (h : TurnStep s t) (before : s.valid = false)
    (after : t.valid = true) :
    s.busy = true ∧ t.busy = false ∧ t.done = true ∧ t.err = .none
      ∧ (decode s.cmd = .legal .hash1 ∨ decode s.cmd = .legal .hash2) := by
  have kept : s.valid ≠ true := by simp [before]
  cases h with
  | idles same =>
    obtain ⟨_, _, _, _, _, rfl, -⟩ := same
    exact absurd after kept
  | @executes _ c i _ busy word runs =>
    cases runs with
    | completes e v _ result =>
      obtain ⟨healthy, reads⟩ := result after
      refine ⟨busy, rfl, rfl, healthy, ?_⟩
      rcases (readsMemory_iff i).1 reads with rfl | rfl
      · exact .inl word
      · exact .inr word
    | issues => exact absurd after kept
    | receives q rsp =>
      rw [receiveResponse_valid] at after
      exact absurd after kept
    | waits => exact absurd after kept
  | accesses _ access same =>
    obtain ⟨_, _, _, _, _, rfl, -⟩ := same
    exact absurd (access.valid_of after) kept
  | rejects | resets => cases after
  | answers | stores => exact absurd after kept

/-- Settles O50: of all turns only the completion of a hash command raises VALID. -/
theorem onlyHashSetsValid : Obligations.OnlyHashSetsValid := fun _ _ next before after =>
  (turnStep_of_step next).sets_valid before after

end Sys2Proof.Machine
end

section
/-! The turn of each agent (20_memory.md R84, R92, R99, R103; 30_encoding.md R117, R123;
70_reset_and_hazards.md R340 to R343): what a step is when the turn is the core's, a transfer's, the
memory system's, a store's, the platform's reset or the host program's. -/

namespace Sys2Proof.Machine

theorem step_of_turn {s : State} {turn : Turn} (h : nextTurn s = turn) :
    step s = runTurn turn (popTurn s) := by
  rw [step, h]

/-! ### The core's turn -/

theorem coreStep_idle {s : State} (idle : s.busy = false) : coreStep s = .next s := by
  simp [coreStep, idle]

theorem coreStep_held {s : State} (held : s.inReset = true) : coreStep s = .next s := by
  simp [coreStep, held]

theorem coreStep_legal {s : State} {i : Instr} (released : s.inReset = false)
    (busy : s.busy = true) (word : decode s.cmd = .legal i) : coreStep s = exec i s := by
  simp [coreStep, released, busy, word]

theorem coreStep_illegal {s : State} (released : s.inReset = false) (busy : s.busy = true)
    (word : decode s.cmd = .illegal) : coreStep s = .next (complete .illegal false s) := by
  simp [coreStep, released, busy, word]

theorem coreStep_badRound {s : State} (released : s.inReset = false) (busy : s.busy = true)
    (word : decode s.cmd = .badRound) : coreStep s = .next (complete .badRnd false s) := by
  simp [coreStep, released, busy, word]

/-- Settles O5: the core's turn runs what CMD decodes to. -/
theorem stepRunsDecodedCommand : Obligations.StepRunsDecodedCommand := by
  intro s i c released busy turn word
  rw [step_of_turn turn]
  exact coreStep_legal (s := setCut c (popTurn s)) released busy word

/-- Settles O6: the core's turn completes a rejected word, and writes no window. -/
theorem rejectedWordsComplete : Obligations.RejectedWordsComplete := by
  intro s c released busy turn
  rw [step_of_turn turn]
  have frame : ∀ e, CommandFrame [] (setCut c (popTurn s))
      (complete e false (setCut c (popTurn s))) := fun e =>
    commandFrame_complete e false (.refl _) rfl (by simp [WindowsKept])
  constructor <;> intro word
  · exact ⟨_, coreStep_illegal (s := setCut c (popTurn s)) released busy word,
      by constructor <;> rfl, rfl, frame _⟩
  · exact ⟨_, coreStep_badRound (s := setCut c (popTurn s)) released busy word,
      by constructor <;> rfl, rfl, frame _⟩

/-- Settles O7: with BUSY = 0 the core's turn leaves the state it is given. -/
theorem idleCoreWaits : Obligations.IdleCoreWaits := by
  intro s c idle turn
  rw [step_of_turn turn]
  exact coreStep_idle (s := setCut c (popTurn s)) idle

/-! ### The turns of the other agents -/

/-- A read of memory does not see whose turn it is. -/
theorem readBytes_popTurn (s : State) (a n : Nat) :
    readBytes (popTurn s) a n = readBytes s a n := by
  induction n generalizing a with
  | zero => rfl
  | succ n ih =>
    have byte : readByte (popTurn s) a = readByte s a := rfl
    rw [readBytes, readBytes, byte, ih]

theorem hostTurn_held {s : State} (held : s.inReset = true) (q : RegReq) : hostTurn q s = s :=
  if_pos held

theorem hostTurn_released {s : State} (released : s.inReset = false) (q : RegReq) :
    hostTurn q s = accessPort q s :=
  if_neg (by simp [released])

theorem memoryTurn_held {s : State} (held : s.inReset = true) (c : MemChoice) :
    memoryTurn c s = .next s :=
  if_pos held

theorem memoryTurn_answers {s : State} {q : MemReq} (released : s.inReset = false)
    (outstanding : s.pending = some q) (unanswered : s.memRsp = none) (c : MemChoice) :
    memoryTurn c s = .next (countDraw (setMemRsp (memAnswer c q s) s)) := by
  simp [memoryTurn, released, outstanding, unanswered]

theorem memoryTurn_stray {s : State} (released : s.inReset = false)
    (stray : s.pending = none ∨ s.memRsp ≠ none) (c : MemChoice) :
    memoryTurn c s = .refused .strayResponse := by
  rcases memoryTurn_cases c s with ⟨held, _⟩ | ⟨_, unanswered, q, outstanding, _⟩ | ⟨_, _, e⟩
  · cases released.symm.trans held
  · simp [unanswered, outstanding] at stray
  · exact e

theorem memAnswer_error (q : MemReq) (s : State) : memAnswer .error q s = .buserr := rfl

theorem memAnswer_unmapped {q : MemReq} {s : State} (h : readBytes s q.addr q.len = none) :
    memAnswer .data q s = .buserr := by
  simp [memAnswer, h]

theorem memAnswer_bytes {q : MemReq} {s : State} {bs : List Byte}
    (h : readBytes s q.addr q.len = some bs) : memAnswer .data q s = .ok bs := by
  simp [memAnswer, h]

theorem programTurn_held {s : State} (held : s.inReset = true) : programTurn s = .next s :=
  if_pos held

/-- A low level, or the release from one, resets the core (R340). -/
theorem driveReset_of_event {level : Bool} {s : State} (event : level = false ∨ s.inReset = true) :
    driveReset level s = resetCore level s := by
  rcases event with rfl | held
  · rfl
  · simp [driveReset, held]

theorem driveReset_released {s : State} (released : s.inReset = false) : driveReset true s = s := by
  simp [driveReset, released]

/-- Settles O8: each turn is its agent's operation on the state with the turn taken off. -/
theorem turnsOfOtherAgents : Obligations.TurnsOfOtherAgents := by
  intro s
  refine ⟨fun q turn => ?_, fun c turn => ?_, fun a b turn => ?_, fun level turn => ?_⟩ <;>
    rw [step_of_turn turn, runTurn]
  · refine ⟨fun held => ?_, fun released => ?_⟩
    · rw [hostTurn_held (s := popTurn s) held]
    · rw [hostTurn_released (s := popTurn s) released, accessPort, access_popTurn_response]
  · refine ⟨fun held => memoryTurn_held (s := popTurn s) held c,
      fun q released outstanding unanswered => ?_, fun released stray => memoryTurn_stray (s := popTurn s) released stray c⟩
    rw [memoryTurn_answers (s := popTurn s) released outstanding unanswered]
    refine ⟨fun error => ?_, fun data none => ?_, fun bs data bytes => ?_⟩
    · rw [error, memAnswer_error]
      rfl
    · rw [data, memAnswer_unmapped ((readBytes_popTurn ..).trans none)]
      rfl
    · rw [data, memAnswer_bytes ((readBytes_popTurn ..).trans bytes)]
      rfl
  · rfl
  · refine ⟨fun high released => ?_, fun event => ?_⟩
    · rw [high, driveReset_released (s := popTurn s) released]
    · exact ⟨_, rfl, by rw [driveReset_of_event (s := popTurn s) event]; exact
        ⟨atReset_resetCore _ _, rfl, rfl, rfl, rfl, rfl, rfl, rfl, rfl, rfl, rfl⟩⟩

/-! ### The host program's turn -/

theorem hostOp?_of_getElem? {s : State} {op : HostOp} (place : s.host.prog[s.host.pos]? = some op)
    (goes : op ≠ .halt) : hostOp? s = some op := by
  cases op
  case halt => exact absurd rfl goes
  all_goals simp [hostOp?, place]

theorem programTurn_runs {s : State} {op : HostOp} (released : s.inReset = false)
    (place : s.host.prog[s.host.pos]? = some op) (goes : op ≠ .halt) :
    programTurn s = runHostOp op s := by
  simp [programTurn, released, hostOp?_of_getElem? place goes]

theorem programTurn_ended {s : State} (released : s.inReset = false)
    (ended : s.host.prog[s.host.pos]? = some .halt ∨ s.host.prog[s.host.pos]? = none) :
    programTurn s = .next s := by
  rcases ended with ended | ended <;> simp [programTurn, released, hostOp?, ended]

theorem atPort_toNat (off : BitVec 12) (f : BitVec 12 → State) :
    atPort off.toNat f = .next (f off) := by
  simp [atPort]

theorem atPort_past {off : Nat} (past : regSpace ≤ off) (f : BitVec 12 → State) :
    atPort off f = .fault .outsideRegisterSpace := by
  simp [atPort, portAddress?_eq_none past]

/-- Settles O9: the program's turn runs the step at its position, whose accesses are those of the
port. -/
theorem hostProgramSteps : Obligations.HostProgramSteps := by
  intro s turn
  rw [step_of_turn turn, runTurn]
  refine ⟨programTurn_held (s := popTurn s), fun released => ?_⟩
  have runs : ∀ op, s.host.prog[s.host.pos]? = some op → op ≠ .halt →
      programTurn (popTurn s) = runHostOp op (popTurn s) := fun op place goes =>
    programTurn_runs (s := popTurn s) released place goes
  refine ⟨fun off v place => ?_, fun off place => ?_, fun off past place => ?_,
    fun b l place => ?_, fun b l place => ?_, programTurn_ended (s := popTurn s) released⟩
  · rw [runs _ place nofun, runHostOp, atPort_toNat, accessPort, access_popTurn_response]
    simp [hostGoto, access_host]
  · rw [runs _ place nofun, runHostOp, atPort_toNat, accessPort, access_popTurn_response]
    simp [hostGoto, hostLatch, access_host]
  · rcases place with ⟨v, place⟩ | place <;> rw [runs _ place nofun, runHostOp, atPort_past past]
  · rw [runs _ place nofun, runHostOp, popTurn_host]
    exact ⟨fun clear => by rw [clear]; rfl, fun set => by rw [set]; rfl⟩
  · rw [runs _ place nofun, runHostOp, popTurn_host]
    exact ⟨fun set => by rw [set]; rfl, fun clear => by rw [clear]; rfl⟩

end Sys2Proof.Machine
end

section
/-! Commands that complete in one core step, and commands one after another (40_permutation_core.md
R150 to R161; 41_compression_and_chaining.md R212, R213, R216; 42_pipeline.md R245). -/

namespace Sys2Proof.Machine

/-! ### Single commands -/

theorem withRound_badRound {r : BitVec 4} (hr : 13 < r.toNat) (s t : State) :
    withRound r s t = .next (complete .badRnd false s) := by
  have refused : roundLegal r = false := decide_eq_false (Nat.not_le.2 hr)
  rw [withRound, refused]
  rfl

/-- A command that ends with the error `e` and no window written. -/
theorem endsIn_of_completes {e : ErrCode} {i : Instr} {s : State}
    (step : exec i s = .next (complete e false s)) : EndsIn e i s :=
  ⟨_, step, completed_complete e false (.refl s),
    commandFrame_complete e false (.refl s) rfl (by simp [WindowsKept])⟩

/-- Settles O14: the check of the round index comes before the effect. -/
theorem badRoundIndexEndsInBadRnd : Obligations.BadRoundIndexEndsInBadRnd := fun s _ hr =>
  have refused : ∀ t, withRound _ s t = .next (complete .badRnd false s) := withRound_badRound hr s
  ⟨endsIn_of_completes (refused _), endsIn_of_completes (refused _),
    endsIn_of_completes (refused _), endsIn_of_completes (refused _)⟩

theorem foldEffect_onlyWindows (s : State) : OnlyWindowsDiffer s (foldEffect s) :=
  ⟨_, _, _, _, _, _, _, rfl⟩

/-- Settles O22: FOLD writes HREG alone, a byte at a time. -/
theorem foldCommand : Obligations.FoldCommand := fun s =>
  runs_of_completes rfl (foldEffect_onlyWindows s) rfl (by simp [WindowsKept]) fun k _ => by
    rw [complete_hreg, foldEffect_hreg, byteAt_xorBytes, byteAt_xorBytes]

/-- COMP leaves the compression of HREG and MREG (R191, R213). -/
theorem compEffect_hreg_eq (s : State) : (compEffect s).hreg = compress s.hreg s.mreg := rfl

/-- Settles O23: COMP writes both lanes, and HREG from them. -/
theorem compCommand : Obligations.CompCommand := fun s =>
  runs_of_completes rfl (compEffect_onlyWindows s) rfl (by simp [WindowsKept])
    ⟨rfl, rfl, compEffect_hreg_eq s⟩

/-- Settles O27: NOP is the common completion alone. -/
theorem nopCommand : Obligations.NopCommand := fun s =>
  runs_of_completes rfl (.refl s) rfl (by simp [WindowsKept]) trivial

/-! ### Commands one after another -/

theorem runSeq_cons {i : Instr} {s t : State} (is : List Instr) (h : exec i s = .next t) :
    runSeq (i :: is) s = runSeq is t := by
  rw [runSeq, h, andThen]

theorem runSeq_singleton (i : Instr) (s : State) : runSeq [i] s = exec i s := by
  cases h : exec i s <;> simp [runSeq, andThen, h]

/-- The command `c.1` applies the function `c.2` to its lane's register and completes. -/
def RunsOnLane (lane : State → Block) (setLane : Block → State → State)
    (c : Instr × (Block → Block)) : Prop :=
  ∀ s, exec c.1 s = .next (complete .none false (setLane (c.2 (lane s)) s))

/-- Commands of one lane, one after another, apply their functions one after another: a completion
leaves nothing of the one before it that it does not keep. -/
theorem runSeq_lane {lane : State → Block} {setLane : Block → State → State}
    (lane_set : ∀ v s, lane (complete .none false (setLane v s)) = v)
    (set_set : ∀ v w s, complete .none false (setLane w (complete .none false (setLane v s)))
      = complete .none false (setLane w s))
    (c : Instr × (Block → Block)) (cs : List (Instr × (Block → Block))) (s : State)
    (runs : ∀ d ∈ c :: cs, RunsOnLane lane setLane d) :
    runSeq ((c :: cs).map Prod.fst) s
      = .next (complete .none false (setLane ((c :: cs).foldl (fun v d => d.2 v) (lane s)) s)) := by
  have first := runs c (.head _)
  induction cs generalizing c s with
  | nil => exact (runSeq_singleton _ _).trans (first s)
  | cons d cs ih =>
    have rest : ∀ x ∈ d :: cs, RunsOnLane lane setLane x := fun x hx => runs x (.tail _ hx)
    rw [List.map_cons, runSeq_cons _ (first s), ih d _ rest (rest d (.head _)), lane_set, set_set]
    rfl

theorem runSeq_pst (c : Instr × (Block → Block)) (cs : List (Instr × (Block → Block))) (s : State)
    (runs : ∀ d ∈ c :: cs, RunsOnLane State.pst setPst d) :
    runSeq ((c :: cs).map Prod.fst) s
      = .next (complete .none false (setPst ((c :: cs).foldl (fun v d => d.2 v) s.pst) s)) :=
  runSeq_lane (fun _ _ => rfl) (fun _ _ _ => rfl) c cs s runs

theorem runSeq_qst (c : Instr × (Block → Block)) (cs : List (Instr × (Block → Block))) (s : State)
    (runs : ∀ d ∈ c :: cs, RunsOnLane State.qst setQst d) :
    runSeq ((c :: cs).map Prod.fst) s
      = .next (complete .none false (setQst ((c :: cs).foldl (fun v d => d.2 v) s.qst) s)) :=
  runSeq_lane (fun _ _ => rfl) (fun _ _ _ => rfl) c cs s runs

/-- The steps of a round in the P lane (R146, R158). -/
def roundStepsP (r : BitVec 4) : List (Instr × (Block → Block)) :=
  [(.arcP r, (arcP · r)), (.subP, subBytes), (.shbP, (shiftBytes · sigmaP)), (.mixP, mixBytes)]

/-- The steps of a round in the Q lane (R146, R159). -/
def roundStepsQ (r : BitVec 4) : List (Instr × (Block → Block)) :=
  [(.arcQ r, (arcQ · r)), (.subQ, subBytes), (.shbQ, (shiftBytes · sigmaQ)), (.mixQ, mixBytes)]

theorem roundStepsP_run {r : BitVec 4} (hr : r.toNat ≤ 13) :
    ∀ d ∈ roundStepsP r, RunsOnLane State.pst setPst d := by
  simp only [roundStepsP, List.forall_mem_cons]
  exact ⟨fun s => withRound_legal hr s _, fun _ => rfl, fun _ => rfl, fun _ => rfl, nofun⟩

theorem roundStepsQ_run {r : BitVec 4} (hr : r.toNat ≤ 13) :
    ∀ d ∈ roundStepsQ r, RunsOnLane State.qst setQst d := by
  simp only [roundStepsQ, List.forall_mem_cons]
  exact ⟨fun s => withRound_legal hr s _, fun _ => rfl, fun _ => rfl, fun _ => rfl, nofun⟩

theorem rounds_legal : ∀ r ∈ rounds, r.toNat ≤ 13 := by decide

theorem roundsP_run : ∀ d ∈ rounds.map fun r => (Instr.rndP r, (roundP · r)),
    RunsOnLane State.pst setPst d :=
  List.forall_mem_map.2 fun r hr s => withRound_legal (rounds_legal r hr) s _

theorem roundsQ_run : ∀ d ∈ rounds.map fun r => (Instr.rndQ r, (roundQ · r)),
    RunsOnLane State.qst setQst d :=
  List.forall_mem_map.2 fun r hr s => withRound_legal (rounds_legal r hr) s _

/-- Settles O20: the steps of a round and the rounds of a permutation are commands of one lane. -/
theorem roundsAndPermutationsAreTheirSteps : Obligations.RoundsAndPermutationsAreTheirSteps :=
  fun s => ⟨fun _ hr =>
      ⟨(runSeq_pst _ _ s (roundStepsP_run hr)).trans (withRound_legal hr s _).symm,
        (runSeq_qst _ _ s (roundStepsQ_run hr)).trans (withRound_legal hr s _).symm⟩,
    runSeq_pst _ _ s roundsP_run, runSeq_qst _ _ s roundsQ_run⟩

/-- FOLD sums the lanes in another order than COMP. -/
theorem xorBytes_rotate {n : Nat} (h p q : Bytes n) :
    xorBytes (xorBytes h p) q = xorBytes (xorBytes p q) h :=
  bytes_ext fun k _ => by
    simp only [byteAt_xorBytes]
    ac_rfl

/-- LOADPQ, both permutations and FOLD leave what COMP leaves (R213). -/
theorem foldEffect_permutations (s : State) :
    foldEffect (setQst (permQ s.mreg) (setPst (permP (xorBytes s.hreg s.mreg)) s))
      = compEffect s := by
  rw [foldEffect, compEffect]
  simp only [setQst_hreg, setPst_hreg, setQst_pst, setPst_pst, setQst_qst, xorBytes_rotate]
  rfl

theorem runSeq_comp (s : State) :
    runSeq [.loadpq, .permP, .permQ, .fold] s = .next (complete .none false
      (foldEffect (setQst (permQ s.mreg) (setPst (permP (xorBytes s.hreg s.mreg)) s)))) := rfl

/-- Settles O25: LOADPQ, the two permutations and FOLD write what COMP writes; OUTLD, PERM.P and
OUTX what OMEGA writes. -/
theorem compAndOmegaAreTheirSteps : Obligations.CompAndOmegaAreTheirSteps := by
  intro s
  have comp : runSeq [.loadpq, .permP, .permQ, .fold] s = exec .comp s := by
    rw [runSeq_comp, foldEffect_permutations]
    rfl
  exact ⟨comp, comp, rfl⟩

end Sys2Proof.Machine
end

section
/-! HASH1 and HASH2, one core step at a time (20_memory.md R88 to R95, R103; 42_pipeline.md R246,
R247, R252; 60_exceptions.md R295, R299; 70_reset_and_hazards.md R354). -/

namespace Sys2Proof.Machine

/-! ### One step, by what the command waits for -/

section Steps

variable {effect : List Byte → State → State} {s : State}

theorem hashCommand_sideEffects (valid : rangeOk s = true)
    (meets : rangeHasSideEffects s = true) :
    hashCommand effect s = .refused .sideEffectMemory := by
  simp [hashCommand, valid, meets]

variable (valid : rangeOk s = true) (plain : rangeHasSideEffects s = false)

include valid plain

theorem hashCommand_receives {q : MemReq} {rsp : MemRsp} (outstanding : s.pending = some q)
    (answered : s.memRsp = some rsp) :
    hashCommand effect s = .next (receiveResponse q rsp s) := by
  simp [hashCommand, valid, plain, outstanding, answered]

theorem hashCommand_waits {q : MemReq} (outstanding : s.pending = some q)
    (unanswered : s.memRsp = none) : hashCommand effect s = .next s := by
  simp [hashCommand, valid, plain, outstanding, unanswered]

theorem hashCommand_failed (free : s.pending = none) (failed : s.failed = true) :
    hashCommand effect s = .next (complete .bus false (abandonWindows (zeroResults s))) := by
  simp [hashCommand, valid, plain, free, failed]

theorem hashCommand_completes (free : s.pending = none) (healthy : s.failed = false)
    (read : s.rdLeft = 0) :
    hashCommand effect s = .next (complete .none true (effect s.rdData s)) := by
  simp [hashCommand, valid, plain, free, healthy, read]

/-- A request inside the address space is issued (R87, R93). -/
theorem hashCommand_issues (free : s.pending = none) (healthy : s.failed = false)
    (left : s.rdLeft ≠ 0) (inside : s.rdNext + s.rdLeft ≤ 2 ^ 64) :
    hashCommand effect s = .next (setRequest (nextRequest s) s) := by
  have within := requestLen_le_left s.cut left
  rcases issueRequest_cases s with ⟨_, e⟩ | ⟨past, _⟩
  · simpa [hashCommand, valid, plain, free, healthy, left] using e
  · omega

end Steps

/-- Both hash commands are the common protocol, each with its own effect. -/
theorem exec_hash {i : Instr} (hash : i = .hash1 ∨ i = .hash2) :
    ∃ effect : List Byte → State → State, ∀ s, exec i s = hashCommand effect s := by
  rcases hash with rfl | rfl
  · exact ⟨hash1Effect, fun _ => rfl⟩
  · exact ⟨hash2Effect, fun _ => rfl⟩

/-! ### Reading: request, wait, receipt -/

/-- From `s` to `t` only the hidden sequencing state and the record of events may differ. -/
def OnlySequencingDiffers (s t : State) : Prop :=
  ∃ (next left : Nat) (q : Option MemReq) (rsp : Option MemRsp) (data : List Byte) (failed : Bool)
    (events : List MemEvent), t = { s with
      rdNext := next, rdLeft := left, pending := q, memRsp := rsp, rdData := data,
      failed := failed, memEvents := events }

theorem sequencing_frame {s t : State} (h : OnlySequencingDiffers s t) :
    SameFlags s t ∧ WindowsKept [] s t ∧ SameOperands s t ∧ SameOutside s t := by
  obtain ⟨_, _, _, _, _, _, _, rfl⟩ := h
  exact ⟨⟨rfl, rfl, rfl, rfl, rfl, rfl⟩, by simp [WindowsKept], ⟨rfl, rfl, rfl, rfl, rfl⟩,
    ⟨rfl, rfl, fun _ => rfl, rfl, rfl, rfl, rfl, rfl⟩⟩

/-- Settles O33: the request issued is the next piece, and only the memory port changes. -/
theorem hashIssuesNextPiece : Obligations.HashIssuesNextPiece := by
  intro s i hash valid plain free healthy left inside
  obtain ⟨effect, he⟩ := exec_hash hash
  obtain ⟨flags, windows, operands, outside⟩ := sequencing_frame (t := setRequest (nextRequest s) s)
    ⟨_, _, _, _, _, _, _, rfl⟩
  refine ⟨setRequest (nextRequest s) s, nextRequest s, ?_, rfl, rfl, rfl, requestLen_pos _ left,
    requestLen_le_max _, requestLen_le_left _ left, flags,
    ⟨windows, operands, outside, rfl, rfl⟩, rfl, rfl, rfl, healthy, rfl⟩
  rw [he, hashCommand_issues valid plain free healthy left inside]

theorem awaitsMemory_of {s : State} {q : MemReq} (outstanding : s.pending = some q)
    (unanswered : s.memRsp = none) : awaitsMemory s = true := by
  simp [awaitsMemory, outstanding, unanswered]

theorem popTurn_of_nil {s : State} (empty : s.schedule = []) : popTurn s = s := by
  have same : s.schedule.tail = s.schedule := by rw [empty, List.tail_nil]
  rw [popTurn, same]

theorem nextTurn_of_nil {s : State} (empty : s.schedule = []) : nextTurn s = defaultTurn s := by
  rw [nextTurn, empty]

/-- With nothing scheduled and the default turn the core's, a step is the core's. -/
theorem step_default_core {s : State} (empty : s.schedule = [])
    (turn : defaultTurn s = .core s.cut) : step s = coreStep s := by
  rw [step_of_turn ((nextTurn_of_nil empty).trans turn), popTurn_of_nil empty]
  rfl

/-- Settles O34: the core's step leaves the state, and where nobody else moves the default turn is
the core's. -/
theorem hashWaitsForResponse : Obligations.HashWaitsForResponse := by
  intro s q i hash valid plain outstanding unanswered
  obtain ⟨effect, he⟩ := exec_hash hash
  have waits : exec i s = .next s := by
    rw [he, hashCommand_waits valid plain outstanding unanswered]
  refine ⟨waits, fun released busy word silent empty noProgram => ?_⟩
  have turn : defaultTurn s = .core s.cut := by
    simp [defaultTurn, awaitsMemory_of outstanding unanswered, silent, noProgram]
  rw [step_default_core empty turn, coreStep_legal released busy word, waits]

/-- If every address of a request holds its byte, the answer has them all (R92). -/
theorem readBytes_of_readByte {s : State} {a n : Nat} {bs : List Byte} (length : bs.length = n)
    (bytes : ∀ k < n, readByte s (a + k) = some (bs.getD k 0)) : readBytes s a n = some bs := by
  induction n generalizing a bs with
  | zero => rw [readBytes, List.length_eq_zero_iff.1 length]
  | succ n ih =>
    cases bs with
    | nil => cases length
    | cons b bs =>
      have first : readByte s a = some b := bytes 0 (by omega)
      have rest : readBytes s (a + 1) n = some bs := ih (Nat.succ.inj length) fun k hk => by
        have byte := bytes (k + 1) (by omega)
        rwa [show a + (k + 1) = a + 1 + k by omega] at byte
      simp [readBytes, first, rest]

/-- Settles O35: the receipt appends the answer's bytes and records the event. -/
theorem hashReceivesBytes : Obligations.HashReceivesBytes := by
  refine ⟨fun s q bs i hash valid plain outstanding answered => ?_, fun s a n bs =>
    ⟨fun h => ⟨readBytes_length h, fun _ hk => readBytes_getD h hk⟩,
      fun ⟨length, bytes⟩ => readBytes_of_readByte length bytes⟩⟩
  obtain ⟨effect, he⟩ := exec_hash hash
  refine ⟨receiveBytes q bs s, ?_, rfl, rfl, rfl, rfl, rfl, rfl, rfl, rfl, rfl,
    sequencing_frame ⟨_, _, _, _, _, _, _, rfl⟩⟩
  rw [he, hashCommand_receives valid plain outstanding answered]
  rfl

/-! ### What a byte of memory reads as -/

theorem readByte_of_raced {s : State} {a : Nat} (raced : a ∈ s.stored) :
    readByte s a = some (Config.racyByte s.draws a) := if_pos raced

theorem readByte_of_mapped {s : State} {a : Nat} {b : Byte} (quiet : a ∉ s.stored)
    (mapped : Memory.read s.mem a = some b) : readByte s a = some b := by
  simp [readByte, quiet, mapped]

theorem readByte_of_unmapped {s : State} {a : Nat} (quiet : a ∉ s.stored)
    (unmapped : Memory.read s.mem a = none) : readByte s a = Config.unmappedByte a := by
  simp [readByte, quiet, unmapped]

/-- Settles O36: the three kinds of address, and the one address a store touches. -/
theorem racedBytesAreFree : Obligations.RacedBytesAreFree := fun s a =>
  ⟨readByte_of_raced, fun _ => readByte_of_mapped, readByte_of_unmapped,
    fun x b busy => by
      rw [storeByte_stored, if_pos busy]
      exact mem_insertAddr.2 (.inl rfl),
    fun x b => ⟨Memory_read_write_same _ _ _, fun y other => Memory_read_write_other _ _ other⟩⟩

/-! ### Ends with an error -/

/-- Settles O37: the error response is received first, and the completion with BUS is the step after
it. -/
theorem busErrorEndsInBus : Obligations.BusErrorEndsInBus := by
  intro s i hash valid plain
  obtain ⟨effect, he⟩ := exec_hash hash
  refine ⟨fun q outstanding answered => ?_, fun free failed => ?_⟩
  · refine ⟨receiveError q s, ?_, rfl, rfl, rfl, rfl, rfl, rfl, rfl, rfl, rfl,
      sequencing_frame ⟨_, _, _, _, _, _, _, rfl⟩⟩
    rw [he, hashCommand_receives valid plain outstanding answered]
    rfl
  · refine ⟨complete .bus false (abandonWindows (zeroResults s)), ?_,
      completed_complete _ _ ⟨_, _, _, _, _, _, _, rfl⟩, rfl, ⟨rfl, rfl, rfl, rfl, rfl⟩,
      ⟨rfl, rfl, fun _ => rfl, rfl, rfl, rfl, rfl, rfl⟩, rfl, byteAt_zeros 64, byteAt_zeros 32, rfl,
      rfl, rfl, rfl⟩
    rw [he, hashCommand_failed valid plain free failed]

/-- A range meets a region where they have a byte in common. -/
theorem rangeHasSideEffects_of_mem {s : State} {g : Region} {a : Nat} (member : g ∈ s.sideEffects)
    (region : g.base ≤ a ∧ a < g.base + g.size)
    (range : rangeBase s ≤ a ∧ a < rangeBase s + s.msgLen.toNat) :
    rangeHasSideEffects s = true := by
  refine List.any_eq_true.2 ⟨g, member, decide_eq_true ?_⟩
  omega

/-- Settles O40: the check for side effects comes before any request. -/
theorem sideEffectMemoryIsRefused : Obligations.SideEffectMemoryIsRefused := by
  intro s g a i hash valid member low high low' high'
  obtain ⟨effect, he⟩ := exec_hash hash
  rw [he, hashCommand_sideEffects valid
    (rangeHasSideEffects_of_mem member ⟨low, high⟩ ⟨low', high'⟩)]

/-- Settles O44: a hash command completes with RANGE, with BUS, or with VALID; its other steps leave
DONE as it was. -/
theorem noPartialHashResult : Obligations.NoPartialHashResult := by
  intro s t i hash undone next done
  obtain ⟨effect, he⟩ := exec_hash hash
  rw [he] at next
  have unfinished : s.done ≠ true := by simp [undone]
  rcases hashCommand_cases effect s with ⟨_, e⟩ | ⟨_, _, e⟩ |
    ⟨_, _, ⟨q, rsp, _, _, e⟩ | ⟨_, _, _, e⟩ | ⟨_, _, e⟩ | ⟨_, _, _, e⟩ | ⟨_, _, _, e⟩⟩ <;>
    rw [e] at next
  · cases next
    exact .inr ⟨nofun, rfl, byteAt_zeros 64, byteAt_zeros 32⟩
  · cases next
  · cases next
    cases rsp <;> exact absurd done unfinished
  · cases next
    exact absurd done unfinished
  · cases next
    exact .inr ⟨nofun, rfl, byteAt_zeros 64, byteAt_zeros 32⟩
  · cases next
    exact .inl ⟨rfl, rfl⟩
  · rcases issueRequest_cases s with ⟨_, e⟩ | ⟨_, e⟩ <;> rw [e] at next <;> cases next
    exact absurd done unfinished

end Sys2Proof.Machine
end

section
/-! The completion of HASH1 and HASH2 (41_compression_and_chaining.md R196 to R199; 42_pipeline.md
R244, R246, R247): the blocks absorbed are those of the padded message, and the second pass is one
block. -/

namespace Sys2Proof.Machine

/-! ### The absorbed blocks -/

/-- The chaining value after every block of the padded message (R196). -/
def chainValue (msg : List Byte) : Block :=
  (List.range (nblocks msg.length)).foldl (fun h k => compress h (blockOf (pad msg) k)) iv512

theorem groestl512_eq (msg : List Byte) : groestl512 msg = outputTransform (chainValue msg) := rfl

theorem absorbBlocks_hreg (msg : List Byte) (count k : Nat) (s : State) :
    (absorbBlocks msg count k s).hreg
      = (List.range' k count).foldl (fun h j => compress h (loadBlock msg j)) s.hreg := by
  induction count generalizing k s with
  | zero => rfl
  | succ n ih =>
    rw [absorbBlocks, ih, List.range'_succ, List.foldl_cons]
    rfl

/-- The last block absorbed stays in MREG, and Q of it in QST (R244). -/
theorem absorbBlocks_last (msg : List Byte) (n k : Nat) (s : State) :
    (absorbBlocks msg (n + 1) k s).mreg = loadBlock msg (k + n)
      ∧ (absorbBlocks msg (n + 1) k s).qst = permQ (loadBlock msg (k + n)) := by
  induction n generalizing k s with
  | zero => exact ⟨rfl, rfl⟩
  | succ n ih =>
    rw [absorbBlocks, show k + (n + 1) = k + 1 + n by omega]
    exact ih (k + 1) _

theorem absorbBlocks_draws (msg : List Byte) (count k : Nat) (s : State) :
    (absorbBlocks msg count k s).draws = s.draws := by
  induction count generalizing k s with
  | zero => rfl
  | succ n ih =>
    rw [absorbBlocks, ih]
    rfl

theorem nblocks_pos (L : Nat) : 0 < nblocks L := by
  unfold nblocks
  omega

/-! ### A pass over the message (R244) -/

theorem passFromMemory_hreg (msg : List Byte) (s : State) :
    (passFromMemory msg s).hreg = chainValue msg := by
  rw [passFromMemory, omegaEffect_hreg, absorbBlocks_hreg, initEffect_hreg, chainValue,
    List.range_eq_range']
  refine List.foldl_ext _ _ _ fun h k hk => ?_
  rw [loadBlock_eq_blockOf_pad msg (by simpa using hk)]

theorem passFromMemory_pst (msg : List Byte) (s : State) :
    (passFromMemory msg s).pst = permP (passFromMemory msg s).hreg := rfl

theorem passFromMemory_hout (msg : List Byte) (s : State) :
    (passFromMemory msg s).hout = groestl512 msg := by
  rw [groestl512_eq, ← passFromMemory_hreg msg s]
  exact omegaEffect_hout_eq _

theorem passFromMemory_last (msg : List Byte) (s : State) :
    (passFromMemory msg s).mreg = blockOf (pad msg) (nblocks msg.length - 1)
      ∧ (passFromMemory msg s).qst = permQ (passFromMemory msg s).mreg := by
  have positive := nblocks_pos msg.length
  have last := absorbBlocks_last msg (nblocks msg.length - 1) 0 (initEffect s)
  rw [Nat.sub_add_cancel positive, Nat.zero_add,
    loadBlock_eq_blockOf_pad msg (by omega)] at last
  obtain ⟨mreg, qst⟩ := last
  exact ⟨mreg, qst.trans (congrArg permQ mreg.symm)⟩

theorem passFromMemory_draws (msg : List Byte) (s : State) :
    (passFromMemory msg s).draws = s.draws :=
  absorbBlocks_draws msg _ 0 (initEffect s)

/-- The hash of a 64-byte string absorbs its chaining block, and no other (R197). -/
theorem groestl512_toList (h : Bytes 64) :
    groestl512 h.toList = outputTransform (compress iv512 (chainBlock h)) := by
  have oneBlock : nblocks h.toList.length = 1 := by rw [length_toList, nblocks_sixtyFour]
  rw [groestl512_eq, chainValue, chainBlock_eq_loadBlock,
    loadBlock_eq_blockOf_pad _ (by rw [oneBlock]; decide), oneBlock]
  rfl

/-! ### The end states -/

theorem hash2Effect_hreg (msg : List Byte) (s : State) :
    (hash2Effect msg s).hreg = compress iv512 (chainBlock (groestl512 msg)) := by
  rw [hash2Effect, truncEffect_hreg, omegaEffect_hreg, compEffect_hreg_eq, initEffect_hreg,
    initEffect_mreg, chainEffect_mreg, passFromMemory_hout]

theorem hash2Effect_mreg (msg : List Byte) (s : State) :
    (hash2Effect msg s).mreg = chainBlock (groestl512 msg) := by
  rw [hash2Effect, truncEffect_mreg, omegaEffect_mreg, compEffect_mreg, initEffect_mreg,
    chainEffect_mreg, passFromMemory_hout]

theorem hash2Effect_pst (msg : List Byte) (s : State) :
    (hash2Effect msg s).pst = permP (hash2Effect msg s).hreg := by
  rw [hash2Effect, truncEffect_pst, truncEffect_hreg, omegaEffect_pst, omegaEffect_hreg]

theorem hash2Effect_qst (msg : List Byte) (s : State) :
    (hash2Effect msg s).qst = permQ (chainBlock (groestl512 msg)) := by
  rw [hash2Effect, truncEffect_qst, omegaEffect_qst, compEffect_qst, initEffect_mreg,
    chainEffect_mreg, passFromMemory_hout]

theorem hash2Effect_hout (msg : List Byte) (s : State) :
    (hash2Effect msg s).hout = groestl512 (groestl512 msg).toList := by
  rw [groestl512_toList, ← hash2Effect_hreg msg s, hash2Effect, truncEffect_hout,
    omegaEffect_hout_eq, truncEffect_hreg, omegaEffect_hreg]

theorem hash2Effect_digest (msg : List Byte) (s : State) :
    (hash2Effect msg s).digest = doubleHash msg := by
  rw [doubleHash, ← hash2Effect_hout msg s, hash2Effect, truncEffect_digest, truncEffect_hout]

theorem hash2Effect_draws (msg : List Byte) (s : State) : (hash2Effect msg s).draws = s.draws := by
  rw [hash2Effect, truncEffect_draws, omegaEffect_draws, compEffect_draws, initEffect_draws,
    chainEffect_draws, passFromMemory_draws]

/-- HASH1 is one pass; only DIGEST is written besides (R247). -/
theorem hash1Effect_eq (msg : List Byte) (s : State) :
    hash1Effect msg s = { passFromMemory msg s with digest := zeros 32 } := rfl

/-- A completion that writes windows and draws nothing leaves operands, surroundings, events and the
count of free values. -/
theorem completion_frame (e : ErrCode) (v : Bool) {s u : State} (writes : OnlyWindowsDiffer s u)
    (draws : u.draws = s.draws) :
    SameOperands s (complete e v u) ∧ SameOutside s (complete e v u)
      ∧ (complete e v u).draws = s.draws ∧ (complete e v u).memEvents = s.memEvents := by
  have frame := commandFrame_complete e v (but := [.digest, .hout, .hreg, .mreg, .pst, .qst]) writes
    draws (by simp [WindowsKept])
  exact ⟨frame.operands, frame.outside, frame.draws, frame.memEvents⟩

/-- Settles O38: the writes of HASH2 are two passes, the second over one block. -/
theorem hash2CompletesWithDoubleHash : Obligations.Hash2CompletesWithDoubleHash := by
  intro s valid plain free healthy read
  have writes := hash2Effect_onlyWindows s.rdData s
  obtain ⟨operands, outside, draws, events⟩ :=
    completion_frame .none true writes (hash2Effect_draws s.rdData s)
  refine ⟨_, hashCommand_completes valid plain free healthy read, completed_complete _ _ writes,
    operands, outside, draws, events, ?_, ?_, ?_, ?_, ?_, ?_⟩
  · rw [complete_hout, hash2Effect_hout]
  · rw [complete_digest, hash2Effect_digest]
  · rw [complete_mreg, hash2Effect_mreg]
  · rw [complete_hreg, hash2Effect_hreg]
  · rw [complete_pst, complete_hreg, hash2Effect_pst]
  · rw [complete_qst, hash2Effect_qst]

/-- Settles O39: the writes of HASH1 are one pass, and DIGEST zeroed. -/
theorem hash1CompletesWithSinglePass : Obligations.Hash1CompletesWithSinglePass := by
  intro s valid plain free healthy read
  have writes := hash1Effect_onlyWindows s.rdData s
  obtain ⟨operands, outside, draws, events⟩ :=
    completion_frame .none true writes (passFromMemory_draws s.rdData s)
  obtain ⟨mreg, qst⟩ := passFromMemory_last s.rdData s
  refine ⟨_, hashCommand_completes valid plain free healthy read, completed_complete _ _ writes,
    operands, outside, draws, events, ?_, byteAt_zeros 32, ?_, ?_, ?_, ?_⟩ <;> rw [hash1Effect_eq]
  · rw [complete_hout, passFromMemory_hout]
  · rw [complete_mreg, mreg]
  · rw [complete_hreg, passFromMemory_hreg, chainValue]
  · rw [complete_pst, complete_hreg, passFromMemory_pst]
  · rw [complete_qst, complete_mreg, qst]

end Sys2Proof.Machine
end

section
/-! A hash command's whole run under the default turns (20_memory.md R93, R99; 42_pipeline.md R240,
R248, R250; 70_reset_and_hazards.md R353): three steps read the next piece, and one completes. -/

namespace Sys2Proof.Machine

/-- An idle core, nothing scheduled, a memory system that answers, and a valid range over memory
that holds the message and has no read side effects. -/
structure Ready (s : State) (msg : List Byte) : Prop where
  released : s.inReset = false
  idle : s.busy = false
  unscheduled : s.schedule = []
  answers : s.memAnswers = true
  valid : rangeOk s = true
  plain : rangeHasSideEffects s = false
  length : msg.length = s.msgLen.toNat
  bytes : ∀ p < msg.length, Memory.read s.mem (rangeBase s + p) = some (msg.getD p 0)

/-- The accepted command word `w` with the first `n` bytes of the message read. -/
def reading (w : Word) (s : State) (msg : List Byte) (n : Nat) (events : List MemEvent)
    (draws : Nat) : State :=
  { accept w s with
    rdNext := rangeBase s + n
    rdLeft := msg.length - n
    rdData := msg.take n
    memEvents := events
    draws := draws }

/-- A hash command, the word it is issued with, and what it writes from the message. -/
structure HashCommand (w : Word) (effect : List Byte → State → State) : Prop where
  word : ∃ i, decode w = .legal i ∧ readsMemory i = true ∧ ∀ s, exec i s = hashCommand effect s
  writes : ∀ msg s, OnlyWindowsDiffer s (effect msg s)

theorem hashCommand_hash2 : HashCommand (encode .hash2) hash2Effect :=
  ⟨⟨.hash2, decodeOfEncode .hash2 rfl, rfl, fun _ => rfl⟩, hash2Effect_onlyWindows⟩

theorem hashCommand_hash1 : HashCommand (encode .hash1) hash1Effect :=
  ⟨⟨.hash1, decodeOfEncode .hash1 rfl, rfl, fun _ => rfl⟩, hash1Effect_onlyWindows⟩

section Run

variable {w : Word} {effect : List Byte → State → State} {s : State} {msg : List Byte}

/-- An accepted hash command has read nothing, and stands at the start of its range (R57, R100). -/
theorem accept_eq_reading (cmd : HashCommand w effect) (h : Ready s msg) :
    accept w s = reading w s msg 0 s.memEvents s.draws := by
  obtain ⟨i, word, reads, -⟩ := cmd.word
  have will : willRead w s = true := by simp [willRead, word, reads, h.valid]
  rw [reading, h.length, accept, will]
  rfl

/-- The core's turn comes by default while a command runs and awaits no answer. -/
theorem step_running (cmd : HashCommand w effect) {u : State} (word : u.cmd = w)
    (released : u.inReset = false) (busy : u.busy = true) (unscheduled : u.schedule = [])
    (moves : awaitsMemory u = false) : step u = hashCommand effect u := by
  obtain ⟨i, legal, -, runs⟩ := cmd.word
  have turn : defaultTurn u = .core u.cut := by simp [defaultTurn, moves, busy]
  rw [step_default_core unscheduled turn, coreStep_legal released busy (word ▸ legal), runs]

/-- The memory system's turn comes by default while its answer is awaited (R92). -/
theorem step_answering {u : State} {q : MemReq} (released : u.inReset = false)
    (unscheduled : u.schedule = []) (answers : u.memAnswers = true)
    (outstanding : u.pending = some q) (unanswered : u.memRsp = none) :
    step u = .next (countDraw (setMemRsp (memAnswer .data q u) u)) := by
  have turn : defaultTurn u = .memory .data := by
    simp [defaultTurn, awaitsMemory_of outstanding unanswered, answers]
  rw [step_of_turn ((nextTurn_of_nil unscheduled).trans turn), popTurn_of_nil unscheduled, runTurn,
    memoryTurn_answers released outstanding unanswered]

theorem steps_cons {u v : State} {k : Nat} (h : step u = .next v) :
    steps (k + 1) u = steps k v := by
  rw [steps, h, andThen]

/-- The answer to a request for the next `len` bytes is those bytes of the message. -/
theorem readBytes_reading (h : Ready s msg) {n len : Nat} (within : len ≤ msg.length - n)
    {u : State} (memory : u.mem = s.mem) (quiet : u.stored = []) :
    readBytes u (rangeBase s + n) len = some ((msg.drop n).take len) := by
  refine readBytes_of_readByte (by simp [within]) fun k hk => ?_
  refine readByte_of_mapped (by simp [quiet]) ?_
  rw [memory, Nat.add_assoc, h.bytes (n + k) (by omega)]
  simp [List.getD_eq_getElem?_getD, hk]

/-- Three steps read the next piece of the range: the request, the answer, the receipt (R93). -/
theorem steps_read_piece (cmd : HashCommand w effect) (h : Ready s msg) {n : Nat}
    (left : n < msg.length) (events : List MemEvent) (draws : Nat) :
    ∃ n' events' draws', n < n' ∧ n' ≤ msg.length ∧ ∀ k,
      steps (k + 3) (reading w s msg n events draws)
        = steps k (reading w s msg n' events' draws') := by
  have some_left : msg.length - n ≠ 0 := by omega
  set len := requestLen s.cut (msg.length - n)
  have positive : 1 ≤ len := requestLen_pos _ some_left
  have within : len ≤ msg.length - n := requestLen_le_left _ some_left
  have inside : rangeBase s + n + (msg.length - n) ≤ 2 ^ 64 := by
    obtain ⟨-, -, -, fits⟩ := (rangeOk_iff s).1 h.valid
    have length := h.length
    rw [rangeBase]
    omega
  set q : MemReq := { addr := rangeBase s + n, len := len }
  set u := reading w s msg n events draws
  have request : step u = .next (setRequest q u) := by
    rw [step_running cmd (u := u) rfl h.released rfl h.unscheduled rfl]
    exact hashCommand_issues (s := u) h.valid h.plain rfl rfl some_left inside
  have bytes := readBytes_reading h within (u := setRequest q u) rfl rfl
  set v := countDraw (setMemRsp (.ok ((msg.drop n).take len)) (setRequest q u))
  have answer : step (setRequest q u) = .next v := by
    rw [step_answering (u := setRequest q u) h.released h.unscheduled h.answers rfl rfl,
      memAnswer_bytes bytes]
  have receipt : step v = .next (reading w s msg (n + len)
          (events ++ [{ req := q, answer := .ok ((msg.drop n).take len) }]) (draws + 1)) := by
    rw [step_running cmd (u := v) rfl h.released rfl h.unscheduled rfl,
      hashCommand_receives (s := v) h.valid h.plain rfl rfl, reading, List.take_add,
      ← Nat.sub_sub, ← Nat.add_assoc]
    rfl
  exact ⟨n + len, _, _, by omega, by omega, fun _ =>
    (steps_cons request).trans ((steps_cons answer).trans (steps_cons receipt))⟩

/-- With every byte read the next step is the completion. -/
theorem step_completes (cmd : HashCommand w effect) (h : Ready s msg) (events : List MemEvent)
    (draws : Nat) :
    step (reading w s msg msg.length events draws)
      = .next (complete .none true (effect msg (reading w s msg msg.length events draws))) := by
  rw [step_running cmd (u := reading ..) rfl h.released rfl h.unscheduled rfl,
    hashCommand_completes (s := reading ..) h.valid h.plain rfl rfl (Nat.sub_self _)]
  simp [reading]

/-- From any place in the message the run completes, three steps a byte and one more at the most
(R353). -/
theorem steps_complete (cmd : HashCommand w effect) (h : Ready s msg) (n : Nat)
    (place : n ≤ msg.length) (events : List MemEvent) (draws : Nat) :
    ∃ k events' draws', k ≤ 3 * (msg.length - n) + 1 ∧
      steps k (reading w s msg n events draws) = .next
        (complete .none true (effect msg (reading w s msg msg.length events' draws'))) := by
  rcases Nat.lt_or_eq_of_le place with left | rfl
  · obtain ⟨n', ev, d, further, place', piece⟩ := steps_read_piece cmd h left events draws
    obtain ⟨k, ev', d', bound, run⟩ := steps_complete cmd h n' place' ev d
    exact ⟨k + 3, ev', d', by omega, (piece k).trans run⟩
  · exact ⟨1, events, draws, by omega, steps_cons (step_completes cmd h events draws)⟩
termination_by msg.length - n

/-- The whole run: the command's effect on the message, completed without error, and memory as it
was. -/
theorem run_of_ready (cmd : HashCommand w effect) (h : Ready s msg) :
    ∃ k u, k ≤ 3 * msg.length + 1 ∧
      steps k (accept w s) = .next (complete .none true (effect msg u)) ∧
      Completed .none true s (complete .none true (effect msg u)) ∧
      ∀ a, Memory.read (effect msg u).mem a = Memory.read s.mem a := by
  rw [accept_eq_reading cmd h]
  obtain ⟨k, events, draws, bound, run⟩ :=
    steps_complete cmd h 0 (Nat.zero_le _) s.memEvents s.draws
  refine ⟨k, _, bound, run, ?_, fun a => ?_⟩
  · have writes := cmd.writes msg (reading w s msg msg.length events draws)
    exact { completed_complete .none true writes with
      wbusy := (completed_complete .none true writes).wbusy
      ie := (completed_complete .none true writes).ie }
  · rw [(cmd.writes msg _).mem_eq]
    rfl

end Run

/-! ### The statements -/

/-- Settles O41: HASH2's effect on the message is the double hash. -/
theorem hash2RunsToItsDigest : Obligations.Hash2RunsToItsDigest := by
  intro s msg released idle unscheduled answers valid plain length bytes
  obtain ⟨k, u, bound, run, completed, memory⟩ := run_of_ready hashCommand_hash2
    ⟨released, idle, unscheduled, answers, valid, plain, length, bytes⟩
  exact ⟨k, _, bound, run, completed, hash2Effect_digest msg u, hash2Effect_hout msg u, memory⟩

/-- Settles O42: HASH1's effect on the message is the single-pass hash. -/
theorem hash1RunsToItsHash : Obligations.Hash1RunsToItsHash := by
  intro s msg released idle unscheduled answers valid plain length bytes
  obtain ⟨k, u, bound, run, completed, memory⟩ := run_of_ready hashCommand_hash1
    ⟨released, idle, unscheduled, answers, valid, plain, length, bytes⟩
  exact ⟨k, _, bound, run, completed, passFromMemory_hout msg u, byteAt_zeros 32, memory⟩

/-- Settles O43: both runs end with the double hash of the same message. -/
theorem subrangeHashEqualsCopy : Obligations.SubrangeHashEqualsCopy := by
  intro s c msg released idle unscheduled answers valid plain released' idle' unscheduled' answers'
    valid' plain' length length' start _ bytes bytes'
  have base : rangeBase c = c.srcAddr.toNat := by rw [rangeBase, start]; rfl
  obtain ⟨k, u, -, run, completed, -⟩ := run_of_ready hashCommand_hash2
    ⟨released, idle, unscheduled, answers, valid, plain, length, bytes⟩
  obtain ⟨l, v, -, run', completed', -⟩ := run_of_ready (msg := msg) hashCommand_hash2
    ⟨released', idle', unscheduled', answers', valid', plain', length.trans (by rw [length']),
      by rwa [base]⟩
  refine ⟨k, l, _, _, run, run', completed.done, completed'.done, completed.valid, completed'.valid,
    ?_⟩
  rw [complete_digest, complete_digest, hash2Effect_digest, hash2Effect_digest]

end Sys2Proof.Machine
end

section
/-! More of the register port (10_state.md R54 to R56, R59; 20_memory.md R100), and reset
(70_reset_and_hazards.md R340 to R342). -/

namespace Sys2Proof.Machine

/-! ### Words of windows -/

/-- The registers that are words of windows (R54). -/
def Reg.isWindow : Reg → Bool
  | .digest _ | .hout _ | .hreg _ | .mreg _ | .pst _ | .qst _ => true
  | .id | .version | .ctrl | .status | .cmd | .srcAddrLo | .srcAddrHi | .bufLenLo | .bufLenHi
  | .offsetLo | .offsetHi | .lengthLo | .lengthHi | .reserved => false

theorem byteLane_wordOfBytes (b0 b1 b2 b3 : Byte) {j : Nat} (hj : j < 4) :
    byteLane (wordOfBytes b0 b1 b2 b3) j = [b0, b1, b2, b3].getD j 0 := by
  unfold byteLane wordOfBytes
  interval_cases j
  · exact BitVec.extractLsb'_append_eq_right
  · rw [BitVec.extractLsb'_append_eq_of_le (by decide)]
    exact BitVec.extractLsb'_append_eq_right
  · rw [BitVec.extractLsb'_append_eq_of_le (by decide),
      BitVec.extractLsb'_append_eq_of_le (by decide)]
    exact BitVec.extractLsb'_append_eq_right
  · rw [BitVec.extractLsb'_append_eq_of_le (by decide),
      BitVec.extractLsb'_append_eq_of_le (by decide), BitVec.extractLsb'_append_eq_of_le (by decide)]
    exact BitVec.extractLsb'_eq_self

/-- A word's lanes are its bytes of the window, the first in bits 7:0 (R54). -/
theorem byteLane_wordAt {n : Nat} (v : Bytes n) (w : Nat) {j : Nat} (hj : j < 4) :
    byteLane (wordAt v w) j = byteAt v (4 * w + j) := by
  rw [wordAt, byteLane_wordOfBytes _ _ _ _ hj]
  interval_cases j <;> rfl

theorem isWindow_regAt {off : Nat} (ha : off % 4 = 0)
    (h : (0x040 ≤ off ∧ off < 0x060) ∨ (0x080 ≤ off ∧ off < 0x0C0)
      ∨ (0x100 ≤ off ∧ off < 0x300)) : (regAt off).isWindow = true := by
  have place := regAt_standsAt ha
  cases hr : regAt off <;> rw [hr] at place <;> simp only [Reg.StandsAt] at place
  case digest | hout | hreg | mreg | pst | qst => rfl
  all_goals omega

/-- While BUSY = 1 a window word reads as a free value, and one is drawn (R59). -/
theorem readReg_window_busy {r : Reg} (hr : r.isWindow = true) {s : State} (busy : s.busy = true) :
    readReg r s = (Config.busyWindowRead s.draws, countDraw s) := by
  cases r
  case digest | hout | hreg | mreg | pst | qst => exact readWindow_busy _ busy
  all_goals cases hr

/-- Byte `j` of the window word at an offset, by the map's six ranges (R32, R54). -/
theorem byteLane_window {off : Nat} (s : State) (ha : off % 4 = 0)
    (h : (0x040 ≤ off ∧ off < 0x060) ∨ (0x080 ≤ off ∧ off < 0x0C0)
      ∨ (0x100 ≤ off ∧ off < 0x300)) {j : Nat} (hj : j < 4) :
    byteLane ((regAt off).value s) j =
      if off < 0x080 then byteAt s.digest (off - 0x040 + j)
      else if off < 0x100 then byteAt s.hout (off - 0x080 + j)
      else if off < 0x180 then byteAt s.hreg (off - 0x100 + j)
      else if off < 0x200 then byteAt s.mreg (off - 0x180 + j)
      else if off < 0x280 then byteAt s.pst (off - 0x200 + j)
      else byteAt s.qst (off - 0x280 + j) := by
  have window := isWindow_regAt ha h
  have place := regAt_standsAt ha
  cases hr : regAt off <;> rw [hr] at place window
  case digest w | hout w | hreg w | mreg w | pst w | qst w =>
    obtain ⟨hw, rfl⟩ := place
    rw [Reg.value, byteLane_wordAt _ _ hj]
    simp only [Nat.add_sub_cancel_left]
    repeat rw [if_neg (by omega)]
    try rw [if_pos (by omega)]
  all_goals cases window

/-- Settles O52: the offset names a word of a window. -/
theorem windowReads : Obligations.WindowReads := by
  intro s off ha place
  refine ⟨fun busy => ?_, fun idle => ?_⟩
  · rw [readRequest, access_read ha, readReg_window_busy (isWindow_regAt ha place) busy]
    rfl
  · rw [access_readRequest_idle ha idle]
    exact ⟨rfl, rfl, fun j hj => byteLane_window s ha place hj⟩

/-! ### Writes that are ignored, and the write that accepts -/

/-- Settles O55: the offsets named are read-only or reserved. -/
theorem readOnlyAndReservedWritesIgnored : Obligations.ReadOnlyAndReservedWritesIgnored := by
  intro s off v ha outside
  have place := regAt_standsAt ha
  rw [access_writeRequest ha]
  have gap : off = 0x014 ↔ off.toNat = 0x014 := BitVec.toNat_inj.symm
  rw [gap] at outside
  cases hr : regAt off.toNat <;> rw [hr] at place
  case id | version | digest | hout | reserved => rfl
  all_goals
    simp only [Reg.StandsAt] at place
    omega

/-- Settles O58: the write of CMD is the acceptance. -/
theorem cmdWriteAccepts : Obligations.CmdWriteAccepts := by
  intro s w idle
  have write : access (writeRequest 0x010 w) s = ({ rdata := 0, err := false }, accept w s) := by
    rw [access_writeRequest rfl]
    exact congrArg _ (writeIfIdle_idle _ idle)
  refine ⟨accept w s, write, rfl, rfl, rfl, rfl, rfl, rfl, rfl, rfl, rfl, rfl, rfl, rfl, rfl, rfl,
    by simp [WindowsKept], ⟨rfl, rfl, fun _ => rfl, rfl, rfl, rfl, rfl, rfl⟩, rfl, rfl, rfl,
    fun hash valid => ?_⟩
  have will : willRead w s = true := by
    rcases hash with word | word <;> simp [willRead, word, readsMemory, valid]
  rw [accept_rdNext, accept_rdLeft, will]
  exact ⟨rfl, rfl⟩

/-! ### Reset -/

theorem irq_held {s : State} (held : s.inReset = true) : irq s = false := by
  rw [irq, held]
  rfl

/-- Settles O60: a low level and a release are the reset of the core; while it is held nothing
moves. -/
theorem resetLeavesResetValues : Obligations.ResetLeavesResetValues := by
  refine fun s => ⟨?_, fun held => ?_, driveReset_released⟩
  · rw [driveReset_of_event (.inl rfl)]
    exact ⟨atReset_resetCore false s, rfl, fun _ => rfl⟩
  · rw [driveReset_of_event (.inr held)]
    exact ⟨atReset_resetCore true s, rfl, fun _ => rfl, irq_held held, hostTurn_held held,
      programTurn_held held, coreStep_held held, memoryTurn_held held⟩

end Sys2Proof.Machine
end

section
/-! The algebra of the permutation (40_permutation_core.md R140, R148): GF(2^8), the S-box and its
inverse, MixBytes as a matrix with an inverse, and every step, every round, P and Q as
bijections. -/

namespace Sys2Proof.Machine

/-! ### GF(2^8) (00_scope.md R19) -/

theorem gmulLoop_xor (n : Nat) (a a' b r r' : Byte) :
    gmulLoop n (a ^^^ a') b (r ^^^ r') = gmulLoop n a b r ^^^ gmulLoop n a' b r' := by
  induction n generalizing a a' b r r' with
  | zero => rfl
  | succ n ih =>
    rw [gmulLoop, gmulLoop, gmulLoop, ← ih, xtime_xor]
    split_ifs
    · congr 1
      ac_rfl
    · rfl

theorem gmulLoop_xor_right (n : Nat) (a b b' r r' : Byte) :
    gmulLoop n a (b ^^^ b') (r ^^^ r') = gmulLoop n a b r ^^^ gmulLoop n a b' r' := by
  induction n generalizing a b b' r r' with
  | zero => rfl
  | succ n ih =>
    have twice : r ^^^ a ^^^ (r' ^^^ a) = r ^^^ r' := by
      rw [show r ^^^ a ^^^ (r' ^^^ a) = r ^^^ r' ^^^ (a ^^^ a) by ac_rfl, BitVec.xor_self,
        BitVec.xor_zero]
    rw [gmulLoop, gmulLoop, gmulLoop, ← ih, BitVec.ushiftRight_xor_distrib, BitVec.getLsbD_xor]
    congr 1
    cases b.getLsbD 0 <;> cases b'.getLsbD 0
    case false.false => rfl
    case false.true => exact BitVec.xor_assoc r r' a
    case true.false =>
      show r ^^^ r' ^^^ a = r ^^^ a ^^^ r'
      ac_rfl
    case true.true => exact twice.symm

theorem gmulLoop_xtime (n : Nat) (a b r : Byte) :
    gmulLoop n (xtime a) b (xtime r) = xtime (gmulLoop n a b r) := by
  induction n generalizing a b r with
  | zero => rfl
  | succ n ih =>
    rw [gmulLoop, gmulLoop, ← ih]
    split_ifs
    · rw [xtime_xor]
    · rfl

/-- The product is linear in the first factor. -/
theorem gmul_xor_left (a a' b : Byte) : gmul (a ^^^ a') b = gmul a b ^^^ gmul a' b :=
  gmulLoop_xor 8 a a' b 0 0

/-- The product is linear in the second factor. -/
theorem gmul_xor_right (a b b' : Byte) : gmul a (b ^^^ b') = gmul a b ^^^ gmul a b' :=
  gmulLoop_xor_right 8 a b b' 0 0

theorem gmul_xtime_left (a b : Byte) : gmul (xtime a) b = xtime (gmul a b) :=
  gmulLoop_xtime 8 a b 0

theorem gmul_zero (a : Byte) : gmul a 0 = 0 := by
  have h := gmul_xor_right a 0 0
  rwa [BitVec.xor_self, BitVec.xor_self] at h

theorem zero_gmul (b : Byte) : gmul 0 b = 0 := by
  have h := gmul_xor_left 0 0 b
  rwa [BitVec.xor_self, BitVec.xor_self] at h

theorem one_gmul (b : Byte) : gmul 1 b = b := by revert b; decide +kernel

theorem gmul_one (a : Byte) : gmul a 1 = a := by revert a; decide +kernel

/-- The product's loop sums multiples of `a` by powers of `x`, so two maps that respect sums and
`xtime` and agree at `a` and `r` agree at its result. -/
theorem eq_at_gmulLoop {f g : Byte → Byte} (fx : ∀ a b, f (a ^^^ b) = f a ^^^ f b)
    (gx : ∀ a b, g (a ^^^ b) = g a ^^^ g b) (ft : ∀ a, f (xtime a) = xtime (f a))
    (gt : ∀ a, g (xtime a) = xtime (g a)) (n : Nat) (a b r : Byte) (ha : f a = g a)
    (hr : f r = g r) : f (gmulLoop n a b r) = g (gmulLoop n a b r) := by
  induction n generalizing a b r with
  | zero => exact hr
  | succ n ih =>
    refine ih _ _ _ (by rw [ft, gt, ha]) ?_
    split_ifs
    · rw [fx, gx, hr, ha]
    · exact hr

/-- The product is associative: both sides respect sums and `xtime` in `a`, and agree at 1. -/
theorem gmul_assoc (a b c : Byte) : gmul (gmul a b) c = gmul a (gmul b c) := by
  have at_one : gmul (gmul 1 b) c = gmul 1 (gmul b c) := by rw [one_gmul, one_gmul]
  have at_zero : gmul (gmul 0 b) c = gmul 0 (gmul b c) := by rw [zero_gmul, zero_gmul, zero_gmul]
  have agree := eq_at_gmulLoop (f := fun x => gmul (gmul x b) c) (g := fun x => gmul x (gmul b c))
    (fun x y => by rw [gmul_xor_left, gmul_xor_left]) (fun x y => gmul_xor_left x y _)
    (fun x => by rw [gmul_xtime_left, gmul_xtime_left]) (fun x => gmul_xtime_left x _)
    8 1 a 0 at_one at_zero
  have whole : gmulLoop 8 1 a 0 = a := one_gmul a
  rwa [whole] at agree

/-! ### The S-box -/

/-- The affine map of R140. -/
def sboxAffine (b : Byte) : Byte :=
  b ^^^ b.rotateLeft 1 ^^^ b.rotateLeft 2 ^^^ b.rotateLeft 3 ^^^ b.rotateLeft 4 ^^^ 0x63

/-- The inverse of the affine map. -/
def sboxAffineInverse (y : Byte) : Byte :=
  y.rotateLeft 1 ^^^ y.rotateLeft 3 ^^^ y.rotateLeft 6 ^^^ 0x05

/-- What the affine map turns into the S-box: the inverse in GF(2^8), or 0 for 0 (R140). -/
def gfInverse (x : Byte) : Byte := sboxAffineInverse (sbox x)

theorem sboxAffine_sboxAffineInverse : ∀ y : Byte, sboxAffine (sboxAffineInverse y) = y := by
  decide +kernel

theorem sbox_eq (x : Byte) : sbox x = sboxAffine (gfInverse x) :=
  (sboxAffine_sboxAffineInverse (sbox x)).symm

theorem gmul_gfInverse : ∀ x : Byte, x ≠ 0 → gmul x (gfInverse x) = 1 := by decide +kernel

theorem gfInverse_zero : gfInverse 0 = 0 := by decide

/-- The inverse of the inverse: `x = x (y z) = (x y) z = z` for `y` the inverse of `x` and `z` that
of `y`. -/
theorem gfInverse_gfInverse (x : Byte) : gfInverse (gfInverse x) = x := by
  by_cases hx : x = 0
  · rw [hx, gfInverse_zero, gfInverse_zero]
  · have hy : gfInverse x ≠ 0 := fun zero => by
      have product := gmul_gfInverse x hx
      rw [zero, gmul_zero] at product
      cases product
    have z := one_gmul (gfInverse (gfInverse x))
    rw [← gmul_gfInverse x hx, gmul_assoc, gmul_gfInverse _ hy, gmul_one] at z
    exact z.symm

/-- Settles O10: the byte is the inverse of `x`. -/
theorem sboxIsInverseThenAffine : Obligations.SboxIsInverseThenAffine := fun x =>
  ⟨gfInverse x, fun zero => by rw [zero, gfInverse_zero], gmul_gfInverse x, sbox_eq x⟩

theorem sbox_bijective : Function.Bijective sbox := by
  have left : ∀ x, gfInverse (sboxAffineInverse (sbox x)) = x := gfInverse_gfInverse
  have right : ∀ y, sbox (gfInverse (sboxAffineInverse y)) = y := fun y => by
    rw [sbox_eq, gfInverse_gfInverse, sboxAffine_sboxAffineInverse]
  exact Function.bijective_iff_has_inverse.2 ⟨fun y => gfInverse (sboxAffineInverse y), left, right⟩

/-! ### Sums of bytes -/

/-- The sum in GF(2^8) of `f 0`, …, `f (n - 1)`. -/
def xorSum (f : Nat → Byte) : Nat → Byte
  | 0 => 0
  | n + 1 => xorSum f n ^^^ f n

theorem xorSum_congr {f g : Nat → Byte} {n : Nat} (h : ∀ k < n, f k = g k) :
    xorSum f n = xorSum g n := by
  induction n with
  | zero => rfl
  | succ n ih => rw [xorSum, xorSum, ih fun k hk => h k (by omega), h n (by omega)]

theorem xorSum_zero (n : Nat) : xorSum (fun _ => 0) n = 0 := by
  induction n with
  | zero => rfl
  | succ n ih => exact (BitVec.xor_zero).trans ih

theorem xorSum_xor (f g : Nat → Byte) (n : Nat) :
    xorSum (fun k => f k ^^^ g k) n = xorSum f n ^^^ xorSum g n := by
  induction n with
  | zero => exact BitVec.xor_self.symm
  | succ n ih =>
    rw [xorSum, xorSum, xorSum, ih]
    ac_rfl

theorem gmul_xorSum (a : Byte) (f : Nat → Byte) (n : Nat) :
    gmul a (xorSum f n) = xorSum (fun k => gmul a (f k)) n := by
  induction n with
  | zero => exact gmul_zero a
  | succ n ih => rw [xorSum, xorSum, gmul_xor_right, ih]

theorem xorSum_gmul (f : Nat → Byte) (b : Byte) (n : Nat) :
    gmul (xorSum f n) b = xorSum (fun k => gmul (f k) b) n := by
  induction n with
  | zero => exact zero_gmul b
  | succ n ih => rw [xorSum, xorSum, gmul_xor_left, ih]

theorem xorSum_comm (f : Nat → Nat → Byte) (m n : Nat) :
    xorSum (fun i => xorSum (f i) n) m = xorSum (fun k => xorSum (fun i => f i k) m) n := by
  induction m with
  | zero => exact (xorSum_zero n).symm
  | succ m ih => rw [xorSum, ih, ← xorSum_xor]; rfl

/-- A sum with one term that is not 0. -/
theorem xorSum_single (f : Nat → Byte) {i n : Nat} (hi : i < n) :
    xorSum (fun k => if k = i then f k else 0) n = f i := by
  have below : ∀ m ≤ i, xorSum (fun k => if k = i then f k else 0) m = 0 := fun m hm =>
    (xorSum_congr fun k hk => if_neg (show ¬k = i by omega)).trans (xorSum_zero m)
  induction n with
  | zero => omega
  | succ n ih =>
    rcases Nat.lt_or_eq_of_le (Nat.le_of_lt_succ hi) with before | rfl
    · rw [xorSum, ih before, if_neg (by omega)]
      exact BitVec.xor_zero
    · rw [xorSum, below i (Nat.le_refl i), if_pos rfl]
      exact BitVec.zero_xor

/-! ### Circulant matrices on columns (R145) -/

/-- Every column times the circulant matrix whose first row is `c`. -/
def circulant (c : List Byte) (S : Block) : Block :=
  tabulate 128 fun k =>
    xorSum (fun t => gmul (c.getD ((t + 8 - k % 8) % 8) 0) (byteAt S (8 * (k / 8) + t))) 8

theorem byteAt_circulant (c : List Byte) (S : Block) {i j : Nat} (hi : i < 8) (hj : j < 16) :
    byteAt (circulant c S) (8 * j + i)
      = xorSum (fun t => gmul (c.getD ((t + 8 - i) % 8) 0) (byteAt S (8 * j + t))) 8 := by
  rw [circulant, byteAt_tabulate_of_lt _ (by omega), show (8 * j + i) / 8 = j by omega,
    show (8 * j + i) % 8 = i by omega]

theorem mixBytes_eq_circulant (S : Block) : mixBytes S = circulant mixCoef S := rfl

/-- A block is its bytes row by row and column by column (00_scope.md R18). -/
theorem block_ext {S T : Block}
    (h : ∀ i < 8, ∀ j < 16, byteAt S (8 * j + i) = byteAt T (8 * j + i)) : S = T :=
  bytes_ext fun k hk => by
    have byte := h (k % 8) (by omega) (k / 8) (by omega)
    rwa [Nat.div_add_mod] at byte

/-- The circulant matrix of `c` times that of `d` is the identity: its entries are the products of
the rows of the first with the columns of the second. -/
def CirculantInverse (c d : List Byte) : Prop :=
  ∀ i < 8, ∀ k < 8,
    xorSum (fun t => gmul (c.getD ((t + 8 - i) % 8) 0) (d.getD ((k + 8 - t) % 8) 0)) 8
      = if k = i then 1 else 0

theorem circulant_circulant {c d : List Byte} (h : CirculantInverse c d) (S : Block) :
    circulant c (circulant d S) = S := by
  refine block_ext fun i hi j hj => ?_
  have entry : ∀ k < 8, xorSum (fun t => gmul (c.getD ((t + 8 - i) % 8) 0)
      (gmul (d.getD ((k + 8 - t) % 8) 0) (byteAt S (8 * j + k)))) 8
      = if k = i then byteAt S (8 * j + k) else 0 := fun k hk => by
    simp only [← gmul_assoc]
    rw [← xorSum_gmul _ (byteAt S (8 * j + k)), h i hi k hk]
    split_ifs
    · exact one_gmul _
    · exact zero_gmul _
  calc byteAt (circulant c (circulant d S)) (8 * j + i)
      = xorSum (fun t => xorSum (fun k => gmul (c.getD ((t + 8 - i) % 8) 0)
          (gmul (d.getD ((k + 8 - t) % 8) 0) (byteAt S (8 * j + k)))) 8) 8 := by
        rw [byteAt_circulant _ _ hi hj]
        exact xorSum_congr fun t ht => by rw [byteAt_circulant _ _ ht hj, gmul_xorSum]
    _ = xorSum (fun k => if k = i then byteAt S (8 * j + k) else 0) 8 := by
        rw [xorSum_comm]
        exact xorSum_congr entry
    _ = byteAt S (8 * j + i) := xorSum_single (fun k => byteAt S (8 * j + k)) hi

/-- The first row of the inverse of MixBytes' matrix. -/
def unmixCoef : List Byte := [0x13, 0x5A, 0x54, 0x72, 0x50, 0xDF, 0x45, 0x53]

theorem mix_unmix : CirculantInverse mixCoef unmixCoef := by
  unfold CirculantInverse
  decide +kernel

theorem unmix_mix : CirculantInverse unmixCoef mixCoef := by
  unfold CirculantInverse
  decide +kernel

theorem circulant_xorBytes (c : List Byte) (S T : Block) :
    circulant c (xorBytes S T) = xorBytes (circulant c S) (circulant c T) := by
  refine block_ext fun i hi j hj => ?_
  rw [byteAt_xorBytes, byteAt_circulant _ _ hi hj, byteAt_circulant _ _ hi hj,
    byteAt_circulant _ _ hi hj, ← xorSum_xor]
  exact xorSum_congr fun t _ => by rw [byteAt_xorBytes, gmul_xor_right]

/-! ### The round steps are bijections (R148) -/

theorem arcP_arcP (S : Block) (r : BitVec 4) : arcP (arcP S r) r = S :=
  bytes_ext fun k hk => by
    rw [arcP, byteAt_tabulate_of_lt _ hk, arcP, byteAt_tabulate_of_lt _ hk]
    split_ifs
    · rw [BitVec.xor_assoc, BitVec.xor_self, BitVec.xor_zero]
    · rfl

theorem arcQ_arcQ (S : Block) (r : BitVec 4) : arcQ (arcQ S r) r = S :=
  bytes_ext fun k hk => by
    rw [arcQ, byteAt_tabulate_of_lt _ hk, arcQ, byteAt_tabulate_of_lt _ hk]
    split_ifs <;> rw [BitVec.xor_assoc, BitVec.xor_self, BitVec.xor_zero]

/-- Settles O11: a constant xored in twice is gone, the S-box has an inverse, and the product is
linear in each byte. -/
theorem roundStepLaws : Obligations.RoundStepLaws :=
  ⟨fun S r => ⟨arcP_arcP S r, arcQ_arcQ S r⟩, sbox_bijective, fun S T => by
    simp only [mixBytes_eq_circulant, circulant_xorBytes]⟩

theorem arcP_bijective (r : BitVec 4) : Function.Bijective (fun S => arcP S r) :=
  Function.Involutive.bijective fun S => arcP_arcP S r

theorem arcQ_bijective (r : BitVec 4) : Function.Bijective (fun S => arcQ S r) :=
  Function.Involutive.bijective fun S => arcQ_arcQ S r

theorem mixBytes_bijective : Function.Bijective mixBytes :=
  Function.bijective_iff_has_inverse.2
    ⟨circulant unmixCoef, circulant_circulant unmix_mix, circulant_circulant mix_unmix⟩

/-- A function applied to every byte is a bijection where it is one on bytes. -/
theorem subBytes_bijective : Function.Bijective subBytes := by
  obtain ⟨inverse, left, right⟩ := Function.bijective_iff_has_inverse.1 sbox_bijective
  refine Function.bijective_iff_has_inverse.2
    ⟨fun S => tabulate 128 fun k => inverse (byteAt S k), fun S => ?_, fun S => ?_⟩
  · exact bytes_ext fun k hk => by rw [byteAt_tabulate_of_lt _ hk, byteAt_subBytes _ hk, left]
  · exact bytes_ext fun k hk => by rw [byteAt_subBytes _ hk, byteAt_tabulate_of_lt _ hk, right]

/-- Two rotations of the rows cancel where their amounts sum to whole turns of 16 columns. -/
theorem shiftBytes_shiftBytes {sigma tau : List Nat}
    (h : ∀ i < 8, (sigma.getD i 0 + tau.getD i 0) % 16 = 0) (S : Block) :
    shiftBytes (shiftBytes S tau) sigma = S := by
  refine block_ext fun i hi j hj => ?_
  rw [byteAt_shiftBytes _ _ hi hj, byteAt_shiftBytes _ _ hi (by omega)]
  have turns := h i hi
  congr 3
  omega

/-- The rotations of P undone. -/
def unsigmaP : List Nat := [0, 15, 14, 13, 12, 11, 10, 5]

/-- The rotations of Q undone. -/
def unsigmaQ : List Nat := [15, 13, 11, 5, 0, 14, 12, 10]

theorem shiftBytes_bijective {sigma tau : List Nat}
    (h : ∀ i < 8, (sigma.getD i 0 + tau.getD i 0) % 16 = 0) :
    Function.Bijective (fun S => shiftBytes S sigma) :=
  Function.bijective_iff_has_inverse.2 ⟨fun S => shiftBytes S tau,
    shiftBytes_shiftBytes fun i hi => by rw [Nat.add_comm]; exact h i hi, shiftBytes_shiftBytes h⟩

theorem shiftBytes_sigmaP_bijective : Function.Bijective (fun S => shiftBytes S sigmaP) :=
  shiftBytes_bijective (tau := unsigmaP) (by decide)

theorem shiftBytes_sigmaQ_bijective : Function.Bijective (fun S => shiftBytes S sigmaQ) :=
  shiftBytes_bijective (tau := unsigmaQ) (by decide)

theorem roundP_bijective (r : BitVec 4) : Function.Bijective (fun S => roundP S r) :=
  mixBytes_bijective.comp
    (shiftBytes_sigmaP_bijective.comp (subBytes_bijective.comp (arcP_bijective r)))

theorem roundQ_bijective (r : BitVec 4) : Function.Bijective (fun S => roundQ S r) :=
  mixBytes_bijective.comp
    (shiftBytes_sigmaQ_bijective.comp (subBytes_bijective.comp (arcQ_bijective r)))

/-- Bijections one after another are a bijection. -/
theorem foldl_bijective {α β : Type} {f : α → β → α} (h : ∀ b, Function.Bijective fun a => f a b)
    (l : List β) : Function.Bijective fun a => l.foldl f a := by
  induction l with
  | nil => exact Function.bijective_id
  | cons b l ih => exact ih.comp (h b)

/-- Settles O12: each step has an inverse, a round composes four of them, a permutation fourteen
rounds. -/
theorem permutationsAreBijective : Obligations.PermutationsAreBijective :=
  ⟨subBytes_bijective, mixBytes_bijective, shiftBytes_sigmaP_bijective,
    shiftBytes_sigmaQ_bijective,
    fun r => ⟨arcP_bijective r, arcQ_bijective r, roundP_bijective r, roundQ_bijective r⟩,
    foldl_bijective roundP_bijective rounds, foldl_bijective roundQ_bijective rounds⟩

end Sys2Proof.Machine
end
